-- ==== Sys2Proof/Word.lean ====
section
/-! DEFINITION. The word types of the spec: a byte is 8 bits, read as an unsigned integer 0..255 (00_scope.md R7);
a command word and a response word are 32 bits, bit 0 the least significant (30_encoding.md R80, R84). -/

namespace Sys2Proof

/-- A byte (R7). -/
abbrev Byte := BitVec 8

/-- A command word or a response word (R80, R84). -/
abbrev Word := BitVec 32

end Sys2Proof
end

