-- ==== Sys2Proof/Config.lean ====
section
/-! DEFINITION. What an implementation fixes and what the spec leaves open: the parameters of 00_scope.md R6 that are
the same for every instance, the uninterpreted cipher of 43_collaborator_primitives.md R204, and the free values. -/

namespace Sys2Proof

/-- Width of the `len` field of a command word (R6, R80). -/
abbrev Config.lenBits : Nat := 24

/-- Smallest legal block size (R6). -/
abbrev Config.minBlockSize : Nat := 1

/-- Largest legal block size: a pad count of `B` must fit one byte (R6). -/
abbrev Config.maxBlockSize : Nat := 255

/-- Block size of the reference instance (R6). -/
abbrev Config.referenceBlockSize : Nat := 16

/-- The two units of R9, used to keep their free values apart. -/
inductive UnitId where
  | enc
  | dec
deriving DecidableEq, Repr

/-- FREE VALUE (93_implementation_defined.md U14). The keyed block cipher: for every block size and key a permutation of
the blocks of that size, about which nothing else is known. `E_K` is the permutation and `D_K` its inverse, which is
the one property R204 assumes, `D_K(E_K(x)) = x`. Keys are numbered; no command ever sees one. Log 3. -/
opaque Config.cipherPerm (blockSize key : Nat) : Equiv.Perm { x : List Byte // x.length = blockSize }

/-- FREE VALUE. The byte the `n`-th draw of a unit gives: register contents after a reset event (R261, U4), bytes of
an unscheduled random answer (R201, U5), payload bytes the host did not present (R83). Log 5, 6, 10. -/
opaque Config.freeByte : UnitId → Nat → Byte

/-- FREE VALUE. Whether an unscheduled call of the random source fails (R201, U5). Log 6. -/
opaque Config.freeRandomFails : Nat → Bool

/-- FREE VALUE. How many bytes the sink accepts in an unscheduled write, cut to the length offered (R202, U9).
Log 7. -/
opaque Config.freeAccept : Nat → Nat

end Sys2Proof
end

