-- ==== Sys2Proof/Syntax.lean ====
section
/-! DEFINITION. The commands of spec/opcode_table.json (30_encoding.md R81). A reserved word (R88) has no constructor:
the decoder rejects it by name. -/

namespace Sys2Proof

/-- The four commands (R81). `len` counts bytes (R82); the payload of `ewrite` is not part of the command word: it
stands on the WDATA channel (R83). -/
inductive Instr where
  /-- StreamEncryptor `write(bytes)`: `EWRITE len`. -/
  | ewrite (len : Nat)
  /-- StreamEncryptor `close()`: `ECLOSE`. -/
  | eclose
  /-- StreamDecryptor `read(requestedLength)`: `DREAD len`. -/
  | dread (len : Nat)
  /-- StreamDecryptor `close()`: `DCLOSE`. -/
  | dclose
deriving DecidableEq, Repr

end Sys2Proof
end

