-- ==== Sys2Proof/WellFormed.lean ====
section
/-! DEFINITION. Which terms of `Instr` are commands of the spec: a `len` is a 24-bit count (30_encoding.md R80, R82). -/

namespace Sys2Proof

/-- `len` fits its field: `0 .. 2^24 - 1` (R80). -/
def lenOk (len : Nat) : Bool := decide (len < 2 ^ Config.lenBits)

/-- A command that has a command word. -/
def Instr.wellFormed : Instr → Bool
  | .ewrite len => lenOk len
  | .eclose => true
  | .dread len => lenOk len
  | .dclose => true

end Sys2Proof
end

