-- ==== Sys2Proof/Decode.lean ====
section
/-! DEFINITION. Decoding of command words and its inverse (30_encoding.md R80, R81, R88). -/

namespace Sys2Proof

/-- Why a command word is reserved (R88). Safe: the machine answers `INVALID` and does nothing. -/
inductive Reserved where
  /-- The opcode is none of `0x10`, `0x11`, `0x20`, `0x21`. -/
  | opcode (op : BitVec 8)
  /-- The opcode is that of a close and `len` is not 0. -/
  | closeWithLen (op : BitVec 8) (len : Nat)
deriving DecidableEq, Repr

/-- `cmd[31:24]` (R80). -/
def opcodeField (w : Word) : BitVec 8 := w.extractLsb' 24 8

/-- `cmd[23:0]`, unsigned, not scaled (R80, R82). -/
def lenField (w : Word) : Nat := (w.extractLsb' 0 24).toNat

/-- Opcode of `EWRITE` (R81). -/
def opEwrite : BitVec 8 := 0x10#8
/-- Opcode of `ECLOSE` (R81). -/
def opEclose : BitVec 8 := 0x11#8
/-- Opcode of `DREAD` (R81). -/
def opDread : BitVec 8 := 0x20#8
/-- Opcode of `DCLOSE` (R81). -/
def opDclose : BitVec 8 := 0x21#8

/-- `decode(cmd)` of R88: total, a reserved word is rejected by name. -/
def decode (w : Word) : Except Reserved Instr :=
  if opcodeField w = opEwrite then .ok (.ewrite (lenField w))
  else if opcodeField w = opEclose then
    if lenField w = 0 then .ok .eclose else .error (.closeWithLen opEclose (lenField w))
  else if opcodeField w = opDread then .ok (.dread (lenField w))
  else if opcodeField w = opDclose then
    if lenField w = 0 then .ok .dclose else .error (.closeWithLen opDclose (lenField w))
  else .error (.opcode (opcodeField w))

/-- A command word from its two fields (R80). -/
def commandWord (op : BitVec 8) (len : Nat) : Word := op ++ BitVec.ofNat 24 len

/-- The command word of a well-formed command (R80, R81). -/
def encode : Instr → Word
  | .ewrite len => commandWord opEwrite len
  | .eclose => commandWord opEclose 0
  | .dread len => commandWord opDread len
  | .dclose => commandWord opDclose 0

/-- The 32-bit command word that an opcode-table word of `nbits` bits stands for, the bits above `nbits` zero. A
command is one 32-bit word (R80), so its bit numbering is the table's. -/
def tableWord (nbits w : Nat) : Word := BitVec.ofNat 32 (w % 2 ^ nbits)

/-- What the decoder reads from an opcode-table word; a row wider than the 32 bits of a command does not exist. -/
def decodeTableWord (nbits w : Nat) : Option Instr :=
  if nbits ≤ 32 then
    match decode (tableWord nbits w) with
    | .ok i => some i
    | .error _ => none
  else none

end Sys2Proof
end

