-- ==== Sys2Proof/Machine/State.lean ====
section
/-! DEFINITION. The state of the machine as plain data (10_state.md, 43_collaborator_primitives.md, 30_encoding.md):
the two units with the collaborators bound to them, and the channels to the host. -/

namespace Sys2Proof.Machine

/-- The ENC state register (R21). -/
inductive EncState where
  /-- No IV has been generated or written. -/
  | uninit
  /-- The IV is in the sink; `ebuf[0..elen)` is the residue. -/
  | streaming
  /-- `ECLOSE` has run. -/
  | closed
  /-- An EncryptionError has been raised. -/
  | failed
deriving DecidableEq, Repr

/-- The DEC state register (R30). -/
inductive DecState where
  /-- The IV has not been read. -/
  | uninit
  /-- IV consumed; the final block is not yet identified. -/
  | streaming
  /-- The final block is stripped; `cur[cpos..clen)` is a non-empty undelivered tail. -/
  | draining
  /-- All plaintext has been delivered. -/
  | drained
  /-- A DecryptionError has been raised. -/
  | failed
  /-- `DCLOSE` has run. -/
  | closed
deriving DecidableEq, Repr

/-- The outcome of a command (R85). -/
inductive Status where
  | ok
  | eos
  | encErr
  | decErr
  | invalid
deriving DecidableEq, Repr

/-- Which keyed cipher a CBC engine holds (R204, R46 (d)). `keyed k` is uninterpreted (`Config.cipherPerm`). The other
two are the toy ciphers of 95_test_vectors.md section 2, instances of the same parameter. Log 3. -/
inductive Cipher where
  | keyed (key : Nat)
  /-- T0, the identity cipher. -/
  | toyIdentity
  /-- T1, rotate and increment. -/
  | toyRotate
deriving DecidableEq, Repr

/-- A collaborator call with its arguments and answer (R200 to R210). The unit is the one whose record it stands in. -/
inductive Call where
  | randomBytes (n : Nat) (answer : Option (List Byte))
  | sinkWrite (offered : List Byte) (accepted : Nat)
  | sinkClose
  | cbcInit (iv : List Byte)
  | cbcEncrypt (m c : List Byte)
  | cbcDecrypt (c m : List Byte)
  | srcRead (n : Nat) (answer : List Byte)
  | srcClose
deriving DecidableEq, Repr

/-- The ENC unit (R21 to R24), its bound parameters (R6), and its environment (R43). -/
structure EncUnit where
  est : EncState
  ebuf : List Byte
  elen : Nat
  echain : List Byte
  blockSize : Nat
  cipher : Cipher
  /-- Answers the random source will give, oldest first; `none` is `fail` (R201). Log 6. -/
  rng : List (Option (List Byte))
  /-- How many bytes the sink will accept in each coming write, oldest first (R202). Log 7. -/
  accept : List Nat
  /-- The sink content; its length is `kpos` (R51, R43). -/
  snk : List Byte
  snkClosed : Bool
  /-- The collaborator calls made so far (R212). Log 11. -/
  calls : List Call
  /-- Free values drawn so far: the model's own. Log 9. -/
  draws : Nat
deriving DecidableEq, Repr

/-- The DEC unit (R30 to R34), its bound parameters (R6), and its environment (R43). -/
structure DecUnit where
  dst : DecState
  cur : List Byte
  cpos : Nat
  clen : Nat
  la : List Byte
  laLen : Nat
  laValid : Bool
  dchain : List Byte
  blockSize : Nat
  cipher : Cipher
  /-- The source content (R50). -/
  src : List Byte
  /-- The source position (R50). -/
  spos : Nat
  srcClosed : Bool
  /-- The collaborator calls made so far (R212). Log 11. -/
  calls : List Call
  /-- Free values drawn so far: the model's own. Log 9. -/
  draws : Nat
deriving DecidableEq, Repr

/-- What the platform binds ENC to before it releases reset: block size, keyed cipher, random source, and a fresh
sink, which is empty and open (R262). -/
structure EncBinding where
  blockSize : Nat
  cipher : Cipher
  rng : List (Option (List Byte))
  accept : List Nat
deriving DecidableEq, Repr

/-- What the platform binds DEC to before it releases reset: block size, keyed cipher, and a source, open and at its
first byte (R262). -/
structure DecBinding where
  blockSize : Nat
  cipher : Cipher
  src : List Byte
deriving DecidableEq, Repr

/-- What the host and the platform present (R80, R83, R260, R262). -/
inductive HostEvent where
  /-- A command word on CMD with the bytes that accompany it on WDATA. -/
  | command (word : Word) (payload : List Byte)
  /-- `RESET ENC`; with a binding, the unit comes out of reset bound anew. -/
  | resetEnc (bind : Option EncBinding)
  /-- `RESET DEC`; with a binding, the unit comes out of reset bound anew. -/
  | resetDec (bind : Option DecBinding)
deriving DecidableEq, Repr

/-- What a command answers: `respond(status, count, data)` (R15, R84). -/
structure Reply where
  status : Status
  count : Nat
  data : List Byte
deriving DecidableEq, Repr

/-- A response: the word on RSP and the data on RDATA (R84, R87). -/
structure Response where
  word : Word
  data : List Byte
deriving DecidableEq, Repr

/-- The machine: two units that share nothing (R20), and the channels to the host (R52, R83, R84). -/
structure State where
  enc : EncUnit
  dec : DecUnit
  /-- CMD: what the host has presented and the hardware has not taken, oldest first (R264). -/
  pending : List HostEvent
  /-- WDATA: the payload that accompanies the command being executed (R83). -/
  wdata : List Byte
  /-- RSP and RDATA: the responses given so far, oldest first (R84, R87). -/
  rspLog : List Response
deriving DecidableEq, Repr

/-- Why the machine stops. -/
inductive Fault where
  /-- Raised by `runEvent` when the platform binds a unit to a block size outside `1 ≤ B ≤ 255` (R6). Safe: no such
  instance exists. No command raises it. Log 2. -/
  | illegalBlockSize
deriving DecidableEq, Repr

/-- Why a command has no meaning. -/
inductive Refusal where
  /-- Reserved for an arm of `exec` without a meaning; no arm uses it. Safe. -/
  | notModelled (mnemonic : String)
deriving DecidableEq, Repr

/-- A buffer's content right after `State.reset`: `B` zero bytes (DESIGN CHOICE, log 4). -/
def resetBlock : List Byte := List.replicate Config.referenceBlockSize 0#8

/-- ENC right after reset (R42, R43); the values the spec leaves open: log 2, 3, 4, 6, 7. -/
def EncUnit.reset : EncUnit where
  est := .uninit
  ebuf := resetBlock
  elen := 0
  echain := resetBlock
  blockSize := Config.referenceBlockSize
  cipher := .keyed 0
  rng := []
  accept := []
  snk := []
  snkClosed := false
  calls := []
  draws := 0

/-- DEC right after reset (R42, R43); the values the spec leaves open: log 2, 3, 4, 8. -/
def DecUnit.reset : DecUnit where
  dst := .uninit
  cur := resetBlock
  cpos := 0
  clen := 0
  la := resetBlock
  laLen := 0
  laValid := false
  dchain := resetBlock
  blockSize := Config.referenceBlockSize
  cipher := .keyed 0
  src := []
  spos := 0
  srcClosed := false
  calls := []
  draws := 0

/-- The machine right after reset: both units wait for their first command (R42). -/
def State.reset : State where
  enc := EncUnit.reset
  dec := DecUnit.reset
  pending := []
  wdata := []
  rspLog := []

end Sys2Proof.Machine
end

