-- ==== Sys2Proof/Machine/Flags.lean ====
section
/-! DEFINITION. Status codes, the response word, the end-of-stream status, and the numeric values of the state
registers (30_encoding.md R84 to R86, 10_state.md R21, R30, R44, 42_stream_decryptor.md R163). -/

namespace Sys2Proof.Machine

/-- Status codes (R85). -/
def statusCode : Status → BitVec 4
  | .ok => 0x0#4
  | .eos => 0x1#4
  | .encErr => 0x2#4
  | .decErr => 0x3#4
  | .invalid => 0xF#4

/-- The response word: `status` in bits 31..28, bits 27..24 zero, `count` in bits 23..0 (R84). -/
def responseWord (st : Status) (count : Nat) : Word := statusCode st ++ 0#4 ++ BitVec.ofNat 24 count

/-- `rsp[31:28]` (R84). -/
def statusField (w : Word) : BitVec 4 := w.extractLsb' 28 4

/-- `rsp[27:24]` (R84). -/
def zeroField (w : Word) : BitVec 4 := w.extractLsb' 24 4

/-- `rsp[23:0]` (R84, R86). -/
def countField (w : Word) : Nat := (w.extractLsb' 0 24).toNat

/-- The response a reply puts on RSP and RDATA (R84, R87). -/
def response (r : Reply) : Response := { word := responseWord r.status r.count, data := r.data }

/-- The status of a `DREAD` that ends without error: `EOS` exactly when the unit is `DRAINED` (R163, R44). -/
def readStatus : DecState → Status
  | .drained => .eos
  | .uninit | .streaming | .draining | .failed | .closed => .ok

/-- The value of `est` (R21). -/
def encStateCode : EncState → BitVec 2
  | .uninit => 0#2
  | .streaming => 1#2
  | .closed => 2#2
  | .failed => 3#2

/-- The value of `dst` (R30). -/
def decStateCode : DecState → BitVec 3
  | .uninit => 0#3
  | .streaming => 1#3
  | .draining => 2#3
  | .drained => 3#3
  | .failed => 4#3
  | .closed => 5#3

end Sys2Proof.Machine
end

