-- ==== Sys2Proof/Machine/Operands.lean ====
section
/-! DEFINITION. The operands of a command: the payload of `EWRITE` on WDATA (30_encoding.md R83), and the reading of a
byte sequence of a required length. `len` itself is read by the decoder (R82). -/

namespace Sys2Proof.Machine

/-- `n` free bytes of a unit, from draw `k` on. -/
def freeBytes (u : UnitId) (k n : Nat) : List Byte := (List.range n).map fun i => Config.freeByte u (k + i)

/-- Exactly `n` bytes from a partner that owes `n` bytes and presented `bs`: `bs` itself when it has `n` bytes, which
is what the contract says. Bytes beyond `n` are dropped and missing bytes are free (DESIGN CHOICE, log 6, 10). -/
def exactBytes (u : UnitId) (k n : Nat) (bs : List Byte) : List Byte :=
  bs.take n ++ freeBytes u k (n - bs.length)

/-- The payload operand of `EWRITE len`: the `len` bytes on WDATA (R83). -/
def payload (len : Nat) (wdata : List Byte) (e : EncUnit) : List Byte := exactBytes .enc e.draws len wdata

/-- ENC after it has read the payload: only draws for bytes the host did not present are counted. -/
def afterPayload (len : Nat) (wdata : List Byte) (e : EncUnit) : EncUnit :=
  { e with draws := e.draws + (len - wdata.length) }

end Sys2Proof.Machine
end

