-- ==== Sys2Proof/Machine/Ops.lean ====
section
/-! DEFINITION. The shared operations: byte spaces, buffers, the CBC engine, the eight collaborator primitives
(43_collaborator_primitives.md), replies, and the entry into an error (60_exceptions.md R238). -/

namespace Sys2Proof.Machine

/-! ## Byte spaces (20_memory.md R50, R51) -/

/-- The byte at address `a` of SRC or SNK; an address from the length on does not exist (R50, R51, R55). -/
def byteAt (space : List Byte) (a : Nat) : Option Byte := space[a]?

/-- A byte space as address and byte pairs, in address order. -/
def cells (space : List Byte) : List Host.Cell := space.zipIdx.map fun p => (p.2, p.1)

/-- The canonical form of address and byte pairs: addresses strictly rising. -/
def Memory.wf (m : List Host.Cell) : Bool := decide (m.Pairwise fun a b => a.1 < b.1)

/-- `kpos`: the number of bytes the sink has accepted (R14, R43). -/
def kpos (e : EncUnit) : Nat := e.snk.length

/-! ## Buffers (00_scope.md R12) -/

/-- `buf[0..|s|) <- s`: only the indices given change. -/
def overlay (s buf : List Byte) : List Byte := s ++ buf.drop s.length

/-- `buf[i..j)`. -/
def slice (buf : List Byte) (i j : Nat) : List Byte := (buf.take j).drop i

/-! ## The block cipher and CBC (R204, R205) -/

/-- `E_K` (R204); the toy ciphers: 95_test_vectors.md section 2. -/
def cipherE (c : Cipher) (blockSize : Nat) (x : List Byte) : List Byte :=
  match c with
  | .keyed key => if h : x.length = blockSize then (Config.cipherPerm blockSize key ⟨x, h⟩).val else x
  | .toyIdentity => x
  | .toyRotate => (x.rotateLeft 1).map (· + 1#8)

/-- `D_K` (R204). -/
def cipherD (c : Cipher) (blockSize : Nat) (y : List Byte) : List Byte :=
  match c with
  | .keyed key => if h : y.length = blockSize then ((Config.cipherPerm blockSize key).symm ⟨y, h⟩).val else y
  | .toyIdentity => y
  | .toyRotate => (y.rotateRight 1).map (· - 1#8)

/-- `Comb`: bytewise exclusive-or (R205). -/
def comb (x v : List Byte) : List Byte := List.zipWith (· ^^^ ·) x v

/-- `CbcInit(iv)` for ENC (R206). -/
def encCbcInit (iv : List Byte) (e : EncUnit) : EncUnit :=
  { e with echain := iv, calls := e.calls ++ [.cbcInit iv] }

/-- The ciphertext block `CbcEncrypt(m)` gives (R207). -/
def cbcEncryptBlock (m : List Byte) (e : EncUnit) : List Byte := cipherE e.cipher e.blockSize (comb m e.echain)

/-- `CbcEncrypt(m)`: the block and ENC with its chaining value advanced (R207). -/
def cbcEncrypt (m : List Byte) (e : EncUnit) : List Byte × EncUnit :=
  let c := cbcEncryptBlock m e
  (c, { e with echain := c, calls := e.calls ++ [.cbcEncrypt m c] })

/-- `CbcInit(iv)` for DEC (R206). -/
def decCbcInit (iv : List Byte) (d : DecUnit) : DecUnit :=
  { d with dchain := iv, calls := d.calls ++ [.cbcInit iv] }

/-- The plaintext block `CbcDecrypt(c)` gives (R208). -/
def cbcDecryptBlock (c : List Byte) (d : DecUnit) : List Byte := comb (cipherD d.cipher d.blockSize c) d.dchain

/-- `CbcDecrypt(c)`: the block and DEC with its chaining value advanced (R208). -/
def cbcDecrypt (c : List Byte) (d : DecUnit) : List Byte × DecUnit :=
  let m := cbcDecryptBlock c d
  (m, { d with dchain := c, calls := d.calls ++ [.cbcDecrypt c m] })

/-! ## Random source (R201) -/

/-- The answer of the next call of the random source: exactly `n` bytes or `fail` (`none`), the scheduled one; with none
scheduled it is free (U5, log 6). -/
def nextRandom (n : Nat) (e : EncUnit) : Option (List Byte) :=
  match e.rng with
  | none :: _ => none
  | some bs :: _ => some (exactBytes .enc e.draws n bs)
  | [] => if Config.freeRandomFails e.draws then none else some (freeBytes .enc (e.draws + 1) n)

/-- How many free values the next answer of the random source takes. -/
def randomDraws (n : Nat) (e : EncUnit) : Nat :=
  match e.rng with
  | none :: _ => 0
  | some bs :: _ => n - bs.length
  | [] => 1 + n

/-- `RandomBytes(n)`: the answer, and ENC with it used up (R201). -/
def randomBytes (n : Nat) (e : EncUnit) : Option (List Byte) × EncUnit :=
  let r := nextRandom n e
  (r, { e with rng := e.rng.tail, draws := e.draws + randomDraws n e, calls := e.calls ++ [.randomBytes n r] })

/-! ## Sink (R202, R203) -/

/-- How many of `n` offered bytes the sink accepts next: the scheduled answer, at most `n`; free when none is
scheduled (U9, log 7). -/
def nextAccept (n : Nat) (e : EncUnit) : Nat := min (e.accept.headD (Config.freeAccept e.draws)) n

/-- ENC after the sink's next answer has been used up. -/
def takeAccept (e : EncUnit) : EncUnit :=
  { e with accept := e.accept.tail, draws := e.draws + (if e.accept.isEmpty then 1 else 0) }

/-- `SinkWrite(s)`: the number `w` of bytes accepted; `s[0..w)` is appended to the sink (R202). -/
def sinkWrite (s : List Byte) (e : EncUnit) : Nat × EncUnit :=
  let w := nextAccept s.length e
  let e' := takeAccept e
  (w, { e' with snk := e.snk ++ s.take w, calls := e.calls ++ [.sinkWrite s w] })

/-- `SinkClose()` (R203). -/
def sinkClose (e : EncUnit) : EncUnit := { e with snkClosed := true, calls := e.calls ++ [.sinkClose] }

/-! ## Source (R209, R210) -/

/-- `src[spos .. min(spos + n, |src|))` (R209). -/
def srcNext (n : Nat) (d : DecUnit) : List Byte := (d.src.drop d.spos).take n

/-- `SrcRead(n)`: the bytes and DEC with the source position moved past them (R209). -/
def srcRead (n : Nat) (d : DecUnit) : List Byte × DecUnit :=
  let t := srcNext n d
  (t, { d with spos := d.spos + t.length, calls := d.calls ++ [.srcRead n t] })

/-- `SrcClose()` (R210). -/
def srcClose (d : DecUnit) : DecUnit := { d with srcClosed := true, calls := d.calls ++ [.srcClose] }

/-! ## Replies and errors (00_scope.md R15, 60_exceptions.md R234, R238) -/

/-- `respond(INVALID, 0)` (R234). -/
def invalidReply : Reply := { status := .invalid, count := 0, data := [] }

/-- `respond(ENC_ERR, count)`: also the sticky repeat and the failing `ECLOSE` (R231, R240). -/
def encErrReply (count : Nat) : Reply := { status := .encErr, count := count, data := [] }

/-- `respond(DEC_ERR, |out|, out)` (R232, R240). -/
def decErrReply (out : List Byte) : Reply := { status := .decErr, count := out.length, data := out }

/-- `respond(OK, count)` of a command that returns no data. -/
def okReply (count : Nat) : Reply := { status := .ok, count := count, data := [] }

/-- `raise EncryptionError(count)`: the state register becomes `FAILED`, the command ends, the response carries the
status and the count; nothing else is saved (R238). There is no return from it: only reset leads out (R239). -/
def raiseEncryptionError (count : Nat) (e : EncUnit) : EncUnit × Reply := ({ e with est := .failed }, encErrReply count)

/-- `raise DecryptionError(out)`: the same entry for DEC, with the bytes already produced (R238). Only reset leads
out (R239). -/
def raiseDecryptionError (out : List Byte) (d : DecUnit) : DecUnit × Reply := ({ d with dst := .failed }, decErrReply out)

/-- The response leaves on RSP and RDATA, and the command's payload is used up (R83, R84). -/
def post (r : Reply) (s : State) : State := { s with wdata := [], rspLog := s.rspLog ++ [response r] }

/-- An ENC command ends: the unit's new state and the response. DEC is not touched (R20, R238). -/
def finishEnc (r : EncUnit × Reply) (s : State) : State := post r.2 { s with enc := r.1 }

/-- A DEC command ends: the unit's new state and the response. ENC is not touched (R20, R238). -/
def finishDec (r : DecUnit × Reply) (s : State) : State := post r.2 { s with dec := r.1 }

end Sys2Proof.Machine
end

