-- ==== Sys2Proof/Machine/Padding.lean ====
section
/-! DEFINITION. PaddingCodec: pad inserter, pad stripper and their whole-message forms (40_padding_codec.md R110 to
R119). It has no state. -/

namespace Sys2Proof.Machine

/-- The pad count `B - u` for a used length `u` (R111). -/
def padCount (blockSize u : Nat) : Nat := blockSize - u

/-- `PadAdd(block, u)`: indices `u .. B-1` get the pad count; the block and the count (R111). -/
def padAdd (blockSize : Nat) (block : List Byte) (u : Nat) : List Byte × Nat :=
  let pad := padCount blockSize u
  (block.take u ++ List.replicate pad (BitVec.ofNat 8 pad), pad)

/-- `PadRemove(block)`: `none` is `PaddingError`. Only the last byte is examined and only `k > n` fails (R113, R114);
an empty block is returned unchanged (R115). -/
def padRemove (block : List Byte) : Option (List Byte) :=
  match block.getLast? with
  | none => some block
  | some k => if k.toNat > block.length then none else some (block.take (block.length - k.toNat))

/-- `Pad(p) = p ++ rep(q, q)` with `q = B - (L mod B)` (R118). -/
def padMessage (blockSize : Nat) (p : List Byte) : List Byte :=
  let q := padCount blockSize (p.length % blockSize)
  p ++ List.replicate q (BitVec.ofNat 8 q)

/-- `Unpad(m)`: everything but the last block, then the last block stripped; `none` when stripping fails (R119). -/
def unpadMessage (blockSize : Nat) (m : List Byte) : Option (List Byte) :=
  if m = [] then some []
  else (padRemove (m.drop (m.length - blockSize))).map fun r => m.take (m.length - blockSize) ++ r

end Sys2Proof.Machine
end

