-- ==== Sys2Proof/Machine/Decryptor.lean ====
section
/-! DEFINITION. The DEC unit: the IV step, the lookahead step, `DREAD`, `DCLOSE` (42_stream_decryptor.md R161 to
R164). -/

namespace Sys2Proof.Machine

/-- `DecInit()`: `B` bytes of IV from the source; `false` is `fail` (R161). -/
def decInit (d : DecUnit) : Bool × DecUnit :=
  let r := srcRead d.blockSize d
  if r.1.length < d.blockSize then (false, r.2)
  else (true, { decCbcInit r.1 r.2 with cpos := 0, clen := 0, laValid := false, dst := .streaming })

/-- The block to process: promoted from the read-ahead buffer, or for the first block pulled from the source (R162,
step 2). -/
def takeBlock (d : DecUnit) : List Byte × DecUnit :=
  if d.laValid then (d.la.take d.laLen, { d with laValid := false }) else srcRead d.blockSize d

/-- Decrypt a full block into `cur` and pull the next one into `la` (R162, steps 3 and 4). -/
def decryptAndLookAhead (blk : List Byte) (d : DecUnit) : DecUnit :=
  let m := cbcDecrypt blk d
  let t := srcRead d.blockSize { m.2 with cur := m.1, clen := d.blockSize, cpos := 0 }
  { t.2 with la := overlay t.1 t.2.la, laLen := t.1.length, laValid := true }

/-- The block in `cur` is the final one: strip its padding, and mark the end of the stream; `false` is `fail` (R162,
under `final`). -/
def stripFinal (d : DecUnit) : Bool × DecUnit :=
  match padRemove (d.cur.take d.clen) with
  | none => (false, { d with laValid := false })
  | some r =>
    (true, { d with laValid := false, clen := r.length, dst := if r.length > 0 then .draining else .drained })

/-- `NextBlock()` (R162). -/
def nextBlock (d : DecUnit) : Bool × DecUnit :=
  let b := takeBlock d
  if 0 < b.1.length ∧ b.1.length < d.blockSize then (false, b.2)
  else if b.1.length = d.blockSize then
    let d1 := decryptAndLookAhead b.1 b.2
    if d1.laLen = 0 then stripFinal d1 else (true, d1)
  else stripFinal { b.2 with clen := 0, cpos := 0 }

/-- How many pending bytes one pass delivers when `want` are still wanted (R163). -/
def deliverCount (want : Nat) (d : DecUnit) : Nat := min want (d.clen - d.cpos)

/-- DEC after `m` pending bytes have been delivered (R163). -/
def deliver (m : Nat) (d : DecUnit) : DecUnit :=
  { d with
    cpos := d.cpos + m
    dst := if d.cpos + m = d.clen ∧ d.dst = .draining then .drained else d.dst }

/-- The reply of a `DREAD` that ends without error (R163). -/
def readReply (out : List Byte) (d : DecUnit) : Reply :=
  { status := readStatus d.dst, count := out.length, data := out }

/-- The loop of `DREAD`, pass by pass: `want` bytes are still wanted and `out` has been produced (R163). `fuel` bounds
the passes; `readPasses` passes are enough (R169). -/
def readLoop : Nat → Nat → List Byte → DecUnit → DecUnit × Reply
  | 0, _, out, d => (d, readReply out d)
  | fuel + 1, want, out, d =>
    if want = 0 then (d, readReply out d)
    else if d.cpos < d.clen then
      let m := deliverCount want d
      readLoop fuel (want - m) (out ++ slice d.cur d.cpos (d.cpos + m)) (deliver m d)
    else if d.dst = .drained then (d, readReply out d)
    else
      let b := nextBlock d
      if b.1 then readLoop fuel want out b.2 else raiseDecryptionError out b.2

/-- The bound on the passes of a `DREAD len` (R169). -/
def readPasses (len : Nat) : Nat := 2 * len + 2

/-- `DREAD` in `STREAMING`, `DRAINING` or `DRAINED`, or after its IV step. -/
def readData (len : Nat) (d : DecUnit) : DecUnit × Reply := readLoop (readPasses len) len [] d

/-- `DREAD len` on the unit (R163). -/
def decRead (len : Nat) (d : DecUnit) : DecUnit × Reply :=
  match d.dst with
  | .closed => (d, invalidReply)
  | .failed => (d, decErrReply [])
  | .uninit =>
    let i := decInit d
    if i.1 then readData len i.2 else raiseDecryptionError [] i.2
  | .streaming | .draining | .drained => readData len d

/-- `DCLOSE` on the unit (R164). -/
def decClose (d : DecUnit) : DecUnit × Reply :=
  match d.dst with
  | .closed => (d, okReply 0)
  | .uninit | .streaming | .draining | .drained | .failed => ({ srcClose d with dst := .closed }, okReply 0)

/-- `DREAD len` (R163). -/
def execDread (len : Nat) (s : State) : Host.Outcome State Fault Refusal := .next (finishDec (decRead len s.dec) s)

/-- `DCLOSE` (R164). -/
def execDclose (s : State) : Host.Outcome State Fault Refusal := .next (finishDec (decClose s.dec) s)

end Sys2Proof.Machine
end

