-- ==== Sys2Proof/Machine/Encryptor.lean ====
section
/-! DEFINITION. The ENC unit: the IV step, `EWRITE`, `ECLOSE` (41_stream_encryptor.md R131 to R133). -/

namespace Sys2Proof.Machine

/-- `EncInit()`: random source, then sink, then CBC engine, in that order; `false` is `fail` (R131). -/
def encInit (e : EncUnit) : Bool × EncUnit :=
  match randomBytes e.blockSize e with
  | (none, e1) => (false, e1)
  | (some iv, e1) =>
    let w := sinkWrite iv e1
    if w.1 = e.blockSize then (true, { encCbcInit iv w.2 with elen := 0, est := .streaming })
    else (false, w.2)

/-- The block buffer is encrypted in place and offered to the sink; `false` when the sink took fewer than `B` bytes
(R132, R133). -/
def flushBlock (e : EncUnit) : Bool × EncUnit :=
  let c := cbcEncrypt e.ebuf e
  let w := sinkWrite c.1 { c.2 with ebuf := c.1 }
  (decide (w.1 = e.blockSize), w.2)

/-- One payload byte into the buffer: `ebuf[elen] <- b; elen <- elen + 1` (R132). -/
def pushByte (b : Byte) (e : EncUnit) : EncUnit := { e with ebuf := e.ebuf.set e.elen b, elen := e.elen + 1 }

/-- The loop of `EWRITE`: `count` bytes of this command have been taken so far (R132). -/
def writeLoop : List Byte → Nat → EncUnit → EncUnit × Reply
  | [], count, e => (e, okReply count)
  | b :: bs, count, e =>
    let e1 := pushByte b e
    if e1.elen = e1.blockSize then
      let f := flushBlock e1
      if f.1 then writeLoop bs (count + 1) { f.2 with elen := 0 }
      else raiseEncryptionError (count + 1) f.2
    else writeLoop bs (count + 1) e1

/-- `EWRITE` in `STREAMING`, or after its IV step. -/
def writePayload (len : Nat) (wdata : List Byte) (e : EncUnit) : EncUnit × Reply :=
  writeLoop (payload len wdata e) 0 (afterPayload len wdata e)

/-- `EWRITE len, payload` on the unit (R132). -/
def encWrite (len : Nat) (wdata : List Byte) (e : EncUnit) : EncUnit × Reply :=
  match e.est with
  | .closed => (e, invalidReply)
  | .failed => (e, encErrReply 0)
  | .uninit =>
    let i := encInit e
    if i.1 then writePayload len wdata i.2 else raiseEncryptionError 0 i.2
  | .streaming => writePayload len wdata e

/-- The padded final block, then `SinkClose()`, whatever the sink answered (R133). -/
def encFinish (e : EncUnit) : EncUnit × Reply :=
  let f := flushBlock { e with ebuf := (padAdd e.blockSize e.ebuf e.elen).1 }
  ({ sinkClose f.2 with elen := 0, est := .closed }, if f.1 then okReply 0 else encErrReply 0)

/-- `ECLOSE` of a stream that has failed or fails in the IV step: the sink is closed, nothing is written (R133). -/
def encAbandon (e : EncUnit) : EncUnit × Reply := ({ sinkClose e with est := .closed }, encErrReply 0)

/-- `ECLOSE` on the unit (R133). -/
def encClose (e : EncUnit) : EncUnit × Reply :=
  match e.est with
  | .closed => (e, invalidReply)
  | .failed => encAbandon e
  | .uninit =>
    let i := encInit e
    if i.1 then encFinish i.2 else encAbandon i.2
  | .streaming => encFinish e

/-- `EWRITE len` (R132). -/
def execEwrite (len : Nat) (s : State) : Host.Outcome State Fault Refusal := .next (finishEnc (encWrite len s.wdata s.enc) s)

/-- `ECLOSE` (R133). -/
def execEclose (s : State) : Host.Outcome State Fault Refusal := .next (finishEnc (encClose s.enc) s)

end Sys2Proof.Machine
end

