-- ==== Sys2Proof/Machine/Dispatch.lean ====
section
/-! DEFINITION. One arm per command (30_encoding.md R81). -/

namespace Sys2Proof.Machine

def exec (i : Instr) (s : State) : Host.Outcome State Fault Refusal :=
  match i with
  | .ewrite len => Sys2Proof.Machine.execEwrite len s
  | .eclose => Sys2Proof.Machine.execEclose s
  | .dread len => Sys2Proof.Machine.execDread len s
  | .dclose => Sys2Proof.Machine.execDclose s

end Sys2Proof.Machine
end

