-- ==== Sys2Proof/Machine/Reset.lean ====
section
/-! DEFINITION. The reset events and the platform's binding of a unit (70_reset_and_hazards.md R260 to R262). -/

namespace Sys2Proof.Machine

/-- `1 ≤ B ≤ 255` (R6). -/
def legalBlockSize (n : Nat) : Bool := decide (Config.minBlockSize ≤ n ∧ n ≤ Config.maxBlockSize)

/-- `RESET ENC`: `est` and `elen` get their reset values; `ebuf` and `echain` lose theirs, so they become free bytes
(R260, R261, log 5). No collaborator is called and the environment stays. -/
def resetEnc (e : EncUnit) : EncUnit :=
  { e with
    est := .uninit
    elen := 0
    ebuf := freeBytes .enc e.draws e.blockSize
    echain := freeBytes .enc (e.draws + e.blockSize) e.blockSize
    draws := e.draws + 2 * e.blockSize }

/-- `RESET DEC`: the registers with a reset value get it; `cur`, `la` and `dchain` lose theirs, so they become free
bytes (R260, R261, log 5). No collaborator is called and the environment stays. -/
def resetDec (d : DecUnit) : DecUnit :=
  { d with
    dst := .uninit
    cpos := 0
    clen := 0
    laLen := 0
    laValid := false
    cur := freeBytes .dec d.draws d.blockSize
    la := freeBytes .dec (d.draws + d.blockSize) d.blockSize
    dchain := freeBytes .dec (d.draws + 2 * d.blockSize) d.blockSize
    draws := d.draws + 3 * d.blockSize }

/-- The platform binds ENC to a block size, a keyed cipher, a random source and a fresh sink (R262, R43). -/
def bindEnc (b : EncBinding) (e : EncUnit) : EncUnit :=
  { e with blockSize := b.blockSize, cipher := b.cipher, rng := b.rng, accept := b.accept, snk := [], snkClosed := false }

/-- The platform binds DEC to a block size, a keyed cipher and a source, open and at its first byte (R262, R43). -/
def bindDec (b : DecBinding) (d : DecUnit) : DecUnit :=
  { d with blockSize := b.blockSize, cipher := b.cipher, src := b.src, spos := 0, srcClosed := false }

/-- A `RESET ENC` event, bound anew before reset is released or left bound as it was (R260, R262). -/
def execResetEnc (bind : Option EncBinding) (s : State) : Host.Outcome State Fault Refusal :=
  match bind with
  | none => .next { s with enc := resetEnc s.enc }
  | some b =>
    if legalBlockSize b.blockSize then .next { s with enc := resetEnc (bindEnc b s.enc) }
    else .fault .illegalBlockSize

/-- A `RESET DEC` event, bound anew before reset is released or left bound as it was (R260, R262). -/
def execResetDec (bind : Option DecBinding) (s : State) : Host.Outcome State Fault Refusal :=
  match bind with
  | none => .next { s with dec := resetDec s.dec }
  | some b =>
    if legalBlockSize b.blockSize then .next { s with dec := resetDec (bindDec b s.dec) }
    else .fault .illegalBlockSize

end Sys2Proof.Machine
end

