-- ==== Sys2Proof/Machine/Port.lean ====
section
/-! DEFINITION. The command port: taking one event that the host has presented (30_encoding.md R80, R83, R88,
70_reset_and_hazards.md R260, R264). -/

namespace Sys2Proof.Machine

/-- A reserved command word: `INVALID, 0`, nothing done, the payload discarded (R88, R234). -/
def execReserved (s : State) : Host.Outcome State Fault Refusal := .next (post invalidReply s)

/-- A command word with its payload: decoded, and executed to completion (R8, R83, R88). -/
def runCommand (w : Word) (bytes : List Byte) (s : State) : Host.Outcome State Fault Refusal :=
  match decode w with
  | .error _ => execReserved s
  | .ok i => exec i { s with wdata := bytes }

/-- One event: a command, or a reset of one unit. -/
def runEvent (ev : HostEvent) (s : State) : Host.Outcome State Fault Refusal :=
  match ev with
  | .command w bytes => runCommand w bytes s
  | .resetEnc b => execResetEnc b s
  | .resetDec b => execResetDec b s

/-- The next event is taken; with none presented the units wait, and nothing happens (R42, R235). -/
def takeEvent (s : State) : Host.Outcome State Fault Refusal :=
  match s.pending with
  | [] => .next s
  | ev :: rest => runEvent ev { s with pending := rest }

/-- A payload that makes a command word complete: `len` bytes for `EWRITE`, none for any other word (R83). -/
def placedPayload (w : Word) : List Byte :=
  match decode w with
  | .ok (.ewrite len) => List.replicate len 0#8
  | .ok .eclose => []
  | .ok (.dread _) => []
  | .ok .dclose => []
  | .error _ => []

/-- The host presents one more command, ahead of what is pending. -/
def presentFirst (w : Word) (bytes : List Byte) (s : State) : State :=
  { s with pending := .command w bytes :: s.pending }

end Sys2Proof.Machine
end

