-- ==== Sys2Proof/Machine/Step.lean ====
section
/-! DEFINITION. One step of the machine: one event of the host, executed to completion (00_scope.md R8). -/

namespace Sys2Proof.Machine

/-- One step. -/
def step (s : State) : Host.Outcome State Fault Refusal := takeEvent s

/-- The state in which the next step takes the command word of an opcode-table word, with the payload the word asks
for. There is no program memory: a command comes from the host on the command port (R65, R80, log 13). -/
def State.withFetchWord (s : State) (nbits w : Nat) : State :=
  presentFirst (tableWord nbits w) (placedPayload (tableWord nbits w)) s

end Sys2Proof.Machine
end

