-- ==== Sys2Proof/Machine/Stream.lean ====
section
/-! DEFINITION. The wire format and the whole-stream functions that the laws of the spec speak of (20_memory.md R53,
R54, 41_stream_encryptor.md R135, R136, 42_stream_decryptor.md R166), and the pseudo-instructions
(30_encoding.md R95 to R98). No command calls them. -/

namespace Sys2Proof.Machine

/-- The successive full `B`-byte blocks of `m`; a rest of fewer than `B` bytes is left out. -/
def fullBlocks (blockSize : Nat) (m : List Byte) : List (List Byte) :=
  (List.range (m.length / blockSize)).map fun i => (m.drop (blockSize * i)).take blockSize

/-- `c_i = E_K(Comb(m_i, c_{i-1}))`, from the chaining value `v` on (R135, R207). -/
def cbcEncryptAll (c : Cipher) (blockSize : Nat) : List Byte → List (List Byte) → List (List Byte)
  | _, [] => []
  | v, m :: ms =>
    let x := cipherE c blockSize (comb m v)
    x :: cbcEncryptAll c blockSize x ms

/-- `m_i = Comb(D_K(c_i), c_{i-1})`, from the chaining value `v` on (R166, R208). -/
def cbcDecryptAll (c : Cipher) (blockSize : Nat) : List Byte → List (List Byte) → List (List Byte)
  | _, [] => []
  | v, x :: xs => comb (cipherD c blockSize x) v :: cbcDecryptAll c blockSize x xs

/-- The chaining value after the ciphertext blocks `xs`: the last of them, or the IV (R25, R206 to R208). -/
def chainAfter (iv : List Byte) (xs : List (List Byte)) : List Byte := xs.getLastD iv

/-- `Enc(iv, p)` (R135). -/
def encStream (c : Cipher) (blockSize : Nat) (iv p : List Byte) : List Byte :=
  iv ++ (cbcEncryptAll c blockSize iv (fullBlocks blockSize (padMessage blockSize p))).flatten

/-- The total stream length `B + B * ceil((L + 1) / B)` for a plaintext of `L` bytes (R54, R136). -/
def streamLength (blockSize plaintextLength : Nat) : Nat := blockSize + blockSize * ((plaintextLength + blockSize) / blockSize)

/-- The decrypted blocks `m_1 .. m_q` of a source `s` (R166). -/
def plainBlocks (c : Cipher) (blockSize : Nat) (s : List Byte) : List (List Byte) :=
  cbcDecryptAll c blockSize (s.take blockSize) (fullBlocks blockSize (s.drop blockSize))

/-- The data a source `s` delivers in all and the final status: the table of R166. -/
def decStream (c : Cipher) (blockSize : Nat) (s : List Byte) : List Byte × Status :=
  let ms := plainBlocks c blockSize s
  if s.length < blockSize then ([], .decErr)
  else if s.length = blockSize then ([], .eos)
  else if (s.length - blockSize) % blockSize ≠ 0 then (ms.flatten, .decErr)
  else
    match unpadMessage blockSize ms.flatten with
    | some p => (p, .eos)
    | none => (ms.dropLast.flatten, .decErr)

/-- The calls that encrypt blocks and write them, from the chaining value `v` on (R212). -/
def blockCalls (c : Cipher) (blockSize : Nat) : List Byte → List (List Byte) → List Call
  | _, [] => []
  | v, m :: ms =>
    let x := cipherE c blockSize (comb m v)
    .cbcEncrypt m x :: .sinkWrite x blockSize :: blockCalls c blockSize x ms

/-- ENC's calls over a successful stream (R212). -/
def encCallSequence (c : Cipher) (blockSize : Nat) (iv p : List Byte) : List Call :=
  [.randomBytes blockSize (some iv), .sinkWrite iv blockSize, .cbcInit iv] ++
    blockCalls c blockSize iv (fullBlocks blockSize (padMessage blockSize p)) ++ [.sinkClose]

/-- The calls that decrypt blocks and pull the one that follows each, from the chaining value `v` on (R212). -/
def pullCalls (c : Cipher) (blockSize : Nat) : List Byte → List (List Byte) → List Call
  | _, [] => []
  | v, x :: xs =>
    .cbcDecrypt x (comb (cipherD c blockSize x) v) :: .srcRead blockSize (xs.headD []) :: pullCalls c blockSize x xs

/-- DEC's calls over a well-formed source `s` read to its end and closed (R212). -/
def decCallSequence (c : Cipher) (blockSize : Nat) (s : List Byte) : List Call :=
  let iv := s.take blockSize
  let xs := fullBlocks blockSize (s.drop blockSize)
  [.srcRead blockSize iv, .cbcInit iv, .srcRead blockSize (xs.headD [])] ++ pullCalls c blockSize iv xs ++ [.srcClose]

/-! ## Pseudo-instructions: what the host presents -/

/-- A command as the host presents it. -/
def command (i : Instr) (bytes : List Byte) : HostEvent := .command (encode i) bytes

/-- `EWRITE |bytes|, bytes`. -/
def ewriteOf (bytes : List Byte) : HostEvent := command (.ewrite bytes.length) bytes

/-- `EPUSH b` is `EWRITE 1, [b]` (R96). -/
def epush (b : Byte) : HostEvent := ewriteOf [b]

/-- `DPULL` is `DREAD 1` (R96). -/
def dpull : HostEvent := command (.dread 1) []

/-- `ENCRYPT p`, `p` split into any chunks, none included: the writes, then `ECLOSE` (R97). -/
def encryptEvents (chunks : List (List Byte)) : List HostEvent := chunks.map ewriteOf ++ [command .eclose []]

/-- `DECRYPT`, the reads of any sizes, then `DCLOSE` (R98). -/
def decryptEvents (sizes : List Nat) : List HostEvent :=
  (sizes.map fun n => command (.dread n) []) ++ [command .dclose []]

/-- A byte as the notation writes it, `0x48` (R95). -/
def byteText (b : Byte) : String := "0x" ++ String.ofList [Nat.digitChar (b.toNat / 16), Nat.digitChar (b.toNat % 16)]

/-- A command in the notation of R95, its payload as a byte list. -/
def asmText (i : Instr) (bytes : List Byte) : String :=
  match i with
  | .ewrite len => "EWRITE " ++ toString len ++ ", [" ++ ", ".intercalate (bytes.map byteText) ++ "]"
  | .eclose => "ECLOSE"
  | .dread len => "DREAD " ++ toString len
  | .dclose => "DCLOSE"

end Sys2Proof.Machine
end

