-- ==== Sys2Proof/Safety.lean ====
section
/-! DEFINITION. The terms claims are made in: the invariants between commands (10_state.md R25, R35), what a stream has
brought a unit to (R25, R35, 41_stream_encryptor.md R135, 42_stream_decryptor.md R166), the contracts of the
collaborators, agreement up to registers that hold no value (R41), and the outcome of a run (70 R263). -/

namespace Sys2Proof.Machine

/-! ## Invariants between commands -/

/-- ENC between commands (R22 to R25): buffers of `B` bytes, `elen` in range, nothing buffered before the IV step, room
for one more byte while streaming. -/
structure EncUnit.Inv (e : EncUnit) : Prop where
  legal : legalBlockSize e.blockSize = true
  ebufLength : e.ebuf.length = e.blockSize
  echainLength : e.echain.length = e.blockSize
  fill : e.elen ≤ e.blockSize
  uninitEmpty : e.est = .uninit → e.elen = 0
  streamingRoom : e.est = .streaming → e.elen < e.blockSize

/-- DEC between commands (R31 to R35): buffers of `B` bytes, indices in range, and what each state says about the
pending tail, the read-ahead buffer and the source. -/
structure DecUnit.Inv (d : DecUnit) : Prop where
  legal : legalBlockSize d.blockSize = true
  curLength : d.cur.length = d.blockSize
  laLength : d.la.length = d.blockSize
  dchainLength : d.dchain.length = d.blockSize
  tail : d.cpos ≤ d.clen
  held : d.clen ≤ d.blockSize
  ahead : d.laLen ≤ d.blockSize
  position : d.spos ≤ d.src.length
  uninit : d.dst = .uninit → d.cpos = 0 ∧ d.clen = 0 ∧ d.laValid = false
  streaming : d.dst = .streaming →
    (d.clen = 0 ∧ d.laValid = false) ∨ (d.clen = d.blockSize ∧ d.laValid = true ∧ 1 ≤ d.laLen)
  shortAhead : d.dst = .streaming → d.laValid = true → d.laLen < d.blockSize → d.spos = d.src.length
  draining : d.dst = .draining → d.cpos < d.clen ∧ d.laValid = false ∧ d.spos = d.src.length
  drained : d.dst = .drained → d.cpos = d.clen ∧ d.laValid = false ∧ d.spos = d.src.length

/-- The machine between commands: both units, and no payload left on WDATA (R83). -/
structure State.Inv (s : State) : Prop where
  enc : s.enc.Inv
  dec : s.dec.Inv
  noPayload : s.wdata = []

/-! ## Contracts of the collaborators -/

/-- The random source's next answer is `iv`, of `B` bytes (R201). -/
def randomAnswers (iv : List Byte) (e : EncUnit) : Prop :=
  iv.length = e.blockSize ∧ ∃ rest, e.rng = some iv :: rest

/-- The random source's next answer is `fail` (R201). -/
def randomFails (e : EncUnit) : Prop := ∃ rest, e.rng = none :: rest

/-- The next `k` sink writes of a block are accepted whole (R202). -/
def sinkAccepts (k : Nat) (e : EncUnit) : Prop :=
  ∃ ok rest, e.accept = ok ++ rest ∧ ok.length = k ∧ ∀ a ∈ ok, e.blockSize ≤ a

/-- After `k` sink writes accepted whole, the next one accepts only `w` bytes, fewer than a block (R202). -/
def sinkRefusesAfter (k w : Nat) (e : EncUnit) : Prop :=
  ∃ ok rest, e.accept = ok ++ w :: rest ∧ ok.length = k ∧ (∀ a ∈ ok, e.blockSize ≤ a) ∧ w < e.blockSize

/-- ENC as the platform hands it over (R42, R262): reset, a legal block size, a fresh sink. -/
structure EncUnit.Fresh (e : EncUnit) : Prop where
  inv : e.Inv
  uninit : e.est = .uninit
  emptySink : e.snk = []
  openSink : e.snkClosed = false

/-- DEC as the platform hands it over (R42, R262): reset, a legal block size, a source at its first byte. -/
structure DecUnit.Fresh (d : DecUnit) : Prop where
  inv : d.Inv
  uninit : d.dst = .uninit
  start : d.spos = 0
  openSource : d.srcClosed = false

/-! ## What a stream has brought a unit to -/

/-- ENC has drawn `iv` and accepted the payload `p` since reset (R25 (b), R135): the sink holds the IV and the
ciphertext of the full blocks of `p`, the buffer the rest of `p`. -/
structure EncUnit.Tracks (iv p : List Byte) (e : EncUnit) : Prop where
  streaming : e.est = .streaming
  ivLength : iv.length = e.blockSize
  sink : e.snk = iv ++ (cbcEncryptAll e.cipher e.blockSize iv (fullBlocks e.blockSize p)).flatten
  chain : e.echain = chainAfter iv (cbcEncryptAll e.cipher e.blockSize iv (fullBlocks e.blockSize p))
  fill : e.elen = p.length % e.blockSize
  residue : e.ebuf.take e.elen = p.drop (e.blockSize * (p.length / e.blockSize))

/-- The pending tail `cur[cpos..clen)` (R32). -/
def DecUnit.tailBytes (d : DecUnit) : List Byte := slice d.cur d.cpos d.clen

/-- DEC has delivered `out` since reset, when no block of the stream is processed yet or `m` of them are, all interior
(R35 (b), R62): the position of the source, the chaining value, the read-ahead buffer, and the bytes delivered and
pending. -/
structure DecUnit.Midway (m : Nat) (out : List Byte) (d : DecUnit) : Prop where
  ivThere : d.blockSize ≤ d.src.length
  blocksThere : d.blockSize + d.blockSize * m ≤ d.src.length
  ahead : d.laValid = true ↔ 0 < m
  position : d.spos = d.blockSize + d.blockSize * m + (if d.laValid then d.laLen else 0)
  aheadBytes : d.laValid = true →
    d.la.take d.laLen = (d.src.drop (d.blockSize + d.blockSize * m)).take d.blockSize
  chain : d.dchain = (d.src.drop (d.blockSize * m)).take d.blockSize
  delivered : out ++ d.tailBytes = ((plainBlocks d.cipher d.blockSize d.src).take m).flatten

/-- DEC has delivered `out` since reset (R35, R166). -/
def DecUnit.Tracks (out : List Byte) (d : DecUnit) : Prop :=
  match d.dst with
  | .uninit => out = [] ∧ d.spos = 0
  | .streaming => ∃ m, d.Midway m out
  | .draining => decStream d.cipher d.blockSize d.src = (out ++ d.tailBytes, .eos)
  | .drained => decStream d.cipher d.blockSize d.src = (out, .eos)
  | .failed => decStream d.cipher d.blockSize d.src = (out, .decErr)
  | .closed => out <+: (decStream d.cipher d.blockSize d.src).1

/-! ## Agreement up to registers that hold no value (R41, R261) -/

/-- Two ENC units that differ at most in register bytes that hold no value: everything but `ebuf` and `echain` is the
same, and while streaming so are the residue and the chaining value. -/
structure EncUnit.Agree (e f : EncUnit) : Prop where
  others : { e with ebuf := [], echain := [] } = { f with ebuf := [], echain := [] }
  residue : e.est = .streaming → e.ebuf.take e.elen = f.ebuf.take e.elen
  chain : e.est = .streaming → e.echain = f.echain

/-- Two DEC units that differ at most in register bytes that hold no value or are used up: everything but `cur`, `la`
and `dchain` is the same, and so are the pending tail, a valid read-ahead block and, while streaming, the chaining
value. -/
structure DecUnit.Agree (d f : DecUnit) : Prop where
  others : { d with cur := [], la := [], dchain := [] } = { f with cur := [], la := [], dchain := [] }
  tail : d.dst = .streaming ∨ d.dst = .draining → d.tailBytes = f.tailBytes
  ahead : d.dst = .streaming → d.laValid = true → d.la.take d.laLen = f.la.take d.laLen
  chain : d.dst = .streaming → d.dchain = f.dchain

/-! ## Calls and runs -/

/-- The bytes the sink accepted in a sequence of calls, in order (R60). -/
def acceptedBytes (cs : List Call) : List Byte :=
  cs.flatMap fun c =>
    match c with
    | .sinkWrite s w => s.take w
    | .randomBytes _ _ | .sinkClose | .cbcInit _ | .cbcEncrypt _ _ | .cbcDecrypt _ _ | .srcRead _ _ | .srcClose => []

/-- The bytes the source gave in a sequence of calls, in order (R58). -/
def sourcedBytes (cs : List Call) : List Byte :=
  cs.flatMap fun c =>
    match c with
    | .srcRead _ t => t
    | .randomBytes _ _ | .sinkWrite _ _ | .sinkClose | .cbcInit _ | .cbcEncrypt _ _ | .cbcDecrypt _ _ | .srcClose => []

/-- A call ENC may make: the random source for `B` bytes, the sink and the CBC engine with whole blocks (R57, R137,
R201, R207). -/
def encCallOk (blockSize : Nat) : Call → Prop
  | .randomBytes n answer => n = blockSize ∧ ∀ bs, answer = some bs → bs.length = blockSize
  | .sinkWrite s w => s.length = blockSize ∧ w ≤ blockSize
  | .sinkClose => True
  | .cbcInit iv => iv.length = blockSize
  | .cbcEncrypt m c => m.length = blockSize ∧ c.length = blockSize
  | .cbcDecrypt _ _ | .srcRead _ _ | .srcClose => False

/-- A call DEC may make: the source for `B` bytes, the CBC engine with whole blocks only (R57, R208, R209). -/
def decCallOk (blockSize : Nat) : Call → Prop
  | .srcRead n t => n = blockSize ∧ t.length ≤ blockSize
  | .srcClose => True
  | .cbcInit iv => iv.length = blockSize
  | .cbcDecrypt c m => c.length = blockSize ∧ m.length = blockSize
  | .randomBytes _ _ | .sinkWrite _ _ | .sinkClose | .cbcEncrypt _ _ => False

/-- A call that failed: the random source answered `fail`, or the sink took fewer bytes than it was offered (R201,
R202). -/
def callFailed : Call → Bool
  | .randomBytes _ answer => answer.isNone
  | .sinkWrite s w => decide (w < s.length)
  | .sinkClose | .cbcInit _ | .cbcEncrypt _ _ | .cbcDecrypt _ _ | .srcRead _ _ | .srcClose => false

/-- A response that leaves a run successful: `OK` or `EOS` (R263). -/
def cleanResponse (r : Response) : Bool :=
  statusField r.word == statusCode .ok || statusField r.word == statusCode .eos

/-- A run whose responses are all `OK` or `EOS` (R263, 93_implementation_defined.md U1 to U3). -/
def cleanRun (rs : List Response) : Bool := rs.all cleanResponse

end Sys2Proof.Machine
end

