-- ==== Sys2Proof/Certificates/Slice0/Obligations.lean ====
section
/-! DEFINITION. The statements for the provers. Each docstring names the rule of spec/ it formalises. A statement about
a next state is written with `exec` or `step` answering it. -/

open Sys2Proof
open Sys2Proof.Machine

/-! ## Encoding -/

/-- R80, R81, R88: every command with a 24-bit `len` is read back from its own command word, with `len` at every value
the field holds. -/
def Obligations.DecodeOfEncode : Prop :=
  ∀ i : Instr, i.wellFormed = true → decode (encode i) = .ok i

/-- R80, R81, R88: a word that decodes is the command word of what it decodes to, so no two words mean one command and
no bit of a word is dropped. -/
def Obligations.EncodeOfDecode : Prop :=
  ∀ (w : Word) (i : Instr), decode w = .ok i → i.wellFormed = true ∧ encode i = w

/-- R88: the reserved words are exactly those whose opcode is none of the four, and those of a close whose `len` is
not 0. -/
def Obligations.ReservedWords : Prop :=
  ∀ w : Word, (∃ r, decode w = .error r) ↔
    ((opcodeField w ≠ 0x10#8 ∧ opcodeField w ≠ 0x11#8 ∧ opcodeField w ≠ 0x20#8 ∧ opcodeField w ≠ 0x21#8) ∨
      ((opcodeField w = 0x11#8 ∨ opcodeField w = 0x21#8) ∧ lenField w ≠ 0))

/-- R81, R88 on words written out from the tables T-C1 to T-C13 of 95_test_vectors.md. -/
def Obligations.DecodeVectors : Prop :=
  decode 0x10000005#32 = .ok (.ewrite 5) ∧
  decode 0x10FFFFFF#32 = .ok (.ewrite (2 ^ 24 - 1)) ∧
  decode 0x11000000#32 = .ok .eclose ∧
  decode 0x20000010#32 = .ok (.dread 16) ∧
  decode 0x21000000#32 = .ok .dclose ∧
  decode 0x11000001#32 = .error (.closeWithLen 0x11#8 1) ∧
  decode 0x21000005#32 = .error (.closeWithLen 0x21#8 5) ∧
  decode 0x12000000#32 = .error (.opcode 0x12#8) ∧
  decode 0xFFFFFFFF#32 = .error (.opcode 0xFF#8)

/-- R84, R85: the response word carries the status code in bits 31..28, zero in 27..24 and the count in 23..0. -/
def Obligations.ResponseWordFields : Prop :=
  ∀ (st : Status) (count : Nat), count < 2 ^ 24 →
    statusField (responseWord st count) = statusCode st ∧
    zeroField (responseWord st count) = 0#4 ∧
    countField (responseWord st count) = count

/-! ## The step -/

/-- R8, R80, R83: a pending command whose word decodes to `i` is taken off the queue, its payload stands on WDATA, and
the step is `exec i`. -/
def Obligations.StepRunsDecodedCommand : Prop :=
  ∀ (s : State) (w : Word) (bytes : List Byte) (rest : List HostEvent) (i : Instr),
    s.pending = .command w bytes :: rest → decode w = .ok i →
    step s = exec i { s with pending := rest, wdata := bytes }

/-- R88: a word whose opcode is none of the four, or that is a close with `len` not 0, is reserved: it is answered
`INVALID`, count 0, no data; neither unit changes, so no collaborator is called (each unit holds its call record), and
the payload is discarded (R234). -/
def Obligations.ReservedWordAnswersInvalid : Prop :=
  ∀ (w : Word),
    (opcodeField w ≠ 0x10#8 ∧ opcodeField w ≠ 0x11#8 ∧ opcodeField w ≠ 0x20#8 ∧ opcodeField w ≠ 0x21#8) ∨
      ((opcodeField w = 0x11#8 ∨ opcodeField w = 0x21#8) ∧ lenField w ≠ 0) →
    (∃ r, decode w = .error r) ∧
    ∀ (s : State) (bytes : List Byte) (rest : List HostEvent), s.pending = .command w bytes :: rest →
      step s = .next { s with
        pending := rest
        wdata := []
        rspLog := s.rspLog ++ [{ word := 0xF0000000#32, data := [] }] }

/-- R84, R87: every command, reserved or not, in every state, ends in a next state with exactly one more response, whose
word has a status code in bits 31..28 and zero in bits 27..24. A command whose opcode is that of `DREAD` returns data, as
many bytes as bits 23..0 count; any other command word returns none. -/
def Obligations.OneResponsePerCommand : Prop :=
  ∀ (s : State) (w : Word) (bytes : List Byte) (rest : List HostEvent),
    s.pending = .command w bytes :: rest →
    ∃ (t : State) (r : Response), step s = .next t ∧ t.rspLog = s.rspLog ++ [r] ∧ t.pending = rest ∧ t.wdata = [] ∧
      (∃ st, statusField r.word = statusCode st) ∧ zeroField r.word = 0#4 ∧
      (opcodeField w = 0x20#8 → countField r.word = r.data.length) ∧
      (opcodeField w ≠ 0x20#8 → r.data = [])

/-- When the machine stops. A step answers a fault exactly when the next event binds a unit to a block size outside
`1..255` (R6, log 2), it never answers a refusal, and with nothing presented the units wait and nothing changes (R42,
R235). -/
def Obligations.OnlyIllegalBindingStops : Prop :=
  ∀ s : State,
    (∀ r, step s ≠ .refused r) ∧ (s.pending = [] → step s = .next s) ∧
    ((∃ f, step s = .fault f) ↔
      ∃ rest, (∃ b : EncBinding, s.pending = .resetEnc (some b) :: rest ∧ ¬ (1 ≤ b.blockSize ∧ b.blockSize ≤ 255)) ∨
        (∃ b : DecBinding, s.pending = .resetDec (some b) :: rest ∧ ¬ (1 ≤ b.blockSize ∧ b.blockSize ≤ 255)))

/-! ## Reset -/

/-- R42, R43: after reset both units are `UNINIT`, every count and `la_valid` are 0, the sink is empty and open, the
source is open at position 0; the block size is that of the reference instance (R6), which is the model's choice
(log 2). -/
def Obligations.ResetValues : Prop :=
  State.reset.enc.est = .uninit ∧ State.reset.enc.elen = 0 ∧ State.reset.enc.snk = [] ∧ kpos State.reset.enc = 0 ∧
  State.reset.enc.snkClosed = false ∧ State.reset.dec.dst = .uninit ∧ State.reset.dec.cpos = 0 ∧
  State.reset.dec.clen = 0 ∧ State.reset.dec.laLen = 0 ∧ State.reset.dec.laValid = false ∧ State.reset.dec.spos = 0 ∧
  State.reset.dec.srcClosed = false ∧ State.reset.enc.blockSize = 16 ∧ State.reset.dec.blockSize = 16

/-- R260: a reset event without a new binding, in every state. `RESET ENC` makes `est` `UNINIT` and `elen` 0; `RESET DEC`
makes `dst` `UNINIT` and `cpos`, `clen`, `la_len`, `la_valid` 0. No collaborator is called, no response is given, and the
other unit stays. Nothing is said of `ebuf`, `echain`, `cur`, `la` and `dchain`, which lose their values (R260; free bytes
in the model, log 5), nor of the draw counter (log 9). That the block size, the cipher, the schedules, and the sink or
source with its closed flag stay bound is the MODEL'S CHOICE (log 12), not R260's. -/
def Obligations.ResetEffects : Prop :=
  (∀ (s : State) (rest : List HostEvent), s.pending = .resetEnc none :: rest →
    ∃ t, step s = .next t ∧ t.enc.est = .uninit ∧ t.enc.elen = 0 ∧ t.enc.calls = s.enc.calls ∧ t.enc.snk = s.enc.snk ∧
      t.enc.snkClosed = s.enc.snkClosed ∧ t.enc.rng = s.enc.rng ∧ t.enc.accept = s.enc.accept ∧
      t.enc.blockSize = s.enc.blockSize ∧ t.enc.cipher = s.enc.cipher ∧ t.dec = s.dec ∧ t.rspLog = s.rspLog ∧
      t.wdata = s.wdata ∧ t.pending = rest) ∧
  (∀ (s : State) (rest : List HostEvent), s.pending = .resetDec none :: rest →
    ∃ t, step s = .next t ∧ t.dec.dst = .uninit ∧ t.dec.cpos = 0 ∧ t.dec.clen = 0 ∧ t.dec.laLen = 0 ∧
      t.dec.laValid = false ∧ t.dec.calls = s.dec.calls ∧ t.dec.src = s.dec.src ∧ t.dec.spos = s.dec.spos ∧
      t.dec.srcClosed = s.dec.srcClosed ∧ t.dec.blockSize = s.dec.blockSize ∧ t.dec.cipher = s.dec.cipher ∧
      t.enc = s.enc ∧ t.rspLog = s.rspLog ∧ t.wdata = s.wdata ∧ t.pending = rest)

/-- R262: a reset with a legal binding hands the unit over fresh and bound as the platform said, whatever state it was
in. -/
def Obligations.BoundResetIsFresh : Prop :=
  (∀ (s : State) (rest : List HostEvent) (b : EncBinding), s.pending = .resetEnc (some b) :: rest →
    1 ≤ b.blockSize → b.blockSize ≤ 255 →
    ∃ t, step s = .next t ∧ t.enc.Fresh ∧ t.enc.blockSize = b.blockSize ∧ t.enc.cipher = b.cipher ∧
      t.enc.rng = b.rng ∧ t.enc.accept = b.accept ∧ t.enc.calls = s.enc.calls ∧ t.dec = s.dec ∧ t.rspLog = s.rspLog) ∧
  (∀ (s : State) (rest : List HostEvent) (b : DecBinding), s.pending = .resetDec (some b) :: rest →
    1 ≤ b.blockSize → b.blockSize ≤ 255 →
    ∃ t, step s = .next t ∧ t.dec.Fresh ∧ t.dec.blockSize = b.blockSize ∧ t.dec.cipher = b.cipher ∧
      t.dec.src = b.src ∧ t.dec.calls = s.dec.calls ∧ t.enc = s.enc ∧ t.rspLog = s.rspLog)

/-! ## PaddingCodec -/

/-- R111, R112: `PadAdd` keeps the first `u` bytes, makes every later byte of the block the pad count `B - u`, and
returns that count, which is in `1..B`. -/
def Obligations.PadAddFillsWithCount : Prop :=
  ∀ (B u : Nat) (block : List Byte), B ≤ 255 → block.length = B → u < B →
    (padAdd B block u).2 = B - u ∧ 1 ≤ (padAdd B block u).2 ∧ (padAdd B block u).2 ≤ B ∧
    (padAdd B block u).1.length = B ∧
    (∀ i, i < u → (padAdd B block u).1[i]? = block[i]?) ∧
    (∀ i, u ≤ i → i < B → ((padAdd B block u).1[i]?).map BitVec.toNat = some (B - u))

/-- R113, R114, R115: `PadRemove` fails exactly when the last byte exceeds the length, keeps all but that many bytes
otherwise, whatever the other bytes are, and returns an empty block unchanged. -/
def Obligations.PadRemoveByLastByte : Prop :=
  padRemove [] = some [] ∧
  ∀ (front : List Byte) (k : Byte),
    (k.toNat > front.length + 1 → padRemove (front ++ [k]) = none) ∧
    (k.toNat ≤ front.length + 1 →
      padRemove (front ++ [k]) = some ((front ++ [k]).take (front.length + 1 - k.toNat)))

/-- R116: stripping undoes padding, for every used length and every block. The converse does not hold: there is a block
that `PadRemove` accepts and `PadAdd` never produces. -/
def Obligations.PadRemoveInvertsPadAdd : Prop :=
  ∀ B : Nat, 1 ≤ B → B ≤ 255 →
    (∀ (u : Nat) (block : List Byte), block.length = B → u < B →
      padRemove (padAdd B block u).1 = some (block.take u)) ∧
    ∃ other : List Byte, other.length = B ∧ padRemove other ≠ none ∧
      ∀ (u : Nat) (block : List Byte), block.length = B → u < B → (padAdd B block u).1 ≠ other

/-- R118, R119: a padded message is a positive multiple of `B` long, between 1 and `B` bytes longer than the message,
and `Unpad` gives the message back. -/
def Obligations.UnpadInvertsPad : Prop :=
  ∀ (B : Nat) (p : List Byte), 1 ≤ B → B ≤ 255 →
    (padMessage B p).length = B * (p.length / B + 1) ∧
    p.length < (padMessage B p).length ∧ (padMessage B p).length ≤ p.length + B ∧
    unpadMessage B (padMessage B p) = some p

/-! ## The block cipher -/

/-- R204, R205: decryption inverts encryption on blocks, and combining twice with the same block is the identity, for
every block size and every cipher the engine may hold. -/
def Obligations.CipherAndCombInvert : Prop :=
  ∀ (c : Cipher) (x v : List Byte), x.length = v.length →
    cipherD c x.length (cipherE c x.length x) = x ∧ (cipherE c x.length x).length = x.length ∧ comb (comb x v) v = x

/-! ## EWRITE -/

/-- R131, R132: while streaming, and when the sink accepts every block the payload completes, `EWRITE` completes: it
answers `OK, len`, the sink and the buffer hold what the longer payload calls for, and nothing else but the sink's
answers is used up. -/
def Obligations.EwriteStreams : Prop :=
  ∀ (s : State) (iv p : List Byte) (len : Nat),
    s.enc.Inv → s.enc.Tracks iv p → s.wdata.length = len → len < 2 ^ 24 →
    sinkAccepts ((p.length % s.enc.blockSize + len) / s.enc.blockSize) s.enc →
    ∃ t, exec (.ewrite len) s = .next t ∧ t.enc.Inv ∧ t.enc.Tracks iv (p ++ s.wdata) ∧
      t.rspLog = s.rspLog ++ [{ word := responseWord .ok len, data := [] }] ∧
      t.enc.accept = s.enc.accept.drop ((p.length % s.enc.blockSize + len) / s.enc.blockSize) ∧
      t.enc.rng = s.enc.rng ∧ t.enc.blockSize = s.enc.blockSize ∧ t.enc.cipher = s.enc.cipher ∧
      t.enc.snkClosed = s.enc.snkClosed ∧ t.dec = s.dec ∧ t.pending = s.pending ∧ t.wdata = []

/-- R131, R132: the first `EWRITE`, whatever its length, draws the IV, writes it before any ciphertext, and then takes
its payload. -/
def Obligations.EwriteFirstRunsIvStep : Prop :=
  ∀ (s : State) (iv : List Byte) (len : Nat),
    s.enc.Fresh → randomAnswers iv s.enc → s.wdata.length = len → len < 2 ^ 24 →
    sinkAccepts (1 + len / s.enc.blockSize) s.enc →
    ∃ t, exec (.ewrite len) s = .next t ∧ t.enc.Inv ∧ t.enc.Tracks iv s.wdata ∧
      t.rspLog = s.rspLog ++ [{ word := responseWord .ok len, data := [] }] ∧
      t.enc.rng = s.enc.rng.drop 1 ∧ t.enc.accept = s.enc.accept.drop (1 + len / s.enc.blockSize) ∧
      t.enc.blockSize = s.enc.blockSize ∧ t.enc.cipher = s.enc.cipher ∧ t.enc.snkClosed = false ∧
      t.dec = s.dec ∧ t.pending = s.pending ∧ t.wdata = []

/-- R132 corner case (b), R63: an `EWRITE` that fills no block leaves the sink as it is, makes no collaborator call, and
appends its bytes to the residue. -/
def Obligations.EwritePartialBlockOnlyBuffers : Prop :=
  ∀ (s : State) (len : Nat),
    s.enc.Inv → s.enc.est = .streaming → s.wdata.length = len → s.enc.elen + len < s.enc.blockSize →
    ∃ t, exec (.ewrite len) s = .next t ∧
      t.rspLog = s.rspLog ++ [{ word := responseWord .ok len, data := [] }] ∧
      t.enc.elen = s.enc.elen + len ∧ t.enc.ebuf.take t.enc.elen = s.enc.ebuf.take s.enc.elen ++ s.wdata ∧
      { t.enc with ebuf := s.enc.ebuf, elen := s.enc.elen } = s.enc ∧ t.dec = s.dec

/-- R131, R132, R231: when the random source fails in the first `EWRITE`, the unit is `FAILED`, the answer is
`ENC_ERR, 0`, the sink has not been touched and nothing is buffered. -/
def Obligations.EwriteRandomFailure : Prop :=
  ∀ (s : State) (len : Nat), s.enc.est = .uninit → randomFails s.enc →
    ∃ t, exec (.ewrite len) s = .next t ∧
      t.rspLog = s.rspLog ++ [{ word := 0x20000000#32, data := [] }] ∧
      t.enc = { s.enc with
        est := .failed
        rng := s.enc.rng.drop 1
        calls := s.enc.calls ++ [.randomBytes s.enc.blockSize none] } ∧
      t.dec = s.dec ∧ t.pending = s.pending ∧ t.wdata = []

/-- R131, R132, R202, R231: when the sink takes only `w < B` bytes of the IV, the unit is `FAILED`, the answer is
`ENC_ERR, 0`, those `w` bytes stay in the sink, the CBC engine is not called and nothing is buffered. -/
def Obligations.EwriteIvWriteFailure : Prop :=
  ∀ (s : State) (iv : List Byte) (w len : Nat),
    s.enc.Inv → s.enc.est = .uninit → randomAnswers iv s.enc → sinkRefusesAfter 0 w s.enc →
    ∃ t, exec (.ewrite len) s = .next t ∧
      t.rspLog = s.rspLog ++ [{ word := 0x20000000#32, data := [] }] ∧
      t.enc = { s.enc with
        est := .failed
        rng := s.enc.rng.drop 1
        accept := s.enc.accept.drop 1
        snk := s.enc.snk ++ iv.take w
        calls := s.enc.calls ++ [.randomBytes s.enc.blockSize (some iv), .sinkWrite iv w] } ∧
      t.dec = s.dec ∧ t.pending = s.pending ∧ t.wdata = []

/-- R132, R231, R237, R238: when the sink takes `k` blocks of this command and then only `w < B` bytes of the next, the
unit is `FAILED`, the count is the payload bytes taken so far, the failing block's included, the accepted bytes stay in
the sink, and the remaining payload is not taken. -/
def Obligations.EwriteBlockWriteFailure : Prop :=
  ∀ (s : State) (iv p : List Byte) (len k w : Nat),
    s.enc.Inv → s.enc.Tracks iv p → s.wdata.length = len → len < 2 ^ 24 → sinkRefusesAfter k w s.enc →
    s.enc.blockSize * (k + 1) ≤ p.length % s.enc.blockSize + len →
    ∃ t, exec (.ewrite len) s = .next t ∧ t.enc.est = .failed ∧ t.enc.elen = s.enc.blockSize ∧
      t.rspLog = s.rspLog ++
        [{ word := responseWord .encErr (s.enc.blockSize * (k + 1) - p.length % s.enc.blockSize), data := [] }] ∧
      (∃ done last, done.length = p.length / s.enc.blockSize + k ∧
        cbcEncryptAll s.enc.cipher s.enc.blockSize iv
          (fullBlocks s.enc.blockSize ((p ++ s.wdata).take (s.enc.blockSize * (p.length / s.enc.blockSize + k + 1)))) =
            done ++ [last] ∧
        t.enc.snk = iv ++ done.flatten ++ last.take w ∧ t.enc.ebuf = last ∧ t.enc.echain = last) ∧
      t.enc.accept = s.enc.accept.drop (k + 1) ∧ t.enc.rng = s.enc.rng ∧ t.dec = s.dec ∧ t.pending = s.pending ∧
      t.wdata = []

/-- R132, R234, R240: `EWRITE` in `CLOSED` answers `INVALID, 0` and in `FAILED` repeats `ENC_ERR, 0`; in both nothing
changes and no collaborator is called. -/
def Obligations.EwriteTerminalStates : Prop :=
  ∀ (s : State) (len : Nat),
    (s.enc.est = .closed → exec (.ewrite len) s =
      .next { s with wdata := [], rspLog := s.rspLog ++ [{ word := 0xF0000000#32, data := [] }] }) ∧
    (s.enc.est = .failed → exec (.ewrite len) s =
      .next { s with wdata := [], rspLog := s.rspLog ++ [{ word := 0x20000000#32, data := [] }] })

/-- R134: chunk independence. Two `EWRITE`s in a row leave ENC, its CBC engine, its sink and its call record as the one
`EWRITE` of the joined payload leaves them, whatever the collaborators answer, empty chunks included, in every state. When
the first answers `OK` the single one answers with the second's status and the counts add up; otherwise it answers as
the first does. -/
def Obligations.EwriteChunkIndependence : Prop :=
  ∀ (s t u : State) (a b : List Byte), (a ++ b).length < 2 ^ 24 →
    exec (.ewrite a.length) { s with wdata := a } = .next t →
    exec (.ewrite b.length) { t with wdata := b } = .next u →
    ∃ (v : State) (ra rb rv : Response),
      exec (.ewrite (a ++ b).length) { s with wdata := a ++ b } = .next v ∧ v.enc = u.enc ∧ v.dec = u.dec ∧
      t.rspLog = s.rspLog ++ [ra] ∧ u.rspLog = s.rspLog ++ [ra, rb] ∧ v.rspLog = s.rspLog ++ [rv] ∧
      (statusField ra.word = statusCode .ok →
        statusField rv.word = statusField rb.word ∧
          countField rv.word = countField ra.word + countField rb.word) ∧
      (statusField ra.word ≠ statusCode .ok → rv = ra)

/-- R96: pushing the bytes of a non-empty payload one by one with `EPUSH` leaves ENC, its sink and its call record as the
one `EWRITE` leaves them, in every state. -/
def Obligations.EpushSequenceIsEwrite : Prop :=
  ∀ (s : State) (p : List Byte) (rest : List HostEvent), p ≠ [] → p.length < 2 ^ 24 →
    ∃ t u, core.run p.length { s with pending := p.map epush ++ rest } = .next t ∧
      core.run 1 { s with pending := ewriteOf p :: rest } = .next u ∧
      t.enc = u.enc ∧ t.dec = u.dec ∧ t.pending = u.pending

/-! ## ECLOSE -/

/-- R133: `ECLOSE` while streaming, the sink accepting one block, completes the stream: exactly one padded block is
encrypted and written, the sink is closed, and the answer is `OK, 0`. -/
def Obligations.EcloseCompletesStream : Prop :=
  ∀ (s : State) (iv p : List Byte),
    s.enc.Inv → s.enc.Tracks iv p → sinkAccepts 1 s.enc →
    ∃ (t : State) (c : List Byte), exec .eclose s = .next t ∧
      c = cipherE s.enc.cipher s.enc.blockSize (comb (padAdd s.enc.blockSize s.enc.ebuf s.enc.elen).1 s.enc.echain) ∧
      t.enc = { s.enc with
        est := .closed
        ebuf := c
        elen := 0
        echain := c
        accept := s.enc.accept.drop 1
        snk := s.enc.snk ++ c
        snkClosed := true
        calls := s.enc.calls ++
          [.cbcEncrypt (padAdd s.enc.blockSize s.enc.ebuf s.enc.elen).1 c, .sinkWrite c s.enc.blockSize, .sinkClose] } ∧
      t.enc.snk = encStream s.enc.cipher s.enc.blockSize iv p ∧
      t.rspLog = s.rspLog ++ [{ word := 0x00000000#32, data := [] }] ∧ t.dec = s.dec ∧ t.pending = s.pending ∧
      t.wdata = []

/-- R133, R131: `ECLOSE` before any `EWRITE` runs the IV step first and writes the stream of the empty plaintext, `2B`
bytes. -/
def Obligations.EcloseOfEmptyPlaintext : Prop :=
  ∀ (s : State) (iv : List Byte),
    s.enc.Fresh → randomAnswers iv s.enc → sinkAccepts 2 s.enc →
    ∃ t, exec .eclose s = .next t ∧ t.enc.est = .closed ∧ t.enc.snkClosed = true ∧ t.enc.elen = 0 ∧
      t.enc.snk = encStream s.enc.cipher s.enc.blockSize iv [] ∧ kpos t.enc = 2 * s.enc.blockSize ∧
      t.rspLog = s.rspLog ++ [{ word := 0x00000000#32, data := [] }] ∧ t.dec = s.dec

/-- R130, R133, R231: when the sink takes only `w < B` bytes of the final block, `ECLOSE` answers `ENC_ERR, 0`, still
closes the sink, after that write, and ends in `CLOSED`, not `FAILED`: while streaming, and as the first command, where
the IV has been accepted and the final block is `B` pad bytes. -/
def Obligations.EcloseFinalWriteFailure : Prop :=
  ∀ (s : State) (w : Nat), s.enc.Inv →
    (s.enc.est = .streaming → sinkRefusesAfter 0 w s.enc →
      ∃ (t : State) (c : List Byte), exec .eclose s = .next t ∧
        c = cipherE s.enc.cipher s.enc.blockSize
          (comb (padAdd s.enc.blockSize s.enc.ebuf s.enc.elen).1 s.enc.echain) ∧
        t.enc.est = .closed ∧ t.enc.snkClosed = true ∧ t.enc.elen = 0 ∧ t.enc.snk = s.enc.snk ++ c.take w ∧
        t.enc.calls = s.enc.calls ++
          [.cbcEncrypt (padAdd s.enc.blockSize s.enc.ebuf s.enc.elen).1 c, .sinkWrite c w, .sinkClose] ∧
        t.rspLog = s.rspLog ++ [{ word := 0x20000000#32, data := [] }] ∧ t.dec = s.dec) ∧
    (∀ iv, s.enc.est = .uninit → randomAnswers iv s.enc → sinkRefusesAfter 1 w s.enc →
      ∃ (t : State) (m c : List Byte), exec .eclose s = .next t ∧
        m = List.replicate s.enc.blockSize (BitVec.ofNat 8 s.enc.blockSize) ∧
        c = cipherE s.enc.cipher s.enc.blockSize (comb m iv) ∧
        t.enc.est = .closed ∧ t.enc.snkClosed = true ∧ t.enc.elen = 0 ∧ t.enc.snk = s.enc.snk ++ iv ++ c.take w ∧
        t.enc.calls = s.enc.calls ++
          [.randomBytes s.enc.blockSize (some iv), .sinkWrite iv s.enc.blockSize, .cbcInit iv, .cbcEncrypt m c,
            .sinkWrite c w, .sinkClose] ∧
        t.rspLog = s.rspLog ++ [{ word := 0x20000000#32, data := [] }] ∧ t.dec = s.dec)

/-- R133, R231: when the IV step fails in `ECLOSE`, by the random source or by the sink, the sink is closed, no block is
encrypted, the unit is `CLOSED` and the answer is `ENC_ERR, 0`. -/
def Obligations.EcloseIvStepFailure : Prop :=
  ∀ (s : State), s.enc.Inv → s.enc.est = .uninit →
    (randomFails s.enc →
      ∃ t, exec .eclose s = .next t ∧ t.enc.est = .closed ∧ t.enc.snkClosed = true ∧ t.enc.snk = s.enc.snk ∧
        t.enc.calls = s.enc.calls ++ [.randomBytes s.enc.blockSize none, .sinkClose] ∧
        t.rspLog = s.rspLog ++ [{ word := 0x20000000#32, data := [] }] ∧ t.dec = s.dec) ∧
    (∀ iv w, randomAnswers iv s.enc → sinkRefusesAfter 0 w s.enc →
      ∃ t, exec .eclose s = .next t ∧ t.enc.est = .closed ∧ t.enc.snkClosed = true ∧
        t.enc.snk = s.enc.snk ++ iv.take w ∧
        t.enc.calls = s.enc.calls ++ [.randomBytes s.enc.blockSize (some iv), .sinkWrite iv w, .sinkClose] ∧
        t.rspLog = s.rspLog ++ [{ word := 0x20000000#32, data := [] }] ∧ t.dec = s.dec)

/-- R133, R234, R240: `ECLOSE` in `FAILED` closes the sink, writes no padding, ends in `CLOSED` and repeats
`ENC_ERR, 0`; in `CLOSED` it answers `INVALID, 0` and changes nothing, so the sink is not closed twice. -/
def Obligations.EcloseTerminalStates : Prop :=
  ∀ s : State,
    (s.enc.est = .failed → exec .eclose s =
      .next { s with
        enc := { s.enc with est := .closed, snkClosed := true, calls := s.enc.calls ++ [.sinkClose] }
        wdata := []
        rspLog := s.rspLog ++ [{ word := 0x20000000#32, data := [] }] }) ∧
    (s.enc.est = .closed → exec .eclose s =
      .next { s with wdata := [], rspLog := s.rspLog ++ [{ word := 0xF0000000#32, data := [] }] })

/-- R133: "The status of ECLOSE is OK if and only if this command completed a well-formed stream in the sink", whatever
the random source and the sink answer. While streaming it answers `OK` exactly when the sink then
holds `Enc(iv, p)`; as the first command, exactly when the sink then holds `Enc(iv, [])` for some `iv`; in `FAILED` and
`CLOSED` it adds nothing to the sink and does not answer `OK`. -/
def Obligations.EcloseOkIffStreamComplete : Prop :=
  ∀ s t : State, exec .eclose s = .next t →
    (∀ iv p, s.enc.Inv → s.enc.Tracks iv p →
      (t.rspLog = s.rspLog ++ [{ word := 0x00000000#32, data := [] }] ↔
        t.enc.snk = encStream s.enc.cipher s.enc.blockSize iv p)) ∧
    (s.enc.Fresh →
      (t.rspLog = s.rspLog ++ [{ word := 0x00000000#32, data := [] }] ↔
        ∃ iv, iv.length = s.enc.blockSize ∧ t.enc.snk = encStream s.enc.cipher s.enc.blockSize iv [])) ∧
    (s.enc.est = .failed ∨ s.enc.est = .closed →
      t.rspLog ≠ s.rspLog ++ [{ word := 0x00000000#32, data := [] }] ∧ t.enc.snk = s.enc.snk)

/-! ## ENC as a whole -/

/-- R130: every transition of `est`, for `EWRITE` and `ECLOSE`, with its condition and the status it goes with. `new` is
what the command adds to the call record; the IV step or a block write fails exactly when one of those calls failed. -/
def Obligations.EncTransitions : Prop :=
  ∀ (s t : State) (i : Instr), s.enc.Inv → (∃ len, i = .ewrite len) ∨ i = .eclose → exec i s = .next t →
    ∃ st count new, t.rspLog = s.rspLog ++ [{ word := responseWord st count, data := [] }] ∧
      t.enc.calls = s.enc.calls ++ new ∧
      match i, s.enc.est with
      | .ewrite _, .uninit | .ewrite _, .streaming =>
        if new.any callFailed then t.enc.est = .failed ∧ st = .encErr else t.enc.est = .streaming ∧ st = .ok
      | .ewrite _, .failed => t.enc.est = .failed ∧ st = .encErr ∧ new = []
      | .ewrite _, .closed => t.enc.est = .closed ∧ st = .invalid ∧ new = []
      | _, .uninit | _, .streaming => t.enc.est = .closed ∧ st = if new.any callFailed then .encErr else .ok
      | _, .failed => t.enc.est = .closed ∧ st = .encErr ∧ new = [.sinkClose]
      | _, .closed => t.enc.est = .closed ∧ st = .invalid ∧ new = []

/-- R22 to R24, R43, R51, R57, R60, R61, R137, R201, R203: the frame of `EWRITE` and `ECLOSE`. Both leave DEC, the
parameters and what is pending alone; the sink only grows, by exactly the accepted bytes of the calls made, so every
byte at an address below the old `kpos` stays; the calls made are of whole blocks; `EWRITE` leaves `snk_closed` alone,
and the random source is asked only in `UNINIT`. -/
def Obligations.EncFrame : Prop :=
  ∀ (s t : State) (i : Instr), s.enc.Inv → (∃ len, i = .ewrite len) ∨ i = .eclose → exec i s = .next t →
    t.dec = s.dec ∧ t.pending = s.pending ∧ t.wdata = [] ∧ t.enc.blockSize = s.enc.blockSize ∧
    t.enc.cipher = s.enc.cipher ∧
    (∃ new, t.enc.calls = s.enc.calls ++ new ∧ t.enc.snk = s.enc.snk ++ acceptedBytes new ∧
      (∀ c ∈ new, encCallOk s.enc.blockSize c) ∧
      (s.enc.est ≠ .uninit → ∀ c ∈ new, ∀ n a, c ≠ .randomBytes n a) ∧
      ((∃ len, i = .ewrite len) → ∀ c ∈ new, c ≠ .sinkClose)) ∧
    (∀ a, a < kpos s.enc → byteAt t.enc.snk a = byteAt s.enc.snk a) ∧
    (s.enc.est ≠ .uninit → t.enc.rng = s.enc.rng) ∧
    ((∃ len, i = .ewrite len) → t.enc.snkClosed = s.enc.snkClosed)

/-- R54, R136: the length law, and R53: the stream begins with the IV. -/
def Obligations.EncStreamLength : Prop :=
  ∀ (c : Cipher) (B : Nat) (iv p : List Byte), 1 ≤ B → B ≤ 255 → iv.length = B →
    (encStream c B iv p).length = streamLength B p.length ∧
    streamLength B p.length = B + B * (p.length / B + 1) ∧
    (encStream c B iv p).take B = iv

/-- R135, R97: the sink content law. A fresh ENC unit that is given any chunks and then `ECLOSE`, no collaborator
failing and the random source answering `iv`, leaves `Enc(iv, p)` in the closed sink, `p` the chunks joined. -/
def Obligations.SinkContentLaw : Prop :=
  ∀ (s : State) (chunks : List (List Byte)) (iv : List Byte) (rest : List HostEvent),
    s.enc.Fresh → randomAnswers iv s.enc → (∀ a ∈ chunks, a.length < 2 ^ 24) →
    sinkAccepts (chunks.flatten.length / s.enc.blockSize + 2) s.enc →
    s.pending = encryptEvents chunks ++ rest →
    ∃ t, core.run (chunks.length + 1) s = .next t ∧ t.enc.est = .closed ∧ t.enc.snkClosed = true ∧
      t.enc.snk = encStream s.enc.cipher s.enc.blockSize iv chunks.flatten ∧ t.dec = s.dec ∧ t.pending = rest ∧
      t.rspLog = s.rspLog ++ chunks.map (fun a => { word := responseWord .ok a.length, data := [] }) ++
        [{ word := 0x00000000#32, data := [] }]

/-- R263, R267: whatever the sink answers, if a fresh ENC unit was given chunks and `ECLOSE` and every response was
clean, the sink holds the complete stream `Enc(iv, p)` and is closed. -/
def Obligations.CleanEncryptionIsComplete : Prop :=
  ∀ (s t : State) (chunks : List (List Byte)) (iv : List Byte) (rest : List HostEvent),
    s.enc.Fresh → randomAnswers iv s.enc → (∀ a ∈ chunks, a.length < 2 ^ 24) →
    s.pending = encryptEvents chunks ++ rest → core.run (chunks.length + 1) s = .next t →
    cleanRun (t.rspLog.drop s.rspLog.length) = true →
    t.enc.est = .closed ∧ t.enc.snkClosed = true ∧
      t.enc.snk = encStream s.enc.cipher s.enc.blockSize iv chunks.flatten

/-- R212, R61: the order of collaborator calls of a whole stream: random source, IV write, `CbcInit`, then for each block
`CbcEncrypt` and its write, then `SinkClose`. -/
def Obligations.EncCallOrder : Prop :=
  ∀ (s : State) (iv p : List Byte),
    s.enc.Fresh → randomAnswers iv s.enc → p.length < 2 ^ 24 →
    sinkAccepts (p.length / s.enc.blockSize + 2) s.enc → s.pending = encryptEvents [p] →
    ∃ t, core.run 2 s = .next t ∧
      t.enc.calls = s.enc.calls ++ encCallSequence s.enc.cipher s.enc.blockSize iv p

/-! ## DREAD -/

/-- R161, R162, R163: `DREAD` completes. In a state in which DEC has delivered `out`, `DREAD` with any `len` answers,
and if it does not answer `DEC_ERR` it answers `OK` with exactly `len` bytes or `EOS` with at most `len`; what has then
been delivered is again what the source calls for. -/
def Obligations.DreadDelivers : Prop :=
  ∀ (s : State) (out : List Byte) (len : Nat),
    s.dec.Inv → s.dec.Tracks out → s.dec.dst ≠ .closed → len < 2 ^ 24 →
    ∃ t st data, exec (.dread len) s = .next t ∧
      t.rspLog = s.rspLog ++ [{ word := responseWord st data.length, data := data }] ∧
      t.dec.Inv ∧ t.dec.Tracks (out ++ data) ∧ data.length ≤ len ∧
      ((st = .ok ∧ data.length = len ∧ t.dec.dst ≠ .drained ∧ t.dec.dst ≠ .failed) ∨
        (st = .eos ∧ t.dec.dst = .drained) ∨ (st = .decErr ∧ t.dec.dst = .failed)) ∧
      t.enc = s.enc ∧ t.pending = s.pending ∧ t.wdata = []

/-- R163 steps 1 and 5: a request that the pending tail covers is served from it alone: no collaborator is called and
only `cpos` moves, with `DRAINING` becoming `DRAINED` and `EOS` when the tail is used up. R163 corner case (a): so
`DREAD 0` answers `OK, 0` in `STREAMING` and `DRAINING`, also with no tail pending, and nothing changes. -/
def Obligations.DreadServesPendingTail : Prop :=
  ∀ (s : State) (len : Nat),
    s.dec.Inv → s.dec.dst = .streaming ∨ s.dec.dst = .draining → len ≤ s.dec.clen - s.dec.cpos → len < 2 ^ 24 →
    exec (.dread len) s = .next { s with
      dec := { s.dec with
        cpos := s.dec.cpos + len
        dst := if s.dec.cpos + len = s.dec.clen ∧ s.dec.dst = .draining then .drained else s.dec.dst }
      wdata := []
      rspLog := s.rspLog ++ [{
        word := responseWord
          (if s.dec.cpos + len = s.dec.clen ∧ s.dec.dst = .draining then .eos else .ok) len
        data := s.dec.tailBytes.take len }] }

/-- R162: `NextBlock` on an interior block. When a full block is there and at least one byte follows it, the block is
decrypted whole, nothing is stripped whatever its bytes are, and the bytes that follow are in `la` as raw ciphertext. -/
def Obligations.NextBlockInterior : Prop :=
  ∀ (d : DecUnit) (blk : List Byte),
    d.Inv → d.dst = .streaming → d.cpos = d.clen →
    (takeBlock d).1 = blk → blk.length = d.blockSize → (takeBlock d).2.spos < d.src.length →
    ∃ d', nextBlock d = (true, d') ∧ d'.dst = .streaming ∧
      d'.cur = comb (cipherD d.cipher d.blockSize blk) d.dchain ∧ d'.dchain = blk ∧ d'.cpos = 0 ∧
      d'.clen = d.blockSize ∧ d'.laValid = true ∧ d'.laLen = min d.blockSize (d.src.length - (takeBlock d).2.spos) ∧
      d'.la.take d'.laLen = (d.src.drop (takeBlock d).2.spos).take d.blockSize ∧
      d'.spos = (takeBlock d).2.spos + d'.laLen

/-- R162, R113, R168: `NextBlock` on the final block. When a full block is there and the source is at its end, `k` the
last byte of the decrypted block: `k > B` fails, and otherwise `B - k` bytes are pending and the state is `DRAINING`, or
`DRAINED` when none is; `cur` itself keeps the whole block. -/
def Obligations.NextBlockFinal : Prop :=
  ∀ (d : DecUnit) (blk front : List Byte) (k : Byte),
    d.Inv → d.dst = .streaming → d.cpos = d.clen →
    (takeBlock d).1 = blk → blk.length = d.blockSize → (takeBlock d).2.spos = d.src.length →
    comb (cipherD d.cipher d.blockSize blk) d.dchain = front ++ [k] →
    (d.blockSize < k.toNat → (nextBlock d).1 = false) ∧
    (k.toNat ≤ d.blockSize →
      ∃ d', nextBlock d = (true, d') ∧ d'.cur = front ++ [k] ∧ d'.dchain = blk ∧ d'.cpos = 0 ∧
        d'.clen = d.blockSize - k.toNat ∧ d'.laValid = false ∧ d'.spos = d.src.length ∧
        d'.dst = if d'.clen = 0 then .drained else .draining)

/-- R161, R56, R232: a source of fewer than `B` bytes makes the first `DREAD` fail, whatever its `len`: what there was is
consumed, the CBC engine is not called, and the answer is `DEC_ERR, 0`. -/
def Obligations.DreadShortIv : Prop :=
  ∀ (s : State) (len : Nat),
    s.dec.Inv → s.dec.dst = .uninit → s.dec.src.length - s.dec.spos < s.dec.blockSize →
    exec (.dread len) s = .next { s with
      dec := { s.dec with
        dst := .failed
        spos := s.dec.src.length
        calls := s.dec.calls ++ [.srcRead s.dec.blockSize (s.dec.src.drop s.dec.spos)] }
      wdata := []
      rspLog := s.rspLog ++ [{ word := 0x30000000#32, data := [] }] }

/-- R163, R58, R240: `DREAD` in `DRAINED` repeats `EOS, 0`, in `FAILED` `DEC_ERR, 0`, and in `CLOSED` it answers
`INVALID, 0`; in none of them does anything change or a collaborator get called. -/
def Obligations.DreadTerminalStates : Prop :=
  ∀ (s : State) (len : Nat),
    (s.dec.dst = .drained → s.dec.cpos = s.dec.clen → exec (.dread len) s =
      .next { s with wdata := [], rspLog := s.rspLog ++ [{ word := 0x10000000#32, data := [] }] }) ∧
    (s.dec.dst = .failed → exec (.dread len) s =
      .next { s with wdata := [], rspLog := s.rspLog ++ [{ word := 0x30000000#32, data := [] }] }) ∧
    (s.dec.dst = .closed → exec (.dread len) s =
      .next { s with wdata := [], rspLog := s.rspLog ++ [{ word := 0xF0000000#32, data := [] }] })

/-- R165: request-split independence. Two `DREAD`s in a row give, joined, the data of the one `DREAD` of the summed
length, in every state, and leave DEC, its CBC engine, its source and its call record the same; the second's status is the single
one's. -/
def Obligations.DreadSplitIndependence : Prop :=
  ∀ (s t u : State) (a b : Nat),
    a + b < 2 ^ 24 → exec (.dread a) s = .next t → exec (.dread b) t = .next u →
    ∃ v ra rb rv, exec (.dread (a + b)) s = .next v ∧ v.dec = u.dec ∧ v.enc = u.enc ∧
      t.rspLog = s.rspLog ++ [ra] ∧ u.rspLog = s.rspLog ++ [ra, rb] ∧ v.rspLog = s.rspLog ++ [rv] ∧
      rv.data = ra.data ++ rb.data ∧ statusField rv.word = statusField rb.word

/-- R169: `2 * len + 2` passes are enough for every `DREAD`, in every state and for every source: more passes change
nothing, so the loop always ends by itself. -/
def Obligations.DreadPassBound : Prop :=
  ∀ (len fuel : Nat) (d : DecUnit), readPasses len ≤ fuel → readLoop fuel len [] d = readData len d

/-! ## DCLOSE -/

/-- R164: `DCLOSE` answers `OK, 0` in every state; it closes the source and ends in `CLOSED`, and in `CLOSED` it does
nothing more. After it every `DREAD` answers `INVALID`, and a second `DCLOSE` `OK`. -/
def Obligations.DcloseEffect : Prop :=
  ∀ s : State,
    (s.dec.dst ≠ .closed → exec .dclose s =
      .next { s with
        dec := { s.dec with dst := .closed, srcClosed := true, calls := s.dec.calls ++ [.srcClose] }
        wdata := []
        rspLog := s.rspLog ++ [{ word := 0x00000000#32, data := [] }] }) ∧
    (s.dec.dst = .closed → exec .dclose s =
      .next { s with wdata := [], rspLog := s.rspLog ++ [{ word := 0x00000000#32, data := [] }] }) ∧
    (∀ t, exec .dclose s = .next t →
      (∀ len, exec (.dread len) t =
        .next { t with wdata := [], rspLog := t.rspLog ++ [{ word := 0xF0000000#32, data := [] }] }) ∧
      exec .dclose t =
        .next { t with wdata := [], rspLog := t.rspLog ++ [{ word := 0x00000000#32, data := [] }] })

/-! ## DEC as a whole -/

/-- R160, R164, R44: what `dst` can become in one `DREAD` or `DCLOSE`, from each state, with the status it goes with. -/
def Obligations.DecTransitions : Prop :=
  ∀ (s t : State) (i : Instr), s.dec.Inv → (∃ len, i = .dread len) ∨ i = .dclose → exec i s = .next t →
    ∃ st data, t.rspLog = s.rspLog ++ [{ word := responseWord st data.length, data := data }] ∧
      match i, s.dec.dst with
      | .dread _, .uninit | .dread _, .streaming =>
        ((t.dec.dst = .streaming ∨ t.dec.dst = .draining) ∧ st = .ok) ∨ (t.dec.dst = .drained ∧ st = .eos) ∨
          (t.dec.dst = .failed ∧ st = .decErr)
      | .dread _, .draining => (t.dec.dst = .draining ∧ st = .ok) ∨ (t.dec.dst = .drained ∧ st = .eos)
      | .dread _, .drained => t.dec.dst = .drained ∧ st = .eos ∧ data = []
      | .dread _, .failed => t.dec.dst = .failed ∧ st = .decErr ∧ data = []
      | .dread _, .closed => t.dec.dst = .closed ∧ st = .invalid ∧ data = []
      | _, _ => t.dec.dst = .closed ∧ st = .ok ∧ data = []

/-- R30 to R34, R50, R57, R58, R137: the frame of `DREAD`. ENC, the parameters, the source's content, `src_closed` and
what is pending stay; the source position moves by exactly the bytes the calls got, which are the source's next bytes;
the calls made are of whole blocks and never a close. -/
def Obligations.DecFrame : Prop :=
  ∀ (s t : State) (len : Nat), s.dec.Inv → exec (.dread len) s = .next t →
    t.enc = s.enc ∧ t.pending = s.pending ∧ t.wdata = [] ∧ t.dec.blockSize = s.dec.blockSize ∧
    t.dec.cipher = s.dec.cipher ∧ t.dec.src = s.dec.src ∧ t.dec.srcClosed = s.dec.srcClosed ∧
    t.dec.draws = s.dec.draws ∧
    ∃ new, t.dec.calls = s.dec.calls ++ new ∧
      t.dec.spos = s.dec.spos + (sourcedBytes new).length ∧
      sourcedBytes new = slice s.dec.src s.dec.spos t.dec.spos ∧
      ∀ c ∈ new, decCallOk s.dec.blockSize c ∧ c ≠ .srcClose

/-- R166, R98: the whole-stream function. A fresh DEC unit whose source holds `src` and that is given `DREAD`s of any
sizes, the last response not being `OK`, has delivered in all the data of the table of R166, and the last status is the
table's. -/
def Obligations.SourceContentLaw : Prop :=
  ∀ (s : State) (sizes : List Nat) (rest : List HostEvent),
    s.dec.Fresh → (∀ n ∈ sizes, n < 2 ^ 24) →
    s.pending = sizes.map (fun n => command (.dread n) []) ++ rest →
    ∃ t rs, core.run sizes.length s = .next t ∧ t.rspLog = s.rspLog ++ rs ∧ rs.length = sizes.length ∧
      t.enc = s.enc ∧ t.pending = rest ∧
      rs.flatMap Response.data <+: (decStream s.dec.cipher s.dec.blockSize s.dec.src).1 ∧
      (∀ r, rs.getLast? = some r → statusField r.word ≠ statusCode .ok →
        rs.flatMap Response.data = (decStream s.dec.cipher s.dec.blockSize s.dec.src).1 ∧
        statusField r.word = statusCode (decStream s.dec.cipher s.dec.blockSize s.dec.src).2)

/-- R212: the order of collaborator calls of a whole well-formed stream read to its end and closed: the IV, `CbcInit`,
block 1, then for each block `CbcDecrypt` and the pull of the next, the last pull empty, then `SrcClose`. -/
def Obligations.DecCallOrder : Prop :=
  ∀ (s : State) (len : Nat),
    s.dec.Fresh → s.dec.blockSize < s.dec.src.length → s.dec.src.length % s.dec.blockSize = 0 →
    (decStream s.dec.cipher s.dec.blockSize s.dec.src).2 = .eos → s.dec.src.length < len → len < 2 ^ 24 →
    s.pending = decryptEvents [len] →
    ∃ t, core.run 2 s = .next t ∧
      t.dec.calls = s.dec.calls ++ decCallSequence s.dec.cipher s.dec.blockSize s.dec.src

/-- R167: round trip. With the same block size and cipher on both sides, decrypting `Enc(iv, p)` gives `p` and `EOS`, for
every `iv`, every `p` including the empty one, and every cipher. -/
def Obligations.RoundTrip : Prop :=
  ∀ (c : Cipher) (B : Nat) (iv p : List Byte), 1 ≤ B → B ≤ 255 → iv.length = B →
    decStream c B (encStream c B iv p) = (p, .eos)

/-- R66, R167: the round trip through the machine. A fresh ENC unit encrypts `p`, the platform binds what is then in the
sink as the source of a fresh DEC unit with the same parameters, and one long enough `DREAD` answers `EOS` with `p`. -/
def Obligations.MachineRoundTrip : Prop :=
  ∀ (s : State) (iv p : List Byte) (n : Nat),
    s.enc.Fresh → randomAnswers iv s.enc → sinkAccepts (p.length / s.enc.blockSize + 2) s.enc →
    p.length + 2 * s.enc.blockSize < n → n < 2 ^ 24 →
    ∃ t, core.run 2 { s with pending := encryptEvents [p] } = .next t ∧
      ∃ u, core.run 2 { t with pending :=
            [.resetDec (some { blockSize := s.enc.blockSize, cipher := s.enc.cipher, src := t.enc.snk }),
             command (.dread n) []] } = .next u ∧
        u.rspLog = t.rspLog ++ [{ word := responseWord .eos p.length, data := p }]

/-! ## The machine as a whole -/

/-- R25, R35: reset meets the invariant. -/
def Obligations.ResetMeetsInvariant : Prop := State.reset.Inv

/-- R25, R35: every step keeps the invariant, from every state that meets it, whatever the host presents. -/
def Obligations.StepKeepsInvariant : Prop :=
  ∀ s t : State, s.Inv → step s = .next t → t.Inv

/-- R20, R60: the units share nothing, so a command of ENC and a command of DEC give the same units and the same two
responses in either order. -/
def Obligations.UnitsCommute : Prop :=
  ∀ (s : State) (i j : Instr) (bytes : List Byte),
    (∃ len, i = .ewrite len) ∨ i = .eclose → (∃ len, j = .dread len) ∨ j = .dclose →
    ∃ a b c d ri rj, exec i { s with wdata := bytes } = .next a ∧ exec j a = .next b ∧ exec j s = .next c ∧
      exec i { c with wdata := bytes } = .next d ∧ b.enc = d.enc ∧ b.dec = d.dec ∧
      b.rspLog = s.rspLog ++ [ri, rj] ∧ d.rspLog = s.rspLog ++ [rj, ri]

/-- R41, R261: no command reads a register byte that holds no value. Two states that differ only in such bytes give the
same response to every event and differ again only in such bytes. -/
def Obligations.UnwrittenBytesAreNeverRead : Prop :=
  ∀ s s' t : State, s.Inv → s'.Inv → s.enc.Agree s'.enc → s.dec.Agree s'.dec →
    s.pending = s'.pending → s.wdata = s'.wdata → s.rspLog = s'.rspLog → step s = .next t →
    ∃ t', step s' = .next t' ∧ t.enc.Agree t'.enc ∧ t.dec.Agree t'.dec ∧ t.pending = t'.pending ∧
      t.wdata = t'.wdata ∧ t.rspLog = t'.rspLog

/-- R233: once a DecryptionError is raised, nothing the host sees depends on its cause: two machines that agree on ENC and
whose DEC units are both `FAILED`, whatever else those units hold, answer every further sequence of commands alike. -/
def Obligations.FailureCauseIsInvisible : Prop :=
  ∀ (cmds : List (Word × List Byte)) (s s' t : State),
    s.dec.dst = .failed → s'.dec.dst = .failed → s.enc = s'.enc → s.rspLog = s'.rspLog → s.wdata = s'.wdata →
    s.pending = cmds.map (fun c => .command c.1 c.2) → s'.pending = s.pending → core.run cmds.length s = .next t →
    ∃ t', core.run cmds.length s' = .next t' ∧ t.rspLog = t'.rspLog ∧ t.enc = t'.enc

/-- R130, R160, R239: `FAILED` and `CLOSED` are terminal: no command takes ENC out of `CLOSED`, or out of `FAILED` except
to `CLOSED` by `ECLOSE`, nor DEC out of `CLOSED`, or out of `FAILED` except to `CLOSED` by `DCLOSE`; no command makes a
unit `UNINIT` again. -/
def Obligations.TerminalStates : Prop :=
  ∀ (s t : State) (i : Instr), exec i s = .next t →
    (s.enc.est = .closed → t.enc.est = .closed) ∧
    (s.enc.est = .failed → t.enc.est = .failed ∨ (i = .eclose ∧ t.enc.est = .closed)) ∧
    (t.enc.est = .uninit → s.enc.est = .uninit) ∧
    (s.dec.dst = .closed → t.dec.dst = .closed) ∧
    (s.dec.dst = .failed → t.dec.dst = .failed ∨ (i = .dclose ∧ t.dec.dst = .closed)) ∧
    (t.dec.dst = .uninit → s.dec.dst = .uninit)

/-- R234: an `INVALID` response means nothing was done: if a command's response is `INVALID`, neither unit has changed. -/
def Obligations.InvalidMeansNoEffect : Prop :=
  ∀ (s t : State) (w : Word) (bytes : List Byte) (rest : List HostEvent),
    s.pending = .command w bytes :: rest → step s = .next t →
    t.rspLog = s.rspLog ++ [{ word := 0xF0000000#32, data := [] }] →
    t = { s with pending := rest, wdata := [], rspLog := s.rspLog ++ [{ word := 0xF0000000#32, data := [] }] }
end

