-- ==== Sys2Proof/Laws/State.lean ====
section
/-! SUPPORT. What each update leaves in each field: one lemma per field per update, so that no proof unfolds a record
update. -/

namespace Sys2Proof.Machine

/-! ## ENC -/

@[simp] theorem afterPayload_est (len : Nat) (bs : List Byte) (e : EncUnit) : (afterPayload len bs e).est =
    e.est := rfl
@[simp] theorem afterPayload_ebuf (len : Nat) (bs : List Byte) (e : EncUnit) : (afterPayload len bs e).ebuf =
    e.ebuf := rfl
@[simp] theorem afterPayload_elen (len : Nat) (bs : List Byte) (e : EncUnit) : (afterPayload len bs e).elen =
    e.elen := rfl
@[simp] theorem afterPayload_echain (len : Nat) (bs : List Byte) (e : EncUnit) : (afterPayload len bs e).echain =
    e.echain := rfl
@[simp] theorem afterPayload_blockSize (len : Nat) (bs : List Byte) (e : EncUnit) : (afterPayload len bs e).blockSize =
    e.blockSize := rfl
@[simp] theorem afterPayload_cipher (len : Nat) (bs : List Byte) (e : EncUnit) : (afterPayload len bs e).cipher =
    e.cipher := rfl
@[simp] theorem afterPayload_rng (len : Nat) (bs : List Byte) (e : EncUnit) : (afterPayload len bs e).rng =
    e.rng := rfl
@[simp] theorem afterPayload_accept (len : Nat) (bs : List Byte) (e : EncUnit) : (afterPayload len bs e).accept =
    e.accept := rfl
@[simp] theorem afterPayload_snk (len : Nat) (bs : List Byte) (e : EncUnit) : (afterPayload len bs e).snk =
    e.snk := rfl
@[simp] theorem afterPayload_snkClosed (len : Nat) (bs : List Byte) (e : EncUnit) : (afterPayload len bs e).snkClosed =
    e.snkClosed := rfl
@[simp] theorem afterPayload_calls (len : Nat) (bs : List Byte) (e : EncUnit) : (afterPayload len bs e).calls =
    e.calls := rfl
@[simp] theorem afterPayload_draws (len : Nat) (bs : List Byte) (e : EncUnit) : (afterPayload len bs e).draws =
    e.draws + (len - bs.length) := rfl

@[simp] theorem encCbcInit_est (iv : List Byte) (e : EncUnit) : (encCbcInit iv e).est = e.est := rfl
@[simp] theorem encCbcInit_ebuf (iv : List Byte) (e : EncUnit) : (encCbcInit iv e).ebuf = e.ebuf := rfl
@[simp] theorem encCbcInit_elen (iv : List Byte) (e : EncUnit) : (encCbcInit iv e).elen = e.elen := rfl
@[simp] theorem encCbcInit_echain (iv : List Byte) (e : EncUnit) : (encCbcInit iv e).echain = iv := rfl
@[simp] theorem encCbcInit_blockSize (iv : List Byte) (e : EncUnit) : (encCbcInit iv e).blockSize = e.blockSize := rfl
@[simp] theorem encCbcInit_cipher (iv : List Byte) (e : EncUnit) : (encCbcInit iv e).cipher = e.cipher := rfl
@[simp] theorem encCbcInit_rng (iv : List Byte) (e : EncUnit) : (encCbcInit iv e).rng = e.rng := rfl
@[simp] theorem encCbcInit_accept (iv : List Byte) (e : EncUnit) : (encCbcInit iv e).accept = e.accept := rfl
@[simp] theorem encCbcInit_snk (iv : List Byte) (e : EncUnit) : (encCbcInit iv e).snk = e.snk := rfl
@[simp] theorem encCbcInit_snkClosed (iv : List Byte) (e : EncUnit) : (encCbcInit iv e).snkClosed = e.snkClosed := rfl
@[simp] theorem encCbcInit_calls (iv : List Byte) (e : EncUnit) : (encCbcInit iv e).calls =
    e.calls ++ [.cbcInit iv] := rfl
@[simp] theorem encCbcInit_draws (iv : List Byte) (e : EncUnit) : (encCbcInit iv e).draws = e.draws := rfl

@[simp] theorem cbcEncrypt_fst (m : List Byte) (e : EncUnit) : (cbcEncrypt m e).1 = cbcEncryptBlock m e := rfl
@[simp] theorem cbcEncrypt_est (m : List Byte) (e : EncUnit) : ((cbcEncrypt m e).2).est = e.est := rfl
@[simp] theorem cbcEncrypt_ebuf (m : List Byte) (e : EncUnit) : ((cbcEncrypt m e).2).ebuf = e.ebuf := rfl
@[simp] theorem cbcEncrypt_elen (m : List Byte) (e : EncUnit) : ((cbcEncrypt m e).2).elen = e.elen := rfl
@[simp] theorem cbcEncrypt_echain (m : List Byte) (e : EncUnit) : ((cbcEncrypt m e).2).echain =
    cbcEncryptBlock m e := rfl
@[simp] theorem cbcEncrypt_blockSize (m : List Byte) (e : EncUnit) : ((cbcEncrypt m e).2).blockSize =
    e.blockSize := rfl
@[simp] theorem cbcEncrypt_cipher (m : List Byte) (e : EncUnit) : ((cbcEncrypt m e).2).cipher = e.cipher := rfl
@[simp] theorem cbcEncrypt_rng (m : List Byte) (e : EncUnit) : ((cbcEncrypt m e).2).rng = e.rng := rfl
@[simp] theorem cbcEncrypt_accept (m : List Byte) (e : EncUnit) : ((cbcEncrypt m e).2).accept = e.accept := rfl
@[simp] theorem cbcEncrypt_snk (m : List Byte) (e : EncUnit) : ((cbcEncrypt m e).2).snk = e.snk := rfl
@[simp] theorem cbcEncrypt_snkClosed (m : List Byte) (e : EncUnit) : ((cbcEncrypt m e).2).snkClosed =
    e.snkClosed := rfl
@[simp] theorem cbcEncrypt_calls (m : List Byte) (e : EncUnit) : ((cbcEncrypt m e).2).calls =
    e.calls ++ [.cbcEncrypt m (cbcEncryptBlock m e)] := rfl
@[simp] theorem cbcEncrypt_draws (m : List Byte) (e : EncUnit) : ((cbcEncrypt m e).2).draws = e.draws := rfl

@[simp] theorem takeAccept_est (e : EncUnit) : (takeAccept e).est = e.est := rfl
@[simp] theorem takeAccept_ebuf (e : EncUnit) : (takeAccept e).ebuf = e.ebuf := rfl
@[simp] theorem takeAccept_elen (e : EncUnit) : (takeAccept e).elen = e.elen := rfl
@[simp] theorem takeAccept_echain (e : EncUnit) : (takeAccept e).echain = e.echain := rfl
@[simp] theorem takeAccept_blockSize (e : EncUnit) : (takeAccept e).blockSize = e.blockSize := rfl
@[simp] theorem takeAccept_cipher (e : EncUnit) : (takeAccept e).cipher = e.cipher := rfl
@[simp] theorem takeAccept_rng (e : EncUnit) : (takeAccept e).rng = e.rng := rfl
@[simp] theorem takeAccept_accept (e : EncUnit) : (takeAccept e).accept = e.accept.tail := rfl
@[simp] theorem takeAccept_snk (e : EncUnit) : (takeAccept e).snk = e.snk := rfl
@[simp] theorem takeAccept_snkClosed (e : EncUnit) : (takeAccept e).snkClosed = e.snkClosed := rfl
@[simp] theorem takeAccept_calls (e : EncUnit) : (takeAccept e).calls = e.calls := rfl
@[simp] theorem takeAccept_draws (e : EncUnit) : (takeAccept e).draws =
    e.draws + (if e.accept.isEmpty then 1 else 0) := rfl

@[simp] theorem sinkWrite_fst (s : List Byte) (e : EncUnit) : (sinkWrite s e).1 = nextAccept s.length e := rfl
@[simp] theorem sinkWrite_est (s : List Byte) (e : EncUnit) : ((sinkWrite s e).2).est = e.est := rfl
@[simp] theorem sinkWrite_ebuf (s : List Byte) (e : EncUnit) : ((sinkWrite s e).2).ebuf = e.ebuf := rfl
@[simp] theorem sinkWrite_elen (s : List Byte) (e : EncUnit) : ((sinkWrite s e).2).elen = e.elen := rfl
@[simp] theorem sinkWrite_echain (s : List Byte) (e : EncUnit) : ((sinkWrite s e).2).echain = e.echain := rfl
@[simp] theorem sinkWrite_blockSize (s : List Byte) (e : EncUnit) : ((sinkWrite s e).2).blockSize = e.blockSize := rfl
@[simp] theorem sinkWrite_cipher (s : List Byte) (e : EncUnit) : ((sinkWrite s e).2).cipher = e.cipher := rfl
@[simp] theorem sinkWrite_rng (s : List Byte) (e : EncUnit) : ((sinkWrite s e).2).rng = e.rng := rfl
@[simp] theorem sinkWrite_accept (s : List Byte) (e : EncUnit) : ((sinkWrite s e).2).accept = e.accept.tail := rfl
@[simp] theorem sinkWrite_snk (s : List Byte) (e : EncUnit) : ((sinkWrite s e).2).snk =
    e.snk ++ s.take (nextAccept s.length e) := rfl
@[simp] theorem sinkWrite_snkClosed (s : List Byte) (e : EncUnit) : ((sinkWrite s e).2).snkClosed = e.snkClosed := rfl
@[simp] theorem sinkWrite_calls (s : List Byte) (e : EncUnit) : ((sinkWrite s e).2).calls =
    e.calls ++ [.sinkWrite s (nextAccept s.length e)] := rfl
@[simp] theorem sinkWrite_draws (s : List Byte) (e : EncUnit) : ((sinkWrite s e).2).draws =
    e.draws + (if e.accept.isEmpty then 1 else 0) := rfl

@[simp] theorem randomBytes_fst (n : Nat) (e : EncUnit) : (randomBytes n e).1 = nextRandom n e := rfl
@[simp] theorem randomBytes_est (n : Nat) (e : EncUnit) : ((randomBytes n e).2).est = e.est := rfl
@[simp] theorem randomBytes_ebuf (n : Nat) (e : EncUnit) : ((randomBytes n e).2).ebuf = e.ebuf := rfl
@[simp] theorem randomBytes_elen (n : Nat) (e : EncUnit) : ((randomBytes n e).2).elen = e.elen := rfl
@[simp] theorem randomBytes_echain (n : Nat) (e : EncUnit) : ((randomBytes n e).2).echain = e.echain := rfl
@[simp] theorem randomBytes_blockSize (n : Nat) (e : EncUnit) : ((randomBytes n e).2).blockSize = e.blockSize := rfl
@[simp] theorem randomBytes_cipher (n : Nat) (e : EncUnit) : ((randomBytes n e).2).cipher = e.cipher := rfl
@[simp] theorem randomBytes_rng (n : Nat) (e : EncUnit) : ((randomBytes n e).2).rng = e.rng.tail := rfl
@[simp] theorem randomBytes_accept (n : Nat) (e : EncUnit) : ((randomBytes n e).2).accept = e.accept := rfl
@[simp] theorem randomBytes_snk (n : Nat) (e : EncUnit) : ((randomBytes n e).2).snk = e.snk := rfl
@[simp] theorem randomBytes_snkClosed (n : Nat) (e : EncUnit) : ((randomBytes n e).2).snkClosed = e.snkClosed := rfl
@[simp] theorem randomBytes_calls (n : Nat) (e : EncUnit) : ((randomBytes n e).2).calls =
    e.calls ++ [.randomBytes n (nextRandom n e)] := rfl
@[simp] theorem randomBytes_draws (n : Nat) (e : EncUnit) : ((randomBytes n e).2).draws =
    e.draws + randomDraws n e := rfl

@[simp] theorem flushBlock_fst (e : EncUnit) : (flushBlock e).1 =
    decide (nextAccept (cbcEncryptBlock e.ebuf e).length e = e.blockSize) := rfl
@[simp] theorem flushBlock_est (e : EncUnit) : ((flushBlock e).2).est = e.est := rfl
@[simp] theorem flushBlock_ebuf (e : EncUnit) : ((flushBlock e).2).ebuf = cbcEncryptBlock e.ebuf e := rfl
@[simp] theorem flushBlock_elen (e : EncUnit) : ((flushBlock e).2).elen = e.elen := rfl
@[simp] theorem flushBlock_echain (e : EncUnit) : ((flushBlock e).2).echain = cbcEncryptBlock e.ebuf e := rfl
@[simp] theorem flushBlock_blockSize (e : EncUnit) : ((flushBlock e).2).blockSize = e.blockSize := rfl
@[simp] theorem flushBlock_cipher (e : EncUnit) : ((flushBlock e).2).cipher = e.cipher := rfl
@[simp] theorem flushBlock_rng (e : EncUnit) : ((flushBlock e).2).rng = e.rng := rfl
@[simp] theorem flushBlock_accept (e : EncUnit) : ((flushBlock e).2).accept = e.accept.tail := rfl
@[simp] theorem flushBlock_snk (e : EncUnit) : ((flushBlock e).2).snk =
    e.snk ++ (cbcEncryptBlock e.ebuf e).take (nextAccept (cbcEncryptBlock e.ebuf e).length e) := rfl
@[simp] theorem flushBlock_snkClosed (e : EncUnit) : ((flushBlock e).2).snkClosed = e.snkClosed := rfl
@[simp] theorem flushBlock_calls (e : EncUnit) : ((flushBlock e).2).calls =
    e.calls ++ [.cbcEncrypt e.ebuf (cbcEncryptBlock e.ebuf e)] ++ [.sinkWrite (cbcEncryptBlock e.ebuf e) (nextAccept (cbcEncryptBlock e.ebuf e).length e)] := rfl
@[simp] theorem flushBlock_draws (e : EncUnit) : ((flushBlock e).2).draws =
    e.draws + (if e.accept.isEmpty then 1 else 0) := rfl

@[simp] theorem sinkClose_est (e : EncUnit) : (sinkClose e).est = e.est := rfl
@[simp] theorem sinkClose_ebuf (e : EncUnit) : (sinkClose e).ebuf = e.ebuf := rfl
@[simp] theorem sinkClose_elen (e : EncUnit) : (sinkClose e).elen = e.elen := rfl
@[simp] theorem sinkClose_echain (e : EncUnit) : (sinkClose e).echain = e.echain := rfl
@[simp] theorem sinkClose_blockSize (e : EncUnit) : (sinkClose e).blockSize = e.blockSize := rfl
@[simp] theorem sinkClose_cipher (e : EncUnit) : (sinkClose e).cipher = e.cipher := rfl
@[simp] theorem sinkClose_rng (e : EncUnit) : (sinkClose e).rng = e.rng := rfl
@[simp] theorem sinkClose_accept (e : EncUnit) : (sinkClose e).accept = e.accept := rfl
@[simp] theorem sinkClose_snk (e : EncUnit) : (sinkClose e).snk = e.snk := rfl
@[simp] theorem sinkClose_snkClosed (e : EncUnit) : (sinkClose e).snkClosed = true := rfl
@[simp] theorem sinkClose_calls (e : EncUnit) : (sinkClose e).calls = e.calls ++ [.sinkClose] := rfl
@[simp] theorem sinkClose_draws (e : EncUnit) : (sinkClose e).draws = e.draws := rfl

@[simp] theorem pushByte_est (b : Byte) (e : EncUnit) : (pushByte b e).est = e.est := rfl
@[simp] theorem pushByte_ebuf (b : Byte) (e : EncUnit) : (pushByte b e).ebuf = e.ebuf.set e.elen b := rfl
@[simp] theorem pushByte_elen (b : Byte) (e : EncUnit) : (pushByte b e).elen = e.elen + 1 := rfl
@[simp] theorem pushByte_echain (b : Byte) (e : EncUnit) : (pushByte b e).echain = e.echain := rfl
@[simp] theorem pushByte_blockSize (b : Byte) (e : EncUnit) : (pushByte b e).blockSize = e.blockSize := rfl
@[simp] theorem pushByte_cipher (b : Byte) (e : EncUnit) : (pushByte b e).cipher = e.cipher := rfl
@[simp] theorem pushByte_rng (b : Byte) (e : EncUnit) : (pushByte b e).rng = e.rng := rfl
@[simp] theorem pushByte_accept (b : Byte) (e : EncUnit) : (pushByte b e).accept = e.accept := rfl
@[simp] theorem pushByte_snk (b : Byte) (e : EncUnit) : (pushByte b e).snk = e.snk := rfl
@[simp] theorem pushByte_snkClosed (b : Byte) (e : EncUnit) : (pushByte b e).snkClosed = e.snkClosed := rfl
@[simp] theorem pushByte_calls (b : Byte) (e : EncUnit) : (pushByte b e).calls = e.calls := rfl
@[simp] theorem pushByte_draws (b : Byte) (e : EncUnit) : (pushByte b e).draws = e.draws := rfl

@[simp] theorem raiseEncryptionError_snd (n : Nat) (e : EncUnit) : (raiseEncryptionError n e).2 = encErrReply n := rfl
@[simp] theorem raiseEncryptionError_est (n : Nat) (e : EncUnit) : ((raiseEncryptionError n e).1).est = .failed := rfl
@[simp] theorem raiseEncryptionError_ebuf (n : Nat) (e : EncUnit) : ((raiseEncryptionError n e).1).ebuf =
    e.ebuf := rfl
@[simp] theorem raiseEncryptionError_elen (n : Nat) (e : EncUnit) : ((raiseEncryptionError n e).1).elen =
    e.elen := rfl
@[simp] theorem raiseEncryptionError_echain (n : Nat) (e : EncUnit) : ((raiseEncryptionError n e).1).echain =
    e.echain := rfl
@[simp] theorem raiseEncryptionError_blockSize (n : Nat) (e : EncUnit) : ((raiseEncryptionError n e).1).blockSize =
    e.blockSize := rfl
@[simp] theorem raiseEncryptionError_cipher (n : Nat) (e : EncUnit) : ((raiseEncryptionError n e).1).cipher =
    e.cipher := rfl
@[simp] theorem raiseEncryptionError_rng (n : Nat) (e : EncUnit) : ((raiseEncryptionError n e).1).rng = e.rng := rfl
@[simp] theorem raiseEncryptionError_accept (n : Nat) (e : EncUnit) : ((raiseEncryptionError n e).1).accept =
    e.accept := rfl
@[simp] theorem raiseEncryptionError_snk (n : Nat) (e : EncUnit) : ((raiseEncryptionError n e).1).snk = e.snk := rfl
@[simp] theorem raiseEncryptionError_snkClosed (n : Nat) (e : EncUnit) : ((raiseEncryptionError n e).1).snkClosed =
    e.snkClosed := rfl
@[simp] theorem raiseEncryptionError_calls (n : Nat) (e : EncUnit) : ((raiseEncryptionError n e).1).calls =
    e.calls := rfl
@[simp] theorem raiseEncryptionError_draws (n : Nat) (e : EncUnit) : ((raiseEncryptionError n e).1).draws =
    e.draws := rfl

@[simp] theorem resetEnc_est (e : EncUnit) : (resetEnc e).est = .uninit := rfl
@[simp] theorem resetEnc_ebuf (e : EncUnit) : (resetEnc e).ebuf = freeBytes .enc e.draws e.blockSize := rfl
@[simp] theorem resetEnc_elen (e : EncUnit) : (resetEnc e).elen = 0 := rfl
@[simp] theorem resetEnc_echain (e : EncUnit) : (resetEnc e).echain =
    freeBytes .enc (e.draws + e.blockSize) e.blockSize := rfl
@[simp] theorem resetEnc_blockSize (e : EncUnit) : (resetEnc e).blockSize = e.blockSize := rfl
@[simp] theorem resetEnc_cipher (e : EncUnit) : (resetEnc e).cipher = e.cipher := rfl
@[simp] theorem resetEnc_rng (e : EncUnit) : (resetEnc e).rng = e.rng := rfl
@[simp] theorem resetEnc_accept (e : EncUnit) : (resetEnc e).accept = e.accept := rfl
@[simp] theorem resetEnc_snk (e : EncUnit) : (resetEnc e).snk = e.snk := rfl
@[simp] theorem resetEnc_snkClosed (e : EncUnit) : (resetEnc e).snkClosed = e.snkClosed := rfl
@[simp] theorem resetEnc_calls (e : EncUnit) : (resetEnc e).calls = e.calls := rfl
@[simp] theorem resetEnc_draws (e : EncUnit) : (resetEnc e).draws = e.draws + 2 * e.blockSize := rfl

@[simp] theorem bindEnc_est (b : EncBinding) (e : EncUnit) : (bindEnc b e).est = e.est := rfl
@[simp] theorem bindEnc_ebuf (b : EncBinding) (e : EncUnit) : (bindEnc b e).ebuf = e.ebuf := rfl
@[simp] theorem bindEnc_elen (b : EncBinding) (e : EncUnit) : (bindEnc b e).elen = e.elen := rfl
@[simp] theorem bindEnc_echain (b : EncBinding) (e : EncUnit) : (bindEnc b e).echain = e.echain := rfl
@[simp] theorem bindEnc_blockSize (b : EncBinding) (e : EncUnit) : (bindEnc b e).blockSize = b.blockSize := rfl
@[simp] theorem bindEnc_cipher (b : EncBinding) (e : EncUnit) : (bindEnc b e).cipher = b.cipher := rfl
@[simp] theorem bindEnc_rng (b : EncBinding) (e : EncUnit) : (bindEnc b e).rng = b.rng := rfl
@[simp] theorem bindEnc_accept (b : EncBinding) (e : EncUnit) : (bindEnc b e).accept = b.accept := rfl
@[simp] theorem bindEnc_snk (b : EncBinding) (e : EncUnit) : (bindEnc b e).snk = [] := rfl
@[simp] theorem bindEnc_snkClosed (b : EncBinding) (e : EncUnit) : (bindEnc b e).snkClosed = false := rfl
@[simp] theorem bindEnc_calls (b : EncBinding) (e : EncUnit) : (bindEnc b e).calls = e.calls := rfl
@[simp] theorem bindEnc_draws (b : EncBinding) (e : EncUnit) : (bindEnc b e).draws = e.draws := rfl

/-! ## DEC -/

@[simp] theorem decCbcInit_dst (iv : List Byte) (d : DecUnit) : (decCbcInit iv d).dst = d.dst := rfl
@[simp] theorem decCbcInit_cur (iv : List Byte) (d : DecUnit) : (decCbcInit iv d).cur = d.cur := rfl
@[simp] theorem decCbcInit_cpos (iv : List Byte) (d : DecUnit) : (decCbcInit iv d).cpos = d.cpos := rfl
@[simp] theorem decCbcInit_clen (iv : List Byte) (d : DecUnit) : (decCbcInit iv d).clen = d.clen := rfl
@[simp] theorem decCbcInit_la (iv : List Byte) (d : DecUnit) : (decCbcInit iv d).la = d.la := rfl
@[simp] theorem decCbcInit_laLen (iv : List Byte) (d : DecUnit) : (decCbcInit iv d).laLen = d.laLen := rfl
@[simp] theorem decCbcInit_laValid (iv : List Byte) (d : DecUnit) : (decCbcInit iv d).laValid = d.laValid := rfl
@[simp] theorem decCbcInit_dchain (iv : List Byte) (d : DecUnit) : (decCbcInit iv d).dchain = iv := rfl
@[simp] theorem decCbcInit_blockSize (iv : List Byte) (d : DecUnit) : (decCbcInit iv d).blockSize = d.blockSize := rfl
@[simp] theorem decCbcInit_cipher (iv : List Byte) (d : DecUnit) : (decCbcInit iv d).cipher = d.cipher := rfl
@[simp] theorem decCbcInit_src (iv : List Byte) (d : DecUnit) : (decCbcInit iv d).src = d.src := rfl
@[simp] theorem decCbcInit_spos (iv : List Byte) (d : DecUnit) : (decCbcInit iv d).spos = d.spos := rfl
@[simp] theorem decCbcInit_srcClosed (iv : List Byte) (d : DecUnit) : (decCbcInit iv d).srcClosed = d.srcClosed := rfl
@[simp] theorem decCbcInit_calls (iv : List Byte) (d : DecUnit) : (decCbcInit iv d).calls =
    d.calls ++ [.cbcInit iv] := rfl
@[simp] theorem decCbcInit_draws (iv : List Byte) (d : DecUnit) : (decCbcInit iv d).draws = d.draws := rfl

@[simp] theorem cbcDecrypt_fst (c : List Byte) (d : DecUnit) : (cbcDecrypt c d).1 = cbcDecryptBlock c d := rfl
@[simp] theorem cbcDecrypt_dst (c : List Byte) (d : DecUnit) : ((cbcDecrypt c d).2).dst = d.dst := rfl
@[simp] theorem cbcDecrypt_cur (c : List Byte) (d : DecUnit) : ((cbcDecrypt c d).2).cur = d.cur := rfl
@[simp] theorem cbcDecrypt_cpos (c : List Byte) (d : DecUnit) : ((cbcDecrypt c d).2).cpos = d.cpos := rfl
@[simp] theorem cbcDecrypt_clen (c : List Byte) (d : DecUnit) : ((cbcDecrypt c d).2).clen = d.clen := rfl
@[simp] theorem cbcDecrypt_la (c : List Byte) (d : DecUnit) : ((cbcDecrypt c d).2).la = d.la := rfl
@[simp] theorem cbcDecrypt_laLen (c : List Byte) (d : DecUnit) : ((cbcDecrypt c d).2).laLen = d.laLen := rfl
@[simp] theorem cbcDecrypt_laValid (c : List Byte) (d : DecUnit) : ((cbcDecrypt c d).2).laValid = d.laValid := rfl
@[simp] theorem cbcDecrypt_dchain (c : List Byte) (d : DecUnit) : ((cbcDecrypt c d).2).dchain = c := rfl
@[simp] theorem cbcDecrypt_blockSize (c : List Byte) (d : DecUnit) : ((cbcDecrypt c d).2).blockSize =
    d.blockSize := rfl
@[simp] theorem cbcDecrypt_cipher (c : List Byte) (d : DecUnit) : ((cbcDecrypt c d).2).cipher = d.cipher := rfl
@[simp] theorem cbcDecrypt_src (c : List Byte) (d : DecUnit) : ((cbcDecrypt c d).2).src = d.src := rfl
@[simp] theorem cbcDecrypt_spos (c : List Byte) (d : DecUnit) : ((cbcDecrypt c d).2).spos = d.spos := rfl
@[simp] theorem cbcDecrypt_srcClosed (c : List Byte) (d : DecUnit) : ((cbcDecrypt c d).2).srcClosed =
    d.srcClosed := rfl
@[simp] theorem cbcDecrypt_calls (c : List Byte) (d : DecUnit) : ((cbcDecrypt c d).2).calls =
    d.calls ++ [.cbcDecrypt c (cbcDecryptBlock c d)] := rfl
@[simp] theorem cbcDecrypt_draws (c : List Byte) (d : DecUnit) : ((cbcDecrypt c d).2).draws = d.draws := rfl

@[simp] theorem srcRead_fst (n : Nat) (d : DecUnit) : (srcRead n d).1 = srcNext n d := rfl
@[simp] theorem srcRead_dst (n : Nat) (d : DecUnit) : ((srcRead n d).2).dst = d.dst := rfl
@[simp] theorem srcRead_cur (n : Nat) (d : DecUnit) : ((srcRead n d).2).cur = d.cur := rfl
@[simp] theorem srcRead_cpos (n : Nat) (d : DecUnit) : ((srcRead n d).2).cpos = d.cpos := rfl
@[simp] theorem srcRead_clen (n : Nat) (d : DecUnit) : ((srcRead n d).2).clen = d.clen := rfl
@[simp] theorem srcRead_la (n : Nat) (d : DecUnit) : ((srcRead n d).2).la = d.la := rfl
@[simp] theorem srcRead_laLen (n : Nat) (d : DecUnit) : ((srcRead n d).2).laLen = d.laLen := rfl
@[simp] theorem srcRead_laValid (n : Nat) (d : DecUnit) : ((srcRead n d).2).laValid = d.laValid := rfl
@[simp] theorem srcRead_dchain (n : Nat) (d : DecUnit) : ((srcRead n d).2).dchain = d.dchain := rfl
@[simp] theorem srcRead_blockSize (n : Nat) (d : DecUnit) : ((srcRead n d).2).blockSize = d.blockSize := rfl
@[simp] theorem srcRead_cipher (n : Nat) (d : DecUnit) : ((srcRead n d).2).cipher = d.cipher := rfl
@[simp] theorem srcRead_src (n : Nat) (d : DecUnit) : ((srcRead n d).2).src = d.src := rfl
@[simp] theorem srcRead_spos (n : Nat) (d : DecUnit) : ((srcRead n d).2).spos = d.spos + (srcNext n d).length := rfl
@[simp] theorem srcRead_srcClosed (n : Nat) (d : DecUnit) : ((srcRead n d).2).srcClosed = d.srcClosed := rfl
@[simp] theorem srcRead_calls (n : Nat) (d : DecUnit) : ((srcRead n d).2).calls =
    d.calls ++ [.srcRead n (srcNext n d)] := rfl
@[simp] theorem srcRead_draws (n : Nat) (d : DecUnit) : ((srcRead n d).2).draws = d.draws := rfl

@[simp] theorem srcClose_dst (d : DecUnit) : (srcClose d).dst = d.dst := rfl
@[simp] theorem srcClose_cur (d : DecUnit) : (srcClose d).cur = d.cur := rfl
@[simp] theorem srcClose_cpos (d : DecUnit) : (srcClose d).cpos = d.cpos := rfl
@[simp] theorem srcClose_clen (d : DecUnit) : (srcClose d).clen = d.clen := rfl
@[simp] theorem srcClose_la (d : DecUnit) : (srcClose d).la = d.la := rfl
@[simp] theorem srcClose_laLen (d : DecUnit) : (srcClose d).laLen = d.laLen := rfl
@[simp] theorem srcClose_laValid (d : DecUnit) : (srcClose d).laValid = d.laValid := rfl
@[simp] theorem srcClose_dchain (d : DecUnit) : (srcClose d).dchain = d.dchain := rfl
@[simp] theorem srcClose_blockSize (d : DecUnit) : (srcClose d).blockSize = d.blockSize := rfl
@[simp] theorem srcClose_cipher (d : DecUnit) : (srcClose d).cipher = d.cipher := rfl
@[simp] theorem srcClose_src (d : DecUnit) : (srcClose d).src = d.src := rfl
@[simp] theorem srcClose_spos (d : DecUnit) : (srcClose d).spos = d.spos := rfl
@[simp] theorem srcClose_srcClosed (d : DecUnit) : (srcClose d).srcClosed = true := rfl
@[simp] theorem srcClose_calls (d : DecUnit) : (srcClose d).calls = d.calls ++ [.srcClose] := rfl
@[simp] theorem srcClose_draws (d : DecUnit) : (srcClose d).draws = d.draws := rfl

@[simp] theorem deliver_dst (m : Nat) (d : DecUnit) : (deliver m d).dst =
    if d.cpos + m = d.clen ∧ d.dst = .draining then .drained else d.dst := rfl
@[simp] theorem deliver_cur (m : Nat) (d : DecUnit) : (deliver m d).cur = d.cur := rfl
@[simp] theorem deliver_cpos (m : Nat) (d : DecUnit) : (deliver m d).cpos = d.cpos + m := rfl
@[simp] theorem deliver_clen (m : Nat) (d : DecUnit) : (deliver m d).clen = d.clen := rfl
@[simp] theorem deliver_la (m : Nat) (d : DecUnit) : (deliver m d).la = d.la := rfl
@[simp] theorem deliver_laLen (m : Nat) (d : DecUnit) : (deliver m d).laLen = d.laLen := rfl
@[simp] theorem deliver_laValid (m : Nat) (d : DecUnit) : (deliver m d).laValid = d.laValid := rfl
@[simp] theorem deliver_dchain (m : Nat) (d : DecUnit) : (deliver m d).dchain = d.dchain := rfl
@[simp] theorem deliver_blockSize (m : Nat) (d : DecUnit) : (deliver m d).blockSize = d.blockSize := rfl
@[simp] theorem deliver_cipher (m : Nat) (d : DecUnit) : (deliver m d).cipher = d.cipher := rfl
@[simp] theorem deliver_src (m : Nat) (d : DecUnit) : (deliver m d).src = d.src := rfl
@[simp] theorem deliver_spos (m : Nat) (d : DecUnit) : (deliver m d).spos = d.spos := rfl
@[simp] theorem deliver_srcClosed (m : Nat) (d : DecUnit) : (deliver m d).srcClosed = d.srcClosed := rfl
@[simp] theorem deliver_calls (m : Nat) (d : DecUnit) : (deliver m d).calls = d.calls := rfl
@[simp] theorem deliver_draws (m : Nat) (d : DecUnit) : (deliver m d).draws = d.draws := rfl

@[simp] theorem decryptAndLookAhead_dst (blk : List Byte) (d : DecUnit) : (decryptAndLookAhead blk d).dst =
    d.dst := rfl
@[simp] theorem decryptAndLookAhead_cur (blk : List Byte) (d : DecUnit) : (decryptAndLookAhead blk d).cur =
    cbcDecryptBlock blk d := rfl
@[simp] theorem decryptAndLookAhead_cpos (blk : List Byte) (d : DecUnit) : (decryptAndLookAhead blk d).cpos = 0 := rfl
@[simp] theorem decryptAndLookAhead_clen (blk : List Byte) (d : DecUnit) : (decryptAndLookAhead blk d).clen =
    d.blockSize := rfl
@[simp] theorem decryptAndLookAhead_la (blk : List Byte) (d : DecUnit) : (decryptAndLookAhead blk d).la =
    overlay (srcNext d.blockSize d) d.la := rfl
@[simp] theorem decryptAndLookAhead_laLen (blk : List Byte) (d : DecUnit) : (decryptAndLookAhead blk d).laLen =
    (srcNext d.blockSize d).length := rfl
@[simp] theorem decryptAndLookAhead_laValid (blk : List Byte) (d : DecUnit) : (decryptAndLookAhead blk d).laValid =
    true := rfl
@[simp] theorem decryptAndLookAhead_dchain (blk : List Byte) (d : DecUnit) : (decryptAndLookAhead blk d).dchain =
    blk := rfl
@[simp] theorem decryptAndLookAhead_blockSize (blk : List Byte) (d : DecUnit) : (decryptAndLookAhead blk d).blockSize =
    d.blockSize := rfl
@[simp] theorem decryptAndLookAhead_cipher (blk : List Byte) (d : DecUnit) : (decryptAndLookAhead blk d).cipher =
    d.cipher := rfl
@[simp] theorem decryptAndLookAhead_src (blk : List Byte) (d : DecUnit) : (decryptAndLookAhead blk d).src =
    d.src := rfl
@[simp] theorem decryptAndLookAhead_spos (blk : List Byte) (d : DecUnit) : (decryptAndLookAhead blk d).spos =
    d.spos + (srcNext d.blockSize d).length := rfl
@[simp] theorem decryptAndLookAhead_srcClosed (blk : List Byte) (d : DecUnit) : (decryptAndLookAhead blk d).srcClosed =
    d.srcClosed := rfl
@[simp] theorem decryptAndLookAhead_calls (blk : List Byte) (d : DecUnit) : (decryptAndLookAhead blk d).calls =
    d.calls ++ [.cbcDecrypt blk (cbcDecryptBlock blk d)] ++ [.srcRead d.blockSize (srcNext d.blockSize d)] := rfl
@[simp] theorem decryptAndLookAhead_draws (blk : List Byte) (d : DecUnit) : (decryptAndLookAhead blk d).draws =
    d.draws := rfl

@[simp] theorem raiseDecryptionError_snd (out : List Byte) (d : DecUnit) : (raiseDecryptionError out d).2 =
    decErrReply out := rfl
@[simp] theorem raiseDecryptionError_dst (out : List Byte) (d : DecUnit) : ((raiseDecryptionError out d).1).dst =
    .failed := rfl
@[simp] theorem raiseDecryptionError_cur (out : List Byte) (d : DecUnit) : ((raiseDecryptionError out d).1).cur =
    d.cur := rfl
@[simp] theorem raiseDecryptionError_cpos (out : List Byte) (d : DecUnit) : ((raiseDecryptionError out d).1).cpos =
    d.cpos := rfl
@[simp] theorem raiseDecryptionError_clen (out : List Byte) (d : DecUnit) : ((raiseDecryptionError out d).1).clen =
    d.clen := rfl
@[simp] theorem raiseDecryptionError_la (out : List Byte) (d : DecUnit) : ((raiseDecryptionError out d).1).la =
    d.la := rfl
@[simp] theorem raiseDecryptionError_laLen (out : List Byte) (d : DecUnit) : ((raiseDecryptionError out d).1).laLen =
    d.laLen := rfl
@[simp] theorem raiseDecryptionError_laValid (out : List Byte) (d : DecUnit) : ((raiseDecryptionError out d).1).laValid =
    d.laValid := rfl
@[simp] theorem raiseDecryptionError_dchain (out : List Byte) (d : DecUnit) : ((raiseDecryptionError out d).1).dchain =
    d.dchain := rfl
@[simp] theorem raiseDecryptionError_blockSize (out : List Byte) (d : DecUnit) : ((raiseDecryptionError out d).1).blockSize =
    d.blockSize := rfl
@[simp] theorem raiseDecryptionError_cipher (out : List Byte) (d : DecUnit) : ((raiseDecryptionError out d).1).cipher =
    d.cipher := rfl
@[simp] theorem raiseDecryptionError_src (out : List Byte) (d : DecUnit) : ((raiseDecryptionError out d).1).src =
    d.src := rfl
@[simp] theorem raiseDecryptionError_spos (out : List Byte) (d : DecUnit) : ((raiseDecryptionError out d).1).spos =
    d.spos := rfl
@[simp] theorem raiseDecryptionError_srcClosed (out : List Byte) (d : DecUnit) : ((raiseDecryptionError out d).1).srcClosed =
    d.srcClosed := rfl
@[simp] theorem raiseDecryptionError_calls (out : List Byte) (d : DecUnit) : ((raiseDecryptionError out d).1).calls =
    d.calls := rfl
@[simp] theorem raiseDecryptionError_draws (out : List Byte) (d : DecUnit) : ((raiseDecryptionError out d).1).draws =
    d.draws := rfl

@[simp] theorem resetDec_dst (d : DecUnit) : (resetDec d).dst = .uninit := rfl
@[simp] theorem resetDec_cur (d : DecUnit) : (resetDec d).cur = freeBytes .dec d.draws d.blockSize := rfl
@[simp] theorem resetDec_cpos (d : DecUnit) : (resetDec d).cpos = 0 := rfl
@[simp] theorem resetDec_clen (d : DecUnit) : (resetDec d).clen = 0 := rfl
@[simp] theorem resetDec_la (d : DecUnit) : (resetDec d).la =
    freeBytes .dec (d.draws + d.blockSize) d.blockSize := rfl
@[simp] theorem resetDec_laLen (d : DecUnit) : (resetDec d).laLen = 0 := rfl
@[simp] theorem resetDec_laValid (d : DecUnit) : (resetDec d).laValid = false := rfl
@[simp] theorem resetDec_dchain (d : DecUnit) : (resetDec d).dchain =
    freeBytes .dec (d.draws + 2 * d.blockSize) d.blockSize := rfl
@[simp] theorem resetDec_blockSize (d : DecUnit) : (resetDec d).blockSize = d.blockSize := rfl
@[simp] theorem resetDec_cipher (d : DecUnit) : (resetDec d).cipher = d.cipher := rfl
@[simp] theorem resetDec_src (d : DecUnit) : (resetDec d).src = d.src := rfl
@[simp] theorem resetDec_spos (d : DecUnit) : (resetDec d).spos = d.spos := rfl
@[simp] theorem resetDec_srcClosed (d : DecUnit) : (resetDec d).srcClosed = d.srcClosed := rfl
@[simp] theorem resetDec_calls (d : DecUnit) : (resetDec d).calls = d.calls := rfl
@[simp] theorem resetDec_draws (d : DecUnit) : (resetDec d).draws = d.draws + 3 * d.blockSize := rfl

@[simp] theorem bindDec_dst (b : DecBinding) (d : DecUnit) : (bindDec b d).dst = d.dst := rfl
@[simp] theorem bindDec_cur (b : DecBinding) (d : DecUnit) : (bindDec b d).cur = d.cur := rfl
@[simp] theorem bindDec_cpos (b : DecBinding) (d : DecUnit) : (bindDec b d).cpos = d.cpos := rfl
@[simp] theorem bindDec_clen (b : DecBinding) (d : DecUnit) : (bindDec b d).clen = d.clen := rfl
@[simp] theorem bindDec_la (b : DecBinding) (d : DecUnit) : (bindDec b d).la = d.la := rfl
@[simp] theorem bindDec_laLen (b : DecBinding) (d : DecUnit) : (bindDec b d).laLen = d.laLen := rfl
@[simp] theorem bindDec_laValid (b : DecBinding) (d : DecUnit) : (bindDec b d).laValid = d.laValid := rfl
@[simp] theorem bindDec_dchain (b : DecBinding) (d : DecUnit) : (bindDec b d).dchain = d.dchain := rfl
@[simp] theorem bindDec_blockSize (b : DecBinding) (d : DecUnit) : (bindDec b d).blockSize = b.blockSize := rfl
@[simp] theorem bindDec_cipher (b : DecBinding) (d : DecUnit) : (bindDec b d).cipher = b.cipher := rfl
@[simp] theorem bindDec_src (b : DecBinding) (d : DecUnit) : (bindDec b d).src = b.src := rfl
@[simp] theorem bindDec_spos (b : DecBinding) (d : DecUnit) : (bindDec b d).spos = 0 := rfl
@[simp] theorem bindDec_srcClosed (b : DecBinding) (d : DecUnit) : (bindDec b d).srcClosed = false := rfl
@[simp] theorem bindDec_calls (b : DecBinding) (d : DecUnit) : (bindDec b d).calls = d.calls := rfl
@[simp] theorem bindDec_draws (b : DecBinding) (d : DecUnit) : (bindDec b d).draws = d.draws := rfl

/-! ## The machine -/

@[simp] theorem post_enc (r : Reply) (s : State) : (post r s).enc = s.enc := rfl
@[simp] theorem post_dec (r : Reply) (s : State) : (post r s).dec = s.dec := rfl
@[simp] theorem post_pending (r : Reply) (s : State) : (post r s).pending = s.pending := rfl
@[simp] theorem post_wdata (r : Reply) (s : State) : (post r s).wdata = [] := rfl
@[simp] theorem post_rspLog (r : Reply) (s : State) : (post r s).rspLog = s.rspLog ++ [response r] := rfl

@[simp] theorem finishEnc_enc (r : EncUnit × Reply) (s : State) : (finishEnc r s).enc = r.1 := rfl
@[simp] theorem finishEnc_dec (r : EncUnit × Reply) (s : State) : (finishEnc r s).dec = s.dec := rfl
@[simp] theorem finishEnc_pending (r : EncUnit × Reply) (s : State) : (finishEnc r s).pending = s.pending := rfl
@[simp] theorem finishEnc_wdata (r : EncUnit × Reply) (s : State) : (finishEnc r s).wdata = [] := rfl
@[simp] theorem finishEnc_rspLog (r : EncUnit × Reply) (s : State) : (finishEnc r s).rspLog =
    s.rspLog ++ [response r.2] := rfl

@[simp] theorem finishDec_enc (r : DecUnit × Reply) (s : State) : (finishDec r s).enc = s.enc := rfl
@[simp] theorem finishDec_dec (r : DecUnit × Reply) (s : State) : (finishDec r s).dec = r.1 := rfl
@[simp] theorem finishDec_pending (r : DecUnit × Reply) (s : State) : (finishDec r s).pending = s.pending := rfl
@[simp] theorem finishDec_wdata (r : DecUnit × Reply) (s : State) : (finishDec r s).wdata = [] := rfl
@[simp] theorem finishDec_rspLog (r : DecUnit × Reply) (s : State) : (finishDec r s).rspLog =
    s.rspLog ++ [response r.2] := rfl

end Sys2Proof.Machine
end

