-- ==== Sys2Proof/Laws/Flags.lean ====
section
/-! SUPPORT. The fields of a response word and the responses of fixed replies (30_encoding.md R84, R85). -/

namespace Sys2Proof.Machine

theorem statusField_responseWord (st : Status) (c : Nat) : statusField (responseWord st c) = statusCode st := by
  unfold statusField responseWord
  apply BitVec.eq_of_getLsbD_eq
  intro i hi
  rw [BitVec.getLsbD_extractLsb']
  erw [BitVec.getLsbD_append, BitVec.getLsbD_append]
  simp [hi, show ¬ (28 + i < 24) by omega, show 28 + i - 24 - 4 = i by omega, show ¬ (28 + i - 24 < 4) by omega]

theorem countField_responseWord (st : Status) (c : Nat) (h : c < 2 ^ 24) : countField (responseWord st c) = c := by
  have : (responseWord st c).extractLsb' 0 24 = BitVec.ofNat 24 c := by
    unfold responseWord
    apply BitVec.eq_of_getLsbD_eq
    intro i hi
    rw [BitVec.getLsbD_extractLsb']
    erw [BitVec.getLsbD_append]
    simp [hi]
  unfold countField
  rw [this]; simp [BitVec.toNat_ofNat]; omega

theorem zeroField_responseWord (st : Status) (c : Nat) : zeroField (responseWord st c) = 0#4 := by
  unfold zeroField responseWord
  apply BitVec.eq_of_getLsbD_eq
  intro i hi
  rw [BitVec.getLsbD_extractLsb']
  erw [BitVec.getLsbD_append, BitVec.getLsbD_append]
  simp [hi, show ¬ (24 + i < 24) by omega]

theorem statusCode_inj {a b : Status} (h : statusCode a = statusCode b) :
    a = b := by revert h; cases a <;> cases b <;> decide

theorem readStatus_ne_err (x : DecState) : readStatus x ≠ .decErr := by cases x <;> simp [readStatus]

@[simp] theorem response_invalid : response invalidReply = { word := 0xF0000000#32, data := [] } := by decide

@[simp] theorem response_encErr_zero : response (encErrReply 0) = { word := 0x20000000#32, data := [] } := by decide

@[simp] theorem response_decErr_nil : response (decErrReply []) = { word := 0x30000000#32, data := [] } := by decide

@[simp] theorem response_ok_zero : response (okReply 0) = { word := 0x00000000#32, data := [] } := by decide

theorem response_invalid_iff {r : Reply} (h : response r = { word := 0xF0000000#32, data := [] }) :
    r.status = .invalid := by
  have := congrArg (fun x => statusField x.word) h
  simp only [response, statusField_responseWord] at this
  exact statusCode_inj (b := .invalid) (this.trans (by decide))

theorem cleanResponse_iff (r : Reply) : cleanResponse (response r) = true ↔ r.status = .ok ∨ r.status = .eos := by
  unfold cleanResponse response
  rw [statusField_responseWord]
  cases r.status <;> decide

end Sys2Proof.Machine
end

