-- ==== Sys2Proof/Laws/Operands.lean ====
section
/-! SUPPORT. The payload operand: itself when it has `len` bytes (30_encoding.md R83). -/

namespace Sys2Proof.Machine

theorem length_freeBytes (u : UnitId) (k n : Nat) : (freeBytes u k n).length = n := by simp [freeBytes]

/-- A partner that presented the bytes it owes is taken at its word. -/
theorem exactBytes_of_length {u : UnitId} {k n : Nat} {bs : List Byte} (h : bs.length = n) :
    exactBytes u k n bs = bs := by
  subst h; simp [exactBytes, freeBytes]

theorem length_exactBytes (u : UnitId) (k n : Nat) (bs : List Byte) : (exactBytes u k n bs).length = n := by
  simp [exactBytes, length_freeBytes]; omega

/-- The payload of `EWRITE len` is what stands on WDATA when that has `len` bytes. -/
theorem payload_of_length {len : Nat} {bs : List Byte} {e : EncUnit} (h : bs.length = len) : payload len bs e = bs :=
  exactBytes_of_length h

theorem afterPayload_of_length {len : Nat} {bs : List Byte} {e : EncUnit} (h : bs.length = len) :
    afterPayload len bs e = e := by
  subst h; simp [afterPayload]

end Sys2Proof.Machine
end

