-- ==== Sys2Proof/Laws/Ops.lean ====
section
/-! SUPPORT. The shared operations: buffers, the block cipher, CBC, and the collaborators
(43_collaborator_primitives.md). -/

namespace Sys2Proof.Machine

theorem length_overlay {s buf : List Byte} (h : s.length ≤ buf.length) :
    (overlay s buf).length = buf.length := by simp [overlay]; omega

theorem take_overlay (s buf : List Byte) : (overlay s buf).take s.length = s := by simp [overlay]

theorem slice_self (x : List Byte) (i : Nat) : slice x i i = [] := by simp [slice]

theorem slice_append (x : List Byte) (i j k : Nat) (h1 : i ≤ j) (h2 : j ≤ k) :
    slice x i j ++ slice x j k = slice x i k := by
  unfold slice
  have : x.take k = x.take j ++ (x.drop j).take (k - j) := by
    rw [← List.take_add]; congr 1; omega
  rw [this, List.drop_append, List.drop_append]
  by_cases hj : j ≤ x.length
  · have hl : (x.take j).length = j := by simp [hj]
    rw [hl]; simp [show i - j = 0 by omega]
  · have : x.drop j = [] := List.drop_of_length_le (by omega)
    simp [this]

theorem slice_prefix (x : List Byte) (i m k : Nat) (h : i + m ≤ k) : slice x i (i + m) = (slice x i k).take m := by
  unfold slice
  rw [List.take_drop, List.take_take, Nat.min_eq_left h]

theorem slice_suffix (x : List Byte) (i m k : Nat) (h : i + m ≤ k) : slice x (i + m) k = (slice x i k).drop m := by
  unfold slice; rw [List.drop_drop]

theorem take_full_eq {x y : List Byte} {n : Nat} (h : x.take n = y.take n) (hx : x.length = n) (hy : y.length = n) :
    x = y := by
  rw [List.take_of_length_le (by omega), List.take_of_length_le (by omega)] at h; exact h

theorem set_take_succ {x : List Byte} {n : Nat} {b : Byte} (h : n < x.length) : (x.set n b).take
    (n + 1) = x.take n ++ [b] := by
  rw [List.take_add_one, List.getElem?_set_self h, List.take_set_of_le (Nat.le_refl _)]; rfl

theorem length_comb {x v : List Byte} : (comb x v).length = min x.length v.length := by simp [comb]

/-- Combining twice with the same block is the identity (R205). -/
theorem comb_comb {x v : List Byte} (h : x.length = v.length) : comb (comb x v) v = x := by
  apply List.ext_getElem
  · simp [comb]; omega
  · intro i h1 h2
    simp only [comb, List.getElem_zipWith]
    rw [BitVec.xor_assoc, BitVec.xor_self, BitVec.xor_zero]

theorem length_rotateLeft1 (x : List Byte) : (x.rotateLeft 1).length = x.length := by
  unfold List.rotateLeft
  simp only
  split
  · rfl
  · simp only [List.length_append, List.length_drop, List.length_take]
    have := Nat.mod_lt 1 (show 0 < x.length by omega)
    omega

theorem length_rotateRight1 (x : List Byte) : (x.rotateRight 1).length = x.length := by
  unfold List.rotateRight
  simp only
  split
  · rfl
  · simp only [List.length_append, List.length_drop, List.length_take]
    have := Nat.mod_lt 1 (show 0 < x.length by omega)
    omega

theorem rotateRight_map (f : Byte → Byte) (x : List Byte) : (x.map f).rotateRight 1 = (x.rotateRight 1).map f := by
  unfold List.rotateRight
  simp only [List.length_map]
  split
  · rfl
  · simp

theorem rotateRight_rotateLeft1 (x : List Byte) : (x.rotateLeft 1).rotateRight 1 = x := by
  by_cases h : x.length ≤ 1
  · simp [List.rotateLeft, List.rotateRight, h]
  · have hm : 1 % x.length = 1 := Nat.mod_eq_of_lt (by omega)
    have hl := length_rotateLeft1 x
    unfold List.rotateRight
    simp only [hl, hm, h, if_false]
    simp only [List.rotateLeft, hm, h, if_false]
    have : x.length - 1 = (x.drop 1).length := by simp
    rw [this, List.drop_left, List.take_left, List.take_append_drop]

theorem length_cipherE (c : Cipher) (n : Nat) (x : List Byte) (h : x.length = n) : (cipherE c n x).length = n := by
  cases c with
  | keyed k => simp only [cipherE, h, dite_true]; exact (Config.cipherPerm n k ⟨x, h⟩).2
  | toyIdentity => exact h
  | toyRotate => simp [cipherE, length_rotateLeft1, h]

theorem length_cipherD (c : Cipher) (n : Nat) (x : List Byte) (h : x.length = n) : (cipherD c n x).length = n := by
  cases c with
  | keyed k => simp only [cipherD, h, dite_true]; exact ((Config.cipherPerm n k).symm ⟨x, h⟩).2
  | toyIdentity => exact h
  | toyRotate => simp [cipherD, length_rotateRight1, h]

/-- `D_K(E_K(x)) = x` (R204), for every cipher the engine may hold. -/
theorem cipherD_cipherE (c : Cipher) (n : Nat) (x : List Byte) (h : x.length = n) : cipherD c n
    (cipherE c n x) = x := by
  cases c with
  | keyed k =>
    have := (Config.cipherPerm n k ⟨x, h⟩).2
    simp only [cipherE, cipherD, h, dite_true, this]
    simp
  | toyIdentity => rfl
  | toyRotate =>
    simp only [cipherE, cipherD, rotateRight_map, rotateRight_rotateLeft1, List.map_map]
    conv => rhs; rw [← List.map_id x]
    apply List.map_congr_left
    intro a _
    simp

theorem nextAccept_le (n e) : nextAccept n e ≤ n := by unfold nextAccept; omega

/-- A scheduled answer of the sink, cut to the bytes offered. -/
theorem nextAccept_scheduled {n : Nat} {e : EncUnit} {a : Nat} {rest : List Nat} (h : e.accept = a :: rest) :
    nextAccept n e = min a n := by
  simp [nextAccept, h]

theorem nextRandom_length {n : Nat} {e : EncUnit} {bs : List Byte} (h : nextRandom n e = some bs) :
    bs.length = n := by
  unfold nextRandom at h
  split at h
  · simp at h
  · simp at h; rw [← h, length_exactBytes]
  · split at h
    · simp at h
    · simp at h; rw [← h, length_freeBytes]

/-- A scheduled answer of the random source that has its `B` bytes is given as it is and costs no free value. -/
theorem nextRandom_of {iv : List Byte} {e : EncUnit} (h : randomAnswers iv e) : nextRandom e.blockSize e = some iv ∧
    randomDraws e.blockSize e = 0 := by
  obtain ⟨h1, rest, h2⟩ := h
  unfold nextRandom randomDraws
  rw [h2]; simp [exactBytes_of_length h1, h1]

theorem length_srcNext (n : Nat) (d : DecUnit) : (srcNext n d).length = min n
    (d.src.length - d.spos) := by simp [srcNext]

/-- What the source gives next are the bytes from its position on. -/
theorem srcNext_slice (n : Nat) (d : DecUnit) : srcNext n d = slice d.src d.spos (d.spos + (srcNext n d).length) := by
  rw [length_srcNext]
  simp only [srcNext, slice]
  apply List.ext_getElem
  · simp; omega
  · intro i h1 h2; simp

end Sys2Proof.Machine
end

