-- ==== Sys2Proof/Laws/Padding.lean ====
section
/-! SUPPORT. PaddingCodec (40_padding_codec.md R111 to R119). -/

namespace Sys2Proof.Machine

/-- Padding an empty residue gives `rep(B, B)` (R111). -/
theorem padAdd_zero (B : Nat) (block : List Byte) : (padAdd B block 0).1 = List.replicate B (BitVec.ofNat 8 B) := by
  simp [padAdd, padCount]

/-- `PadRemove` looks at the last byte only (R113). -/
theorem padRemove_append (front : List Byte) (k : Byte) :
   padRemove (front ++ [k]) = if k.toNat > front.length + 1 then none else some
    ((front ++ [k]).take (front.length + 1 - k.toNat)) := by
  simp [padRemove]

/-- Stripping undoes `q` pad bytes of value `q` (R116). -/
theorem padRemove_pad {x : List Byte} {q : Nat} (h1 : 1 ≤ q) (h2 : q ≤ 255) :
    padRemove (x ++ List.replicate q (BitVec.ofNat 8 q)) = some x := by
  obtain ⟨n, rfl⟩ : ∃ n, q = n + 1 := ⟨q - 1, by omega⟩
  have : (x ++ List.replicate (n+1) (BitVec.ofNat 8 (n+1))) = (x ++ List.replicate n (BitVec.ofNat 8 (n+1))) ++
      [BitVec.ofNat 8 (n+1)] := by
    rw [List.replicate_succ', List.append_assoc]
  have hk : (BitVec.ofNat 8 (n+1)).toNat = n + 1 := by
    rw [BitVec.toNat_ofNat]; omega
  rw [this, padRemove_append, hk, if_neg (by simp)]
  simp

theorem padRemove_length {x r : List Byte} (h : padRemove x = some r) : r.length ≤ x.length ∧
    r = x.take r.length := by
  unfold padRemove at h
  split at h
  · cases h; simp
  · split at h
    · simp at h
    · cases h; constructor
      · simp
      · simp

/-- `Unpad` strips the last block only (R119). -/
theorem unpad_append {B : Nat} {x y : List Byte} (hB : 1 ≤ B) (hy : y.length = B) :
    unpadMessage B (x ++ y) = (padRemove y).map fun r => x ++ r := by
  unfold unpadMessage
  rw [if_neg (by intro h; simp at h; simp [h] at hy; omega)]
  simp [hy]

theorem padMessage_split {B : Nat} (p : List Byte) (hB : 1 ≤ B) :
   padMessage B p = p.take (B * (p.length / B)) ++
    (p.drop (B * (p.length / B)) ++ List.replicate (B - p.length % B) (BitVec.ofNat 8 (B - p.length % B))) := by
  simp only [padMessage, padCount]
  rw [← List.append_assoc, List.take_append_drop]

end Sys2Proof.Machine
end

