-- ==== Sys2Proof/Laws/Stream.lean ====
section
/-! SUPPORT. The whole-stream functions: full blocks, CBC over a list of blocks, and the calls that go with it (41
R135, 42 R166, 43 R212). -/

namespace Sys2Proof.Machine

theorem fullBlocks_of_lt {B : Nat} {m : List Byte} (h : m.length < B) : fullBlocks B m = [] := by
  simp [fullBlocks, Nat.div_eq_of_lt h]

theorem fullBlocks_of_eq {B : Nat} {m : List Byte} (hB : 1 ≤ B) (h : m.length = B) : fullBlocks B m = [m] := by
  have : m.length / B = 1 := by rw [h]; exact Nat.div_self hB
  simp only [fullBlocks, this]
  simp [← h]

/-- Full blocks of a join, when the first part ends on a block boundary. -/
theorem fullBlocks_append {B : Nat} {x y : List Byte} (hB : 1 ≤ B) (h : B ∣ x.length) :
    fullBlocks B (x ++ y) = fullBlocks B x ++ fullBlocks B y := by
  obtain ⟨k, hk⟩ := h
  have h1 : (x ++ y).length / B = k + y.length / B := by
    rw [List.length_append, hk, Nat.mul_add_div hB]
  have h2 : x.length / B = k := by rw [hk, Nat.mul_div_cancel_left _ hB]
  simp only [fullBlocks]
  rw [h1, h2, List.range_add, List.map_append, List.map_map]
  congr 1
  · apply List.map_congr_left
    intro i hi
    have hi := List.mem_range.1 hi
    have h3 : B * i + B ≤ x.length := by
      rw [hk]; calc B * i + B = B * (i+1) := by ring
        _ ≤ B * k := Nat.mul_le_mul_left _ hi
    rw [List.drop_append_of_le_length (by omega), List.take_append_of_le_length (by simp; omega)]
  · apply List.map_congr_left
    intro i hi
    simp only [Function.comp]
    rw [Nat.mul_add, List.drop_append, ← hk]
    rw [List.drop_of_length_le (by omega)]; simp

theorem length_fullBlocks (B : Nat) (m : List Byte) : (fullBlocks B m).length = m.length / B := by simp [fullBlocks]

theorem mem_fullBlocks {B : Nat} {m x : List Byte} (h : x ∈ fullBlocks B m) : x.length = B := by
  simp only [fullBlocks, List.mem_map, List.mem_range] at h
  obtain ⟨i, hi, rfl⟩ := h
  rcases Nat.eq_zero_or_pos B with rfl | hB
  · simp
  have : B * (i+1) ≤ m.length := le_trans (Nat.mul_le_mul_left _ hi) (Nat.mul_div_le _ _)
  rw [Nat.mul_add] at this
  simp; omega

theorem fullBlocks_flatten {B : Nat} {xs : List (List Byte)} (hB : 1 ≤ B) (h : ∀ x ∈ xs, x.length = B) :
    fullBlocks B xs.flatten = xs := by
  induction xs with
  | nil => simp [fullBlocks]
  | cons x xs ih =>
    have hx := h x (by simp)
    rw [List.flatten_cons, fullBlocks_append hB (by rw [hx]), fullBlocks_of_eq hB hx,
        ih (fun y hy => h y (by simp [hy]))]
    rfl

theorem flatten_fullBlocks {B : Nat} (m : List Byte) (hB : 1 ≤ B) : (fullBlocks B m).flatten = m.take
    (B * (m.length / B)) := by
  induction hn : m.length / B generalizing m with
  | zero => 
    have : fullBlocks B m = [] := by simp [fullBlocks, hn]
    simp [this]
  | succ n ih =>
    have hl : B ≤ m.length := by
      by_contra hc
      rw [Nat.div_eq_of_lt (by omega)] at hn; omega
    have h1 : (m.take B).length = B := by simp; omega
    have h2 : (m.drop B).length / B = n := by
      have : m.length = B + (m.drop B).length := by simp; omega
      rw [this, Nat.add_div_left _ hB] at hn; omega
    conv => lhs; rw [← List.take_append_drop B m]
    rw [fullBlocks_append hB (by rw [h1]), fullBlocks_of_eq hB h1, List.flatten_append, ih _ h2]
    simp only [List.flatten_cons, List.flatten_nil, List.append_nil]
    rw [Nat.mul_add, Nat.mul_one, Nat.add_comm, List.take_add]

theorem fullBlocks_take {B : Nat} (m : List Byte) (hB : 1 ≤ B) : fullBlocks B
    (m.take (B * (m.length / B))) = fullBlocks B m := by
  rw [← flatten_fullBlocks m hB, fullBlocks_flatten hB (fun x h => mem_fullBlocks h)]

/-- One more byte completes a block or does not. -/
theorem fullBlocks_snoc {B : Nat} {p : List Byte} {b : Byte} (hp : 1 ≤ B) :
   (p.length % B + 1 = B → fullBlocks B (p ++ [b]) = fullBlocks B p ++ [p.drop (B * (p.length / B)) ++ [b]]) ∧
   (p.length % B + 1 ≠ B → fullBlocks B (p ++ [b]) = fullBlocks B p) := by
  have hdm := Nat.div_add_mod p.length B
  have hlt := Nat.mod_lt p.length hp
  have hle : B * (p.length / B) ≤ p.length := Nat.mul_div_le _ _
  have hx : p ++ [b] = p.take (B * (p.length / B)) ++ (p.drop (B * (p.length / B)) ++ [b]) := by
    rw [← List.append_assoc, List.take_append_drop]
  have key : fullBlocks B (p ++ [b]) = fullBlocks B p ++ fullBlocks B (p.drop (B * (p.length / B)) ++ [b]) := by
    conv => lhs; rw [hx]
    rw [fullBlocks_append hp (by rw [List.length_take, Nat.min_eq_left hle]; exact ⟨_, rfl⟩), fullBlocks_take _ hp]
  constructor
  · intro h
    rw [key]; congr 1; apply fullBlocks_of_eq hp
    rw [List.length_append, List.length_drop, List.length_singleton]; omega
  · intro h
    rw [key, show fullBlocks B (p.drop (B * (p.length / B)) ++ [b]) = [] from ?_, List.append_nil]
    apply fullBlocks_of_lt
    rw [List.length_append, List.length_drop, List.length_singleton]; omega

theorem fullBlocks_take_mul {B : Nat} (m : Nat) (t : List Byte) (hB : 1 ≤ B) (h : B * m ≤ t.length) :
    (fullBlocks B t).take m = fullBlocks B (t.take (B * m)) := by
  have hl : (t.take (B * m)).length = B * m := by simp [h]
  conv => lhs; rw [← List.take_append_drop (B * m) t]
  rw [fullBlocks_append hB (by rw [hl]; exact ⟨m, rfl⟩)]
  have : (fullBlocks B (t.take (B * m))).length = m := by rw [length_fullBlocks, hl, Nat.mul_div_cancel_left _ hB]
  rw [List.take_append_of_le_length (by omega), List.take_of_length_le (by omega)]

theorem fullBlocks_take_succ {B : Nat} (m : Nat) (t : List Byte) (hB : 1 ≤ B) (h : B * (m + 1) ≤ t.length) :
    (fullBlocks B t).take (m + 1) = (fullBlocks B t).take m ++ [(t.drop (B * m)).take B] := by
  have h2 : B * (m+1) = B * m + B := by ring
  rw [fullBlocks_take_mul _ _ hB h, fullBlocks_take_mul _ _ hB (by omega), h2, List.take_add]
  rw [fullBlocks_append hB (by rw [List.length_take, Nat.min_eq_left (by omega)]; exact ⟨m, rfl⟩)]
  congr 1
  apply fullBlocks_of_eq hB
  simp; omega

theorem fullBlocks_drop {B : Nat} (m : Nat) (t : List Byte) (hB : 1 ≤ B) (h : B * (m + 1) ≤ t.length) :
    (fullBlocks B t).drop m = (t.drop (B * m)).take B :: (fullBlocks B t).drop (m + 1) := by
  have h1 : m < (fullBlocks B t).length :=
      by rw [length_fullBlocks]; exact (Nat.le_div_iff_mul_le hB).2 (by rw [Nat.mul_comm]; exact h)
  have h2 := fullBlocks_take_succ m t hB h
  rw [List.take_succ_eq_append_getElem h1, List.append_cancel_left_eq] at h2
  rw [List.drop_eq_getElem_cons h1]
  simp at h2
  simp [h2]

theorem chainAfter_nil (v : List Byte) : chainAfter v [] = v := rfl

theorem chainAfter_cons (v x : List Byte) (xs : List (List Byte)) : chainAfter v (x :: xs) = chainAfter x xs := by
  cases xs <;> simp [chainAfter, List.getLastD]

theorem chainAfter_concat (v x : List Byte) (xs : List (List Byte)) : chainAfter v (xs ++ [x]) = x := by
  simp [chainAfter]

theorem chainAfter_take {B : Nat} (m : Nat) (iv t : List Byte) (hB : 1 ≤ B) (hiv : iv.length = B)
    (h : B * m ≤ t.length) :
    chainAfter iv ((fullBlocks B t).take m) = ((iv ++ t).drop (B * m)).take B := by
  cases m with
  | zero => simp [chainAfter_nil, ← hiv]
  | succ m =>
    rw [fullBlocks_take_succ _ _ hB h, chainAfter_concat]
    have h2 : B * (m+1) = iv.length + B * m := by rw [hiv]; ring
    rw [h2, ← List.drop_drop, List.drop_left]

/-- CBC over a join goes on from the chaining value the first part leaves. -/
theorem cbcEncryptAll_append (c : Cipher) (B : Nat) (v : List Byte) (xs ys : List (List Byte)) :
    cbcEncryptAll c B v (xs ++ ys) = cbcEncryptAll c B v xs ++ cbcEncryptAll c B
    (chainAfter v (cbcEncryptAll c B v xs)) ys := by
  induction xs generalizing v with
  | nil => simp [cbcEncryptAll, chainAfter_nil]
  | cons x xs ih => simp [cbcEncryptAll, ih, chainAfter_cons]

theorem length_cbcEncryptAll (c : Cipher) (B : Nat) (v : List Byte) (xs : List (List Byte)) :
    (cbcEncryptAll c B v xs).length = xs.length := by
  induction xs generalizing v with
  | nil => rfl
  | cons x xs ih => simp [cbcEncryptAll, ih]

theorem mem_cbcEncryptAll {c : Cipher} {B : Nat} {v : List Byte} {xs : List (List Byte)} (hv : v.length = B)
    (hx : ∀ x ∈ xs, x.length = B) :
   ∀ y ∈ cbcEncryptAll c B v xs, y.length = B := by
  induction xs generalizing v with
  | nil => simp [cbcEncryptAll]
  | cons x xs ih =>
    intro y hy
    simp only [cbcEncryptAll, List.mem_cons] at hy
    have hxl : (cipherE c B (comb x v)).length = B := length_cipherE _ _ _ (by simp [length_comb, hv, hx x (by simp)])
    rcases hy with rfl | hy
    · exact hxl
    · exact ih hxl (fun z hz => hx z (by simp [hz])) y hy

theorem cbcDecryptAll_append (c : Cipher) (B : Nat) (v : List Byte) (xs ys : List (List Byte)) :
    cbcDecryptAll c B v (xs ++ ys) = cbcDecryptAll c B v xs ++ cbcDecryptAll c B (chainAfter v xs) ys := by
  induction xs generalizing v with
  | nil => simp [cbcDecryptAll, chainAfter_nil]
  | cons x xs ih => simp [cbcDecryptAll, ih, chainAfter_cons]

theorem length_cbcDecryptAll (c : Cipher) (B : Nat) (v : List Byte) (xs : List (List Byte)) :
    (cbcDecryptAll c B v xs).length = xs.length := by
  induction xs generalizing v with
  | nil => rfl
  | cons x xs ih => simp [cbcDecryptAll, ih]

theorem mem_cbcDecryptAll {c : Cipher} {B : Nat} {v : List Byte} {xs : List (List Byte)} (hv : v.length = B)
    (hx : ∀ x ∈ xs, x.length = B) :
   ∀ y ∈ cbcDecryptAll c B v xs, y.length = B := by
  induction xs generalizing v with
  | nil => simp [cbcDecryptAll]
  | cons x xs ih =>
    intro y hy
    simp only [cbcDecryptAll, List.mem_cons] at hy
    have hxl := hx x (by simp)
    rcases hy with rfl | hy
    · rw [length_comb, length_cipherD _ _ _ hxl, hv, Nat.min_self]
    · exact ih hxl (fun z hz => hx z (by simp [hz])) y hy

theorem cbcDecryptAll_take (c : Cipher) (B : Nat) (v : List Byte) (xs : List (List Byte)) (m : Nat) :
    (cbcDecryptAll c B v xs).take m = cbcDecryptAll c B v (xs.take m) := by
  conv => lhs; rw [← List.take_append_drop m xs]
  rw [cbcDecryptAll_append]
  by_cases h : m ≤ xs.length
  · have hl : (cbcDecryptAll c B v (xs.take m)).length = m := by rw [length_cbcDecryptAll]; simp [h]
    rw [List.take_append_of_le_length (by omega), List.take_of_length_le (by omega)]
  · have : xs.drop m = [] := List.drop_of_length_le (by omega)
    rw [this]; simp only [cbcDecryptAll, List.append_nil]
    rw [List.take_of_length_le]; rw [length_cbcDecryptAll, List.length_take]; omega

/-- CBC decryption undoes CBC encryption (R204, R205). -/
theorem cbcDecryptAll_encryptAll (c : Cipher) (B : Nat) (v : List Byte) (xs : List (List Byte)) (hv : v.length = B)
    (hx : ∀ x ∈ xs, x.length = B) :
    cbcDecryptAll c B v (cbcEncryptAll c B v xs) = xs := by
  induction xs generalizing v with
  | nil => rfl
  | cons x xs ih =>
    have hxl := hx x (by simp)
    have hcl : (comb x v).length = B := by rw [length_comb, hxl, hv, Nat.min_self]
    simp only [cbcEncryptAll, cbcDecryptAll]
    rw [cipherD_cipherE _ _ _ hcl, comb_comb (by rw [hxl, hv]),
        ih _ (length_cipherE _ _ _ hcl) (fun y hy => hx y (by simp [hy]))]

theorem blockCalls_append (c : Cipher) (B : Nat) (v : List Byte) (xs ys : List (List Byte)) :
    blockCalls c B v (xs ++ ys) = blockCalls c B v xs ++ blockCalls c B
    (chainAfter v (cbcEncryptAll c B v xs)) ys := by
  induction xs generalizing v with
  | nil => simp [blockCalls, cbcEncryptAll, chainAfter_nil]
  | cons x xs ih => simp [blockCalls, cbcEncryptAll, ih, chainAfter_cons]

/-- The next plaintext block of a source (R208). -/
theorem plainBlocks_take_succ (c : Cipher) (B m : Nat) (s : List Byte) (hB : 1 ≤ B) (h : B + B * (m + 1) ≤ s.length) :
   (plainBlocks c B s).take (m + 1) =
    (plainBlocks c B s).take m ++ [comb (cipherD c B ((s.drop (B + B * m)).take B)) ((s.drop (B * m)).take B)] := by
  have h2 : B * (m+1) = B * m + B := by ring
  have hivl : (s.take B).length = B := by simp; omega
  have hdl : (s.drop B).length = s.length - B := by simp
  unfold plainBlocks
  rw [cbcDecryptAll_take, cbcDecryptAll_take, fullBlocks_take_succ _ _ hB (by omega), cbcDecryptAll_append,
      chainAfter_take _ _ _ hB hivl (by omega)]
  rw [List.take_append_drop, List.drop_drop]
  simp [cbcDecryptAll]

theorem length_plainBlocks (c : Cipher) (B : Nat) (s : List Byte) : (plainBlocks c B s).length =
    (s.length - B) / B := by
  simp [plainBlocks, length_cbcDecryptAll, length_fullBlocks]

theorem mem_plainBlocks {c : Cipher} {B : Nat} {s : List Byte} (h : B ≤ s.length) :
    ∀ y ∈ plainBlocks c B s, y.length = B :=
  mem_cbcDecryptAll (by simp [h]) (fun x hx => mem_fullBlocks hx)

theorem flatten_length_of {B : Nat} {xs : List (List Byte)} (h : ∀ x ∈ xs, x.length = B) :
    xs.flatten.length = B * xs.length := by
  induction xs with
  | nil => simp
  | cons x xs ih =>
      rw [List.flatten_cons, List.length_append, h x (by simp), ih (fun y hy => h y (by simp [hy])),
          List.length_cons]; ring

theorem take_flatten_prefix (xs : List (List Byte)) (m n : Nat) (h : m ≤ n) : (xs.take m).flatten <+:
    (xs.take n).flatten := by
  obtain ⟨k, rfl⟩ : ∃ k, n = m + k := ⟨n - m, by omega⟩
  rw [List.take_add, List.flatten_append]
  exact List.prefix_append _ _

theorem flatten_take_last {xs : List (List Byte)} {B m : Nat} {y : List Byte} (h1 : xs.length = m + 1)
    (h2 : xs.take (m + 1) = xs.take m ++ [y]) : xs.flatten = (xs.take m).flatten ++ y ∧ xs.dropLast = xs.take m := by
  rw [List.take_of_length_le (by omega)] at h2
  constructor
  · conv => lhs; rw [h2]
    simp
  · rw [List.dropLast_eq_take, h1, Nat.add_sub_cancel]

theorem length_encStream (c : Cipher) (B : Nat) (iv p : List Byte) (h1 : 1 ≤ B) (hiv : iv.length = B) :
    (encStream c B iv p).length = B + B * (p.length / B + 1) := by
  have hpl : (padMessage B p).length = B * (p.length / B + 1) := by
    have hm := Nat.mod_lt p.length (show 0 < B by omega)
    have hd := Nat.div_add_mod p.length B
    simp [padMessage, padCount, Nat.mul_add]; omega
  unfold encStream
  rw [List.length_append, hiv, List.length_flatten]
  have : ∀ x ∈ cbcEncryptAll c B iv (fullBlocks B (padMessage B p)), x.length = B :=
      mem_cbcEncryptAll hiv (fun x h => mem_fullBlocks h)
  rw [List.map_eq_replicate_iff.2 this, List.sum_replicate, length_cbcEncryptAll, length_fullBlocks, hpl,
      Nat.mul_div_cancel_left _ h1]
  simp [Nat.mul_comm]

/-- `Dec` of a source of whole blocks: all blocks but the last, and what is left of the last (R166). -/
theorem decStream_data (c : Cipher) (B : Nat) (s : List Byte) (hB : 1 ≤ B) (h : B < s.length)
    (hr : (s.length - B) % B = 0) :
    ∃ m y, s.length = B + B * (m + 1) ∧ (plainBlocks c B s).length = m + 1 ∧ y.length = B ∧
    (plainBlocks c B s).flatten = ((plainBlocks c B s).take m).flatten ++ y ∧ (plainBlocks c B s).dropLast =
    (plainBlocks c B s).take m ∧
     decStream c B s = match padRemove y with | some r => (((plainBlocks c B s).take m).flatten ++ r, .eos) | none => (((plainBlocks c B s).take m).flatten, .decErr) := by
  have hdm := Nat.div_add_mod (s.length - B) B
  have hq1 : 1 ≤ (s.length - B) / B := by
    rcases Nat.eq_zero_or_pos ((s.length - B) / B) with h0 | h0
    · rw [h0] at hdm; omega
    · exact h0
  obtain ⟨m, hm⟩ : ∃ m, (s.length - B) / B = m + 1 := ⟨(s.length - B) / B - 1, by omega⟩
  rw [hm] at hdm
  have hsl : s.length = B + B * (m + 1) := by omega
  have hlen : (plainBlocks c B s).length = m + 1 := by rw [length_plainBlocks, hm]
  have hblk := plainBlocks_take_succ c B m s hB (by omega)
  obtain ⟨e1, e2⟩ := flatten_take_last (B := B) hlen hblk
  have hy : (comb (cipherD c B ((s.drop (B + B * m)).take B)) ((s.drop (B * m)).take B)).length = B := by
    have hms : B * (m + 1) = B * m + B := by ring
    rw [length_comb, length_cipherD _ _ _ (by simp; omega)]
    simp; omega
  refine ⟨m, _, hsl, hlen, hy, e1, e2, ?_⟩
  unfold decStream; simp only
  rw [if_neg (by omega), if_neg (by omega), if_neg (by rw [hr]; simp), e2]
  rw [e1, unpad_append hB hy]
  cases padRemove (comb (cipherD c B ((s.drop (B + B * m)).take B)) ((s.drop (B * m)).take B)) <;> rfl

theorem decStream_length (c : Cipher) (B : Nat) (s : List Byte) (hB : 1 ≤ B) :
    (decStream c B s).1.length ≤ s.length := by
  by_cases h1 : s.length ≤ B
  · unfold decStream; simp only
    by_cases h2 : s.length < B
    · rw [if_pos h2]; simp
    · rw [if_neg h2, if_pos (by omega)]; simp
  · by_cases hr : (s.length - B) % B = 0
    · obtain ⟨m, y, e1, e2, e3, e4, e5, e6⟩ := decStream_data c B s hB (by omega) hr
      have hfl := flatten_length_of (mem_plainBlocks (c := c) (B := B) (s := s) (by omega))
      rw [e2, e4, List.length_append, e3] at hfl
      rw [e6]
      cases hp : padRemove y with
      | none => simp only; omega
      | some r =>
        have := (padRemove_length hp).1
        simp only [List.length_append]; omega
    · unfold decStream; simp only
      rw [if_neg (by omega), if_neg (by omega), if_pos hr]
      rw [flatten_length_of (mem_plainBlocks (by omega)), length_plainBlocks]
      have := Nat.mul_div_le (s.length - B) B
      omega

theorem div_split (B p a r : Nat) (hB : 1 ≤ B) : (p % B + (a + r)) / B = (p % B + a) / B + ((p + a) % B + r) / B := by
  have h1 : (p + a) % B = (p % B + a) % B := by rw [Nat.mod_add_mod]
  rw [h1]
  have h2 := Nat.div_add_mod (p % B + a) B
  have : p % B + (a + r) = B * ((p % B + a) / B) + ((p % B + a) % B + r) := by omega
  conv => lhs; rw [this]
  rw [Nat.mul_add_div hB]

end Sys2Proof.Machine
end

