-- ==== Sys2Proof/Laws/Decryptor.lean ====
section
/-! SUPPORT. DEC: the block taken, `NextBlock` case by case, and the read loop (42_stream_decryptor.md R161 to R166,
R169). -/

namespace Sys2Proof.Machine

theorem DecUnit.Inv.pos {d : DecUnit} (h : d.Inv) : 1 ≤ d.blockSize := by
  have := h.legal; simp [legalBlockSize, Config.minBlockSize] at this; omega

theorem length_cbcDecryptBlock {c : List Byte} {d : DecUnit} (h : d.Inv) (hc : c.length = d.blockSize) :
    (cbcDecryptBlock c d).length = d.blockSize := by
  unfold cbcDecryptBlock
  rw [length_comb, length_cipherD _ _ _ hc, h.dchainLength, Nat.min_self]

theorem takeBlock_valid {d : DecUnit} (h : d.laValid = true) : takeBlock d =
    (d.la.take d.laLen, { d with laValid := false }) := by simp [takeBlock, h]

theorem takeBlock_invalid {d : DecUnit} (h : d.laValid = false) :
    takeBlock d = srcRead d.blockSize d := by simp [takeBlock, h]

/-- Everything taking the next block can do, from a unit that meets the invariant (R162, step 2). -/
theorem takeBlock_facts {d : DecUnit} (h : d.Inv) (hs : d.dst = .streaming) :
    (takeBlock d).1.length ≤ d.blockSize ∧ (takeBlock d).2.src = d.src ∧ (takeBlock d).2.cipher = d.cipher ∧
    (takeBlock d).2.blockSize = d.blockSize ∧
    (takeBlock d).2.dchain = d.dchain ∧ (takeBlock d).2.cur = d.cur ∧ (takeBlock d).2.la = d.la ∧
    (takeBlock d).2.dst = d.dst ∧ (takeBlock d).2.cpos = d.cpos ∧ (takeBlock d).2.clen = d.clen ∧
    (takeBlock d).2.srcClosed = d.srcClosed ∧ (takeBlock d).2.draws = d.draws ∧ (takeBlock d).2.laLen = d.laLen ∧
    (takeBlock d).2.spos ≤ d.src.length ∧
    ((takeBlock d).1.length < d.blockSize → (takeBlock d).2.spos = d.src.length) ∧
    (takeBlock d).2.laValid = false := by
  cases hv : d.laValid with
  | true =>
    rw [takeBlock_valid hv]
    have h1 := h.laLength
    have h2 := h.ahead
    refine ⟨by simp; omega, rfl, rfl, rfl, rfl, rfl, rfl, rfl, rfl, rfl, rfl, rfl, rfl, h.position, ?_, rfl⟩
    intro hlt
    exact h.shortAhead hs hv (by simp at hlt; omega)
  | false =>
    rw [takeBlock_invalid hv]
    have := length_srcNext d.blockSize d
    have := h.position
    refine ⟨by simp; omega, rfl, rfl, rfl, rfl, rfl, rfl, rfl, rfl, rfl, rfl, rfl, rfl, ?_, ?_, hv⟩
    · simp; omega
    · intro hlt; simp at *; omega

theorem takeBlock_chain {d : DecUnit} : (takeBlock d).2.dchain = d.dchain ∧ (takeBlock d).2.cipher = d.cipher ∧
    (takeBlock d).2.blockSize = d.blockSize := by
  unfold takeBlock; split <;> exact ⟨rfl, rfl, rfl⟩

theorem cbcDecryptBlock_take (d : DecUnit) : cbcDecryptBlock (takeBlock d).1 (takeBlock d).2 = comb
    (cipherD d.cipher d.blockSize (takeBlock d).1) d.dchain := by
  unfold cbcDecryptBlock; rw [takeBlock_chain.1, takeBlock_chain.2.1, takeBlock_chain.2.2]

/-- `NextBlock` on a block of `B` bytes (R162). -/
theorem nextBlock_full {d : DecUnit} (h : d.Inv) (hl : (takeBlock d).1.length = d.blockSize) :
    nextBlock d = if (srcNext d.blockSize (takeBlock d).2) = [] then stripFinal
    (decryptAndLookAhead (takeBlock d).1 (takeBlock d).2) else
    (true, decryptAndLookAhead (takeBlock d).1 (takeBlock d).2) := by
  have hb : (takeBlock d).2.blockSize = d.blockSize := by unfold takeBlock; split <;> rfl
  unfold nextBlock
  simp only [decryptAndLookAhead_laLen, hb]
  rw [if_neg (by omega), if_pos hl]
  by_cases hn : srcNext d.blockSize (takeBlock d).2 = []
  · rw [if_pos (by simp [hn]), if_pos hn]
  · rw [if_neg (by simpa using hn), if_neg hn]

/-- `NextBlock` on a short block fails (R162). -/
theorem nextBlock_short {d : DecUnit} (h1 : 0 < (takeBlock d).1.length)
    (h2 : (takeBlock d).1.length < d.blockSize) : nextBlock d = (false, (takeBlock d).2) := by
  unfold nextBlock; simp only; rw [if_pos ⟨h1, h2⟩]

/-- `NextBlock` when the source ends right after the IV (R162 (d)). -/
theorem nextBlock_none {d : DecUnit} (h : d.Inv) (h1 : (takeBlock d).1 = []) : nextBlock d =
    (true, { (takeBlock d).2 with clen := 0, cpos := 0, laValid := false, dst := .drained }) := by
  have := h.pos
  unfold nextBlock; simp only [h1]; rw [if_neg (by simp), if_neg (by simp; omega)]
  simp [stripFinal, padRemove]

/-- A `NextBlock` that succeeds leaves something pending or the stream drained (R169). -/
theorem nextBlock_progress {d : DecUnit} (h : (nextBlock d).1 = true) :
    (nextBlock d).2.cpos < (nextBlock d).2.clen ∨ (nextBlock d).2.dst = .drained := by
  have hs : ∀ x : DecUnit, x.cpos = 0 → (stripFinal x).1 = true → (stripFinal x).2.cpos < (stripFinal x).2.clen ∨
      (stripFinal x).2.dst = .drained := by
    intro x hx hx2
    unfold stripFinal at *
    split at hx2
    · exact absurd hx2 (by simp)
    · rename_i r hr
      simp only [hr, hx]
      by_cases hr0 : r.length > 0
      · left; exact hr0
      · right; simp [hr0]
  unfold nextBlock at *
  simp only at *
  split at h
  · exact absurd h (by simp)
  · rename_i h1
    rw [if_neg h1]
    split at h
    · rename_i h2
      rw [if_pos h2]
      split at h
      · rename_i h3
        rw [if_pos h3]
        exact hs _ rfl h
      · rename_i h3
        rw [if_neg h3]
        left
        simp only [decryptAndLookAhead_laLen] at h3
        by_contra hc
        simp only [decryptAndLookAhead_cpos, decryptAndLookAhead_clen] at hc
        apply h3
        simp [srcNext]; omega
    · rename_i h2
      rw [if_neg h2]
      exact hs _ rfl h

theorem nextBlock_dst {d : DecUnit} : (nextBlock d).2.dst = d.dst ∨ (nextBlock d).2.dst = .draining ∨
    (nextBlock d).2.dst = .drained := by
  have hs : ∀ x : DecUnit, x.dst = d.dst → (stripFinal x).2.dst = d.dst ∨ (stripFinal x).2.dst = .draining ∨
      (stripFinal x).2.dst = .drained := by
    intro x hx
    unfold stripFinal
    split
    · left; exact hx
    · simp only; split
      · right; left; rfl
      · right; right; rfl
  have ht : (takeBlock d).2.dst = d.dst := by unfold takeBlock; split <;> rfl
  unfold nextBlock; simp only
  split
  · left; exact ht
  · split
    · split
      · exact hs _ ht
      · left; exact ht
    · exact hs _ ht

theorem decInit_short {d : DecUnit} (h : d.src.length - d.spos < d.blockSize) : decInit d =
    (false, (srcRead d.blockSize d).2) := by
  unfold decInit; simp only [srcRead_fst, length_srcNext]; rw [if_pos (by omega)]

theorem decInit_ok {d : DecUnit} (h : d.blockSize ≤ d.src.length - d.spos) : decInit d =
    (true, { decCbcInit (srcNext d.blockSize d) (srcRead d.blockSize d).2 with cpos := 0, clen := 0, laValid := false, dst := .streaming }) := by
  unfold decInit; simp only [srcRead_fst, length_srcNext]; rw [if_neg (by omega)]

theorem decInit_dst {d : DecUnit} (h : (decInit d).1 = true) : (decInit d).2.dst = .streaming := by
  unfold decInit at *; simp only at *
  split at h
  · exact absurd h (by simp)
  · rename_i hc; rw [if_neg hc]

/-- Delivering nothing changes nothing, since a drained tail is not `DRAINING` (R163 corner cases (a), (f)). -/
theorem deliver_zero {d : DecUnit} (h : d.dst = .draining → d.cpos < d.clen) : deliver 0 d = d := by
  unfold deliver
  rw [if_neg (by rintro ⟨h1, h2⟩; have := h h2; omega)]
  rfl

theorem deliver_deliver (m n : Nat) (d : DecUnit) (h : d.cpos + m < d.clen) : deliver n (deliver m d) = deliver
    (m + n) d := by
  unfold deliver
  simp only [DecUnit.mk.injEq]
  simp [Nat.add_assoc]
  rw [if_neg (by omega : ¬ (d.cpos + m = d.clen ∧ d.dst = .draining))]

/-- Passes of the loop still needed, at most (R169). -/
def passes (want : Nat) (d : DecUnit) : Nat := 2 * want + (if d.cpos < d.clen then 0 else 1)

theorem readLoop_zero (fuel : Nat) (out : List Byte) (d : DecUnit) : readLoop fuel 0 out d =
    (d, readReply out d) := by
  cases fuel <;> simp [readLoop]

/-- More passes than needed change nothing (R169). -/
theorem readLoop_fuel (want : Nat) : ∀ (f g : Nat) (out : List Byte) (d : DecUnit), passes want d ≤ f →
    passes want d ≤ g → readLoop f want out d = readLoop g want out d := by
  intro f
  induction f generalizing want with
  | zero =>
    intro g out d h1 h2
    have : want = 0 := by unfold passes at h1; omega
    subst this; rw [readLoop_zero, readLoop_zero]
  | succ f ih =>
    intro g out d h1 h2
    by_cases hw : want = 0
    · subst hw; rw [readLoop_zero, readLoop_zero]
    obtain ⟨g, rfl⟩ : ∃ k, g = k + 1 := ⟨g - 1, by unfold passes at h2; omega⟩
    rw [readLoop, readLoop]
    rw [if_neg hw, if_neg hw]
    split
    · rename_i hp
      have hm : 1 ≤ deliverCount want d := by unfold deliverCount; omega
      have hk : passes (want - deliverCount want d) (deliver (deliverCount want d) d) + 1 ≤ passes want d := by
        unfold passes; rw [if_pos hp]; split <;> omega
      apply ih <;> omega
    · rename_i hp
      split
      · rfl
      · rename_i hd
        simp only
        split
        · rename_i hn
          rcases nextBlock_progress hn with hq | hq
          · have hk : passes want (nextBlock d).2 + 1 ≤ passes want d := by
              unfold passes; rw [if_pos hq, if_neg hp]
            apply ih <;> omega
          · by_cases hq2 : (nextBlock d).2.cpos < (nextBlock d).2.clen
            · have hk : passes want (nextBlock d).2 + 1 ≤ passes want d := by
                unfold passes; rw [if_pos hq2, if_neg hp]
              apply ih <;> omega
            · have hf : 1 ≤ f := by unfold passes at h1; rw [if_neg hp] at h1; omega
              have hg : 1 ≤ g := by unfold passes at h2; rw [if_neg hp] at h2; omega
              obtain ⟨f, rfl⟩ : ∃ k, f = k + 1 := ⟨f - 1, by omega⟩
              obtain ⟨g, rfl⟩ : ∃ k, g = k + 1 := ⟨g - 1, by omega⟩
              rw [readLoop, readLoop]
              simp [hw, hq2, hq]
        · rfl

theorem passes_le (want : Nat) (d : DecUnit) :
    passes want d ≤ readPasses want := by unfold passes readPasses; split <;> omega

/-- The read loop with enough passes. -/
def readAll (want : Nat) (out : List Byte) (d : DecUnit) : DecUnit × Reply := readLoop (readPasses want) want out d

theorem readLoop_eq_readAll {f want : Nat} {out : List Byte} {d : DecUnit} (h : passes want d ≤ f) :
    readLoop f want out d = readAll want out d :=
  readLoop_fuel _ _ _ _ _ h (passes_le _ _)

theorem readAll_zero (out : List Byte) (d : DecUnit) : readAll 0 out d = (d, readReply out d) := readLoop_zero _ _ _

theorem readAll_pending {want : Nat} {out : List Byte} {d : DecUnit} (hw : want ≠ 0) (hp : d.cpos < d.clen) :
   readAll want out d = readAll (want - deliverCount want d)
    (out ++ slice d.cur d.cpos (d.cpos + deliverCount want d)) (deliver (deliverCount want d) d) := by
  unfold readAll
  rw [show readPasses want = 2 * want + 1 + 1 from rfl, readLoop, if_neg hw, if_pos hp]
  simp only
  apply readLoop_eq_readAll
  have hm : 1 ≤ deliverCount want d := by unfold deliverCount; omega
  unfold passes; split <;> omega

theorem readAll_drained {want : Nat} {out : List Byte} {d : DecUnit} (hp : ¬ d.cpos < d.clen)
    (hd : d.dst = .drained) :
   readAll want out d = (d, readReply out d) := by
  unfold readAll
  rw [show readPasses want = 2 * want + 1 + 1 from rfl, readLoop, if_neg hp, if_pos hd]
  simp

theorem readAll_block {want : Nat} {out : List Byte} {d : DecUnit} (hw : want ≠ 0) (hp : ¬ d.cpos < d.clen)
    (hd : d.dst ≠ .drained) :
   readAll want out d = if (nextBlock d).1 then readAll want out (nextBlock d).2 else raiseDecryptionError out
    (nextBlock d).2 := by
  have h0 : readAll want out d = readLoop (2 * want + 1 + 1 + 1) want out d :=
      (readLoop_eq_readAll (by unfold passes; split <;> omega)).symm
  rw [h0, readLoop, if_neg hw, if_neg hp, if_neg hd]
  simp only
  split
  · apply readLoop_eq_readAll
    unfold passes; split <;> omega
  · rfl

/-- Induction over the passes of the read loop. -/
theorem readAll_induct {P : Nat → List Byte → DecUnit → Prop}
    (zero : ∀ out d, P 0 out d)
    (pend : ∀ want out d, want ≠ 0 → d.cpos < d.clen →
      P (want - deliverCount want d) (out ++ slice d.cur d.cpos (d.cpos + deliverCount want d))
    (deliver (deliverCount want d) d) → P want out d)
    (drained : ∀ want out d, want ≠ 0 → ¬ d.cpos < d.clen → d.dst = .drained → P want out d)
    (ok : ∀ want out d, want ≠ 0 → ¬ d.cpos < d.clen → d.dst ≠ .drained → (nextBlock d).1 = true → P want out
    (nextBlock d).2 → P want out d)
    (fail : ∀ want out d, want ≠ 0 → ¬ d.cpos < d.clen → d.dst ≠ .drained → (nextBlock d).1 = false → P want out d)
    (want : Nat) (out : List Byte) (d : DecUnit) : P want out d := by
  induction hn : passes want d using Nat.strongRecOn generalizing want out d with
  | _ n ih =>
    by_cases hw : want = 0
    · subst hw; exact zero _ _
    by_cases hp : d.cpos < d.clen
    · apply pend _ _ _ hw hp
      have hm : 1 ≤ deliverCount want d := by unfold deliverCount; omega
      refine ih _ ?_ _ _ _ rfl
      rw [← hn]; unfold passes; rw [if_pos hp]; split <;> omega
    by_cases hd : d.dst = .drained
    · exact drained _ _ _ hw hp hd
    cases hb : (nextBlock d).1 with
    | false => exact fail _ _ _ hw hp hd hb
    | true =>
      apply ok _ _ _ hw hp hd hb
      by_cases hq : (nextBlock d).2.cpos < (nextBlock d).2.clen
      · refine ih _ ?_ _ _ _ rfl
        rw [← hn]; unfold passes; rw [if_pos hq, if_neg hp]; omega
      · exact drained _ _ _ hw hq ((nextBlock_progress hb).resolve_left hq)

/-- What was produced before only stands in front of the data. -/
theorem readAll_out (want : Nat) (out : List Byte) (d : DecUnit) : ∀ pre, readAll want (pre ++ out) d =
   ((readAll want out d).1, { (readAll want out d).2 with count := pre.length + (readAll want out d).2.count, data := pre ++ (readAll want out d).2.data }) := by
  induction want, out, d using readAll_induct with
  | zero out d => intro pre; simp [readAll_zero, readReply]
  | pend want out d hw hp ih =>
    intro pre
    rw [readAll_pending hw hp, readAll_pending hw hp, List.append_assoc, ih]
  | drained want out d hw hp hd => intro pre; simp [readAll_drained hp hd, readReply]
  | ok want out d hw hp hd hb ih =>
      intro pre
      rw [readAll_block hw hp hd, readAll_block hw hp hd, hb]
      simpa using ih pre
  | fail want out d hw hp hd hb =>
      intro pre
      rw [readAll_block hw hp hd, readAll_block hw hp hd, hb]
      simp [raiseDecryptionError, decErrReply]

theorem readAll_pre (want : Nat) (pre : List Byte) (d : DecUnit) : readAll want pre d =
   ((readAll want [] d).1, { (readAll want [] d).2 with count := pre.length + (readAll want [] d).2.count, data := pre ++ (readAll want [] d).2.data }) := by
  simpa using readAll_out want [] d pre

theorem readAll_reply (want : Nat) (out : List Byte) (d : DecUnit) : (readAll want out d).2.count =
    (readAll want out d).2.data.length ∧
   (((readAll want out d).2.status = .decErr ∧ (readAll want out d).1.dst = .failed) ∨
    (readAll want out d).2.status = readStatus (readAll want out d).1.dst) := by
  induction want, out, d using readAll_induct with
  | zero out d => simp [readAll_zero, readReply]
  | pend want out d hw hp ih => rw [readAll_pending hw hp]; exact ih
  | drained want out d hw hp hd => simp [readAll_drained hp hd, readReply]
  | ok want out d hw hp hd hb ih => rw [readAll_block hw hp hd, hb]; simpa using ih
  | fail want out d hw hp hd hb => rw [readAll_block hw hp hd, hb]; simp [raiseDecryptionError, decErrReply]

theorem readData_eq (len : Nat) (d : DecUnit) : readData len d = readAll len [] d := rfl

theorem readReply_ne_err (out : List Byte) (d : DecUnit) : (readReply out d).status ≠ .decErr := readStatus_ne_err _

theorem readAll_dst (want : Nat) (out : List Byte) (d : DecUnit) (h1 : d.dst ≠ .uninit) (h2 : d.dst ≠ .closed) :
   (readAll want out d).1.dst ≠ .uninit ∧ (readAll want out d).1.dst ≠ .closed := by
  induction want, out, d using readAll_induct with
  | zero out d => simp [readAll_zero, h1, h2]
  | pend want out d hw hp ih =>
      rw [readAll_pending hw hp]
      apply ih <;> simp only [deliver_dst] <;> split <;> simp_all
  | drained want out d hw hp hd => simp [readAll_drained hp hd, h1, h2]
  | ok want out d hw hp hd hb ih =>
    rw [readAll_block hw hp hd, hb]
    simp only [if_true]
    apply ih <;> rcases @nextBlock_dst d with h | h | h <;> simp [h, h1, h2]
  | fail want out d hw hp hd hb => rw [readAll_block hw hp hd, hb]; simp [raiseDecryptionError, decErrReply]

theorem readAll_failed (want : Nat) (out : List Byte) (d : DecUnit) (h1 : d.dst ≠ .failed)
    (h2 : (readAll want out d).2.status ≠ .decErr) :
   (readAll want out d).1.dst ≠ .failed := by
  induction want, out, d using readAll_induct with
  | zero out d => simp [readAll_zero, h1]
  | pend want out d hw hp ih =>
      rw [readAll_pending hw hp] at *
      apply ih _ h2
      simp only [deliver_dst]
      split <;> simp_all
  | drained want out d hw hp hd => simp [readAll_drained hp hd, h1]
  | ok want out d hw hp hd hb ih =>
    rw [readAll_block hw hp hd, hb] at *
    simp only [if_true] at *
    apply ih _ h2; rcases @nextBlock_dst d with h | h | h <;> simp [h, h1]
  | fail want out d hw hp hd hb => rw [readAll_block hw hp hd, hb] at h2; simp [decErrReply] at h2

/-- Reading `a + b` bytes is reading `a` and then `b` (R165). -/
theorem readAll_split (a : Nat) (out : List Byte) (d : DecUnit) : ∀ b,
    readAll (a + b) out d = if (readAll a out d).2.status = .decErr then readAll a out d
      else readAll b (readAll a out d).2.data (readAll a out d).1 := by
  induction a, out, d using readAll_induct with
  | zero out d => intro b; rw [readAll_zero, Nat.zero_add, if_neg (readReply_ne_err _ _)]; rfl
  | pend a out d hw hp ih =>
    intro b
    have ih := ih b
    rw [readAll_pending (want := a) hw hp]
    by_cases ha : d.clen - d.cpos ≤ a
    · have e1 : deliverCount a d = d.clen - d.cpos := by unfold deliverCount; omega
      have e2 : deliverCount (a + b) d = d.clen - d.cpos := by unfold deliverCount; omega
      rw [readAll_pending (want := a + b) (by omega) hp, e1, e2, show a + b - (d.clen - d.cpos) =
          a - (d.clen - d.cpos) + b by omega]
      rw [e1] at ih; exact ih
    · have e1 : deliverCount a d = a := by unfold deliverCount; omega
      rw [e1] at ih ⊢
      rw [Nat.sub_self, readAll_zero]
      rw [if_neg (readReply_ne_err _ _)]
      simp only [readReply]
      rcases Nat.eq_zero_or_pos b with rfl | hb
      · rw [Nat.add_zero, readAll_pending hw hp, e1, Nat.sub_self]
      have hp' : (deliver a d).cpos < (deliver a d).clen := by simp; omega
      rw [readAll_pending (want := a + b) (by omega) hp, readAll_pending (want := b) (d :=
          deliver a d) (by omega) hp']
      have e3 : deliverCount (a + b) d = a + deliverCount b (deliver a d) := by unfold deliverCount; simp; omega
      rw [e3, deliver_deliver _ _ _ (by simpa using hp')]
      congr 1
      · omega
      · rw [List.append_assoc]
        congr 1
        simp only [deliver_cur, deliver_cpos]
        rw [slice_append _ _ _ _ (by omega) (by omega)]; congr 1; omega
  | drained a out d hw hp hd =>
    intro b
    rw [readAll_drained hp hd, readAll_drained hp hd]
    simp only [readReply, hd, readStatus]
    rw [if_neg (by simp), readAll_drained hp hd]
    simp [readReply, hd, readStatus]
  | ok a out d hw hp hd hb ih =>
    intro b
    rw [readAll_block (want := a) hw hp hd, readAll_block (want := a + b) (by omega) hp hd, hb]
    simpa using ih b
  | fail a out d hw hp hd hb =>
    intro b
    rw [readAll_block (want := a) hw hp hd, readAll_block (want := a + b) (by omega) hp hd, hb]
    simp [raiseDecryptionError, decErrReply]

theorem decRead_of {len : Nat} {d : DecUnit} (h1 : d.dst ≠ .uninit) (h2 : d.dst ≠ .failed) (h3 : d.dst ≠ .closed) :
    decRead len d = readAll len [] d := by
  unfold decRead; split <;> simp_all [readData_eq]

theorem decRead_uninit {len : Nat} {d : DecUnit} (h : d.dst = .uninit) : decRead len d = if
    (decInit d).1 then readAll len [] (decInit d).2 else raiseDecryptionError [] (decInit d).2 := by
  unfold decRead; rw [h]; rfl

theorem decRead_failed {len : Nat} {d : DecUnit} (h : d.dst = .failed) : decRead len d = (d, decErrReply []) := by
  unfold decRead; rw [h]

theorem decRead_closed {len : Nat} {d : DecUnit} (h : d.dst = .closed) : decRead len d = (d, invalidReply) := by
  unfold decRead; rw [h]

theorem decRead_reply (len : Nat) (d : DecUnit) : (decRead len d).2.count = (decRead len d).2.data.length := by
  unfold decRead
  split
  · rfl
  · rfl
  · simp only; split
    · exact (readAll_reply _ _ _).1
    · rfl
  all_goals exact (readAll_reply _ _ _).1

theorem readAll_data_length (want : Nat) (out : List Byte) (d : DecUnit) :
    (readAll want out d).2.data.length ≤ out.length + want := by
  induction want, out, d using readAll_induct with
  | zero out d => simp [readAll_zero, readReply]
  | pend want out d hw hp ih =>
    rw [readAll_pending hw hp]
    have h1 : (slice d.cur d.cpos (d.cpos + deliverCount want d)).length ≤ deliverCount want d := by
      simp [slice]; omega
    have h2 : deliverCount want d ≤ want := by unfold deliverCount; omega
    rw [List.length_append] at ih
    omega
  | drained want out d hw hp hd => simp [readAll_drained hp hd, readReply]
  | ok want out d hw hp hd hb ih => rw [readAll_block hw hp hd, hb]; simpa using ih
  | fail want out d hw hp hd hb => rw [readAll_block hw hp hd, hb]; simp [raiseDecryptionError, decErrReply]

/-- `DREAD len` returns at most `len` bytes (R86). -/
theorem decRead_length (len : Nat) (d : DecUnit) : (decRead len d).2.data.length ≤ len := by
  have h := fun d => readAll_data_length len [] d
  simp only [List.length_nil, Nat.zero_add] at h
  unfold decRead
  split
  · simp [invalidReply]
  · simp [decErrReply]
  · simp only; split
    · exact h _
    · simp [raiseDecryptionError, decErrReply]
  all_goals exact h _

theorem response_dec (len : Nat) (d : DecUnit) : response (decRead len d).2 =
    { word := responseWord (decRead len d).2.status (decRead len d).2.data.length, data := (decRead len d).2.data } := by
  unfold response; rw [decRead_reply]

theorem readAll_split_unit (a b : Nat) (d : DecUnit) (h1 : d.dst ≠ .uninit) (h2 : d.dst ≠ .failed)
    (h3 : d.dst ≠ .closed) :
    (readAll (a + b) [] d).1 = (decRead b (readAll a [] d).1).1 ∧
    (readAll (a + b) [] d).2.data = (readAll a [] d).2.data ++ (decRead b (readAll a [] d).1).2.data ∧
    (readAll (a + b) [] d).2.status = (decRead b (readAll a [] d).1).2.status := by
  have h := readAll_split a [] d b
  have hk := readAll_dst a [] d h1 h3
  by_cases hs : (readAll a [] d).2.status = .decErr
  · have hd : (readAll a [] d).1.dst = .failed := by
      rcases (readAll_reply a [] d).2 with h | h
      · exact h.2
      · rw [h] at hs; exact absurd hs (readStatus_ne_err _)
    rw [if_pos hs] at h; rw [h, decRead_failed hd]; simp [decErrReply, hs]
  · rw [decRead_of hk.1 (readAll_failed _ _ _ h2 hs) hk.2]
    rw [if_neg hs] at h
    rw [h, readAll_pre]
    simp

/-- Request-split independence on the unit (R165). -/
theorem decRead_split (a b : Nat) (d : DecUnit) :
    (decRead (a + b) d).1 = (decRead b (decRead a d).1).1 ∧
    (decRead (a + b) d).2.data = (decRead a d).2.data ++ (decRead b (decRead a d).1).2.data ∧
    (decRead (a + b) d).2.status = (decRead b (decRead a d).1).2.status := by
  cases hd : d.dst with
  | closed => simp [decRead_closed hd, invalidReply]
  | failed => simp [decRead_failed hd, decErrReply]
  | uninit =>
    rw [decRead_uninit hd, decRead_uninit hd]
    cases hi : (decInit d).1 with
    | false => simp only [raiseDecryptionError]; simp [decRead_failed, decErrReply]
    | true =>
      have := decInit_dst hi
      simpa using readAll_split_unit a b (decInit d).2 (by simp [this]) (by simp [this]) (by simp [this])
  | streaming =>
      rw [decRead_of (len := a + b) (by simp [hd]) (by simp [hd]) (by simp [hd]), decRead_of (len := a) (d :=
          d) (by simp [hd]) (by simp [hd]) (by simp [hd])]; exact readAll_split_unit a b d (by simp [hd]) (by simp [hd]) (by simp [hd])
  | draining =>
      rw [decRead_of (len := a + b) (by simp [hd]) (by simp [hd]) (by simp [hd]), decRead_of (len := a) (d :=
          d) (by simp [hd]) (by simp [hd]) (by simp [hd])]; exact readAll_split_unit a b d (by simp [hd]) (by simp [hd]) (by simp [hd])
  | drained =>
      rw [decRead_of (len := a + b) (by simp [hd]) (by simp [hd]) (by simp [hd]), decRead_of (len := a) (d :=
          d) (by simp [hd]) (by simp [hd]) (by simp [hd])]; exact readAll_split_unit a b d (by simp [hd]) (by simp [hd]) (by simp [hd])

theorem decClose_reply (d : DecUnit) : (decClose d).2 = okReply 0 := by unfold decClose; cases d.dst <;> rfl

theorem decClose_dst (d : DecUnit) :
    (decClose d).1.dst = .closed := by unfold decClose; split <;> first | assumption | rfl

theorem decRead_dst (len : Nat) (d : DecUnit) : (d.dst = .closed → (decRead len d).1.dst = .closed) ∧
    (d.dst = .failed → (decRead len d).1.dst = .failed) ∧ (decRead len d).1.dst ≠ .uninit ∧
    (d.dst ≠ .closed → (decRead len d).1.dst ≠ .closed) := by
  refine ⟨fun h => by rw [decRead_closed h]; exact h, fun h => by rw [decRead_failed h]; exact h, ?_⟩
  cases hd : d.dst with
  | closed => rw [decRead_closed hd]; simp [hd]
  | failed => rw [decRead_failed hd]; simp [hd]
  | uninit =>
    rw [decRead_uninit hd]
    cases hi : (decInit d).1 with
    | true =>
      have := readAll_dst len [] (decInit d).2 (by simp [decInit_dst hi]) (by simp [decInit_dst hi])
      exact ⟨this.1, fun _ => this.2⟩
    | false => simp
  | streaming =>
      rw [decRead_of (by simp [hd]) (by simp [hd]) (by simp [hd])]; have :=
          readAll_dst len [] d (by simp [hd]) (by simp [hd]); exact ⟨this.1, fun _ => this.2⟩
  | draining =>
      rw [decRead_of (by simp [hd]) (by simp [hd]) (by simp [hd])]; have :=
          readAll_dst len [] d (by simp [hd]) (by simp [hd]); exact ⟨this.1, fun _ => this.2⟩
  | drained =>
      rw [decRead_of (by simp [hd]) (by simp [hd]) (by simp [hd])]; have :=
          readAll_dst len [] d (by simp [hd]) (by simp [hd]); exact ⟨this.1, fun _ => this.2⟩

theorem decRead_invalid {len : Nat} {d : DecUnit} (h : (decRead len d).2.status = .invalid) :
    (decRead len d).1 = d := by
  have hr : ∀ x : DecState, readStatus x ≠ .invalid := by intro x; cases x <;> simp [readStatus]
  have ha : ∀ w o d, (readAll w o d).2.status ≠ .invalid := by
    intro w o d
    rcases (readAll_reply w o d).2 with h | h
    · rw [h.1]; simp
    · rw [h]; exact hr _
  cases hd : d.dst with
  | closed => rw [decRead_closed hd]
  | failed => rw [decRead_failed hd]
  | uninit =>
    rw [decRead_uninit hd] at h
    cases hi : (decInit d).1 with
    | true => rw [hi] at h; exact absurd h (ha _ _ _)
    | false => rw [hi] at h; simp [decErrReply] at h
  | streaming => rw [decRead_of (by simp [hd]) (by simp [hd]) (by simp [hd])] at h; exact absurd h (ha _ _ _)
  | draining => rw [decRead_of (by simp [hd]) (by simp [hd]) (by simp [hd])] at h; exact absurd h (ha _ _ _)
  | drained => rw [decRead_of (by simp [hd]) (by simp [hd]) (by simp [hd])] at h; exact absurd h (ha _ _ _)

end Sys2Proof.Machine
end

