-- ==== Sys2Proof/Laws/DecryptorInvariant.lean ====
section
/-! SUPPORT. DEC: the invariant, what a command adds to the call record and takes from the source, and what a stream
has brought the unit to (10 R35, 42 R166). -/

namespace Sys2Proof.Machine

/-- DEC inside a `DREAD`: the invariant, in a state that can deliver. -/
structure Live (d : DecUnit) : Prop where
  inv : d.Inv
  live : d.dst = .streaming ∨ d.dst = .draining ∨ d.dst = .drained

theorem Live.ne {d : DecUnit} (h : Live d) : d.dst ≠ .uninit ∧ d.dst ≠ .failed ∧
    d.dst ≠ .closed := by rcases h.live with h | h | h <;> simp [h]

theorem deliver_live {d : DecUnit} {want : Nat} (h : Live d) (hp : d.cpos < d.clen) (hw : want ≠ 0) : Live
    (deliver (deliverCount want d) d) := by
  have hm : d.cpos + deliverCount want d ≤ d.clen := by unfold deliverCount; omega
  have hi := h.inv
  have h1 := hi.draining
  have h2 := hi.drained
  have h3 := hi.streaming
  have h4 := hi.pos
  refine ⟨⟨hi.legal, hi.curLength, hi.laLength, hi.dchainLength, ?_, hi.held, hi.ahead, hi.position, ?_, ?_, ?_, ?_,
      ?_⟩, ?_⟩
  · simpa using hm
  · simp only [deliver_dst]; split
    · simp
    · intro hu; exact absurd hu h.ne.1
  · simp only [deliver_dst]; split
    · simp
    · simpa using h3
  · simp only [deliver_dst]; split
    · simp
    · simpa using hi.shortAhead
  · simp only [deliver_dst]; split
    · simp
    · rename_i hc; intro hd
      have := h1 hd
      have hne : d.cpos + deliverCount want d ≠ d.clen := fun hx => hc ⟨hx, hd⟩
      refine ⟨?_, this.2⟩
      simp; omega
  · simp only [deliver_dst]; split
    · rename_i hc; intro _
      exact ⟨by simpa using hc.1, (h1 hc.2).2⟩
    · intro hd; have := h2 hd; omega
  · simp only [deliver_dst]; split
    · simp
    · exact h.live

theorem stripFinal_live {d : DecUnit} (hi1 : legalBlockSize d.blockSize = true) (hi2 : d.cur.length = d.blockSize)
    (hi3 : d.la.length = d.blockSize) (hi4 : d.dchain.length = d.blockSize)
    (hi5 : d.cpos = 0) (hi6 : d.clen ≤ d.blockSize) (hi7 : d.laLen ≤ d.blockSize) (hi8 : d.spos = d.src.length)
    (hb : (stripFinal d).1 = true) : Live (stripFinal d).2 := by
  unfold stripFinal at *
  split at hb
  · simp at hb
  · rename_i r hr
    have hl := (padRemove_length hr).1
    simp only [hr]
    simp at hl
    by_cases h0 : r.length > 0
    · simp only [h0, if_true]
      refine ⟨⟨hi1, hi2, hi3, hi4, ?_, ?_, hi7, ?_, ?_, ?_, ?_, ?_, ?_⟩, ?_⟩ <;> simp [hi5, hi8] <;> omega
    · simp only [h0, if_false]
      refine ⟨⟨hi1, hi2, hi3, hi4, ?_, ?_, hi7, ?_, ?_, ?_, ?_, ?_, ?_⟩, ?_⟩ <;> simp [hi5, hi8] <;> omega

theorem nextBlock_live {d : DecUnit} (h : Live d) (hp : ¬ d.cpos < d.clen) (hd : d.dst ≠ .drained)
    (hb : (nextBlock d).1 = true) : Live (nextBlock d).2 := by
  have hi := h.inv
  have hs : d.dst = .streaming := by
    rcases h.live with h1 | h1 | h1
    · exact h1
    · exact absurd (hi.draining h1).1 hp
    · exact absurd h1 hd
  obtain ⟨f1, f2, f3, f4, f5, f6, f7, f8, f9, f10, f11, f12, f13, f14, f15, f16⟩ := takeBlock_facts hi hs
  have hpos := hi.pos
  have hla := hi.laLength
  have hah := hi.ahead
  by_cases hfull : (takeBlock d).1.length = d.blockSize
  · have hcur : (cbcDecryptBlock (takeBlock d).1 (takeBlock d).2).length = d.blockSize := by
      rw [cbcDecryptBlock_take, length_comb, length_cipherD _ _ _ hfull, hi.dchainLength, Nat.min_self]
    have hsn := length_srcNext d.blockSize (takeBlock d).2
    rw [f2] at hsn
    rw [nextBlock_full hi hfull] at *
    by_cases hn : srcNext d.blockSize (takeBlock d).2 = []
    · rw [if_pos hn] at *
      rw [hn, List.length_nil] at hsn
      apply stripFinal_live
      · simp [f4, hi.legal]
      · simp [f4, hcur]
      · simp [f4, f7, hn, overlay, hla]
      · simp [f4, hfull]
      · rfl
      · simp [f4]
      · simp [f4, hn]
      · simp [f4, hn, f2]; omega
      · exact hb
    · rw [if_neg hn] at *
      have hn1 : 1 ≤ (srcNext d.blockSize (takeBlock d).2).length := List.length_pos_iff.2 hn
      refine ⟨⟨?_, ?_, ?_, ?_, ?_, ?_, ?_, ?_, ?_, ?_, ?_, ?_, ?_⟩, ?_⟩
      · simp [f4, hi.legal]
      · simp [f4, hcur]
      · simp only [decryptAndLookAhead_la, decryptAndLookAhead_blockSize, f4,
            f7]; rw [length_overlay (by omega)]; exact hla
      · simp [f4, hfull]
      · simp
      · simp [f4]
      · simp [f4]; omega
      · simp [f4, f2]; omega
      · simp [f8, hs]
      · intro _; right; simp [f4]; omega
      · intro _ _ hlt; simp [f4, f2] at hlt ⊢; omega
      · simp [f8, hs]
      · simp [f8, hs]
      · simp [f8, hs]
  · by_cases h0 : (takeBlock d).1 = []
    · rw [nextBlock_none hi h0] at *
      refine ⟨⟨?_, ?_, ?_, ?_, ?_, ?_, ?_, ?_, ?_, ?_, ?_, ?_, ?_⟩, ?_⟩ <;> simp [f4, f6, f7, f5, f2, f13, hi.legal,
          hi.curLength, hi.laLength, hi.dchainLength]
      · exact hah
      · exact f14
      · have := f15 (by rw [h0, List.length_nil]; omega); omega
    · rw [nextBlock_short (List.length_pos_iff.2 h0) (by omega)] at hb; simp at hb

theorem failed_inv {d : DecUnit} (hi1 : legalBlockSize d.blockSize = true) (hi2 : d.cur.length = d.blockSize)
    (hi3 : d.la.length = d.blockSize) (hi4 : d.dchain.length = d.blockSize)
    (hi5 : d.cpos ≤ d.clen) (hi6 : d.clen ≤ d.blockSize) (hi7 : d.laLen ≤ d.blockSize)
    (hi8 : d.spos ≤ d.src.length) : (raiseDecryptionError [] d).1.Inv := by
  refine ⟨hi1, hi2, hi3, hi4, hi5, hi6, hi7, hi8, ?_, ?_, ?_, ?_, ?_⟩ <;> simp [raiseDecryptionError]

theorem nextBlock_fail_inv {d : DecUnit} (h : Live d) (hp : ¬ d.cpos < d.clen) (hd : d.dst ≠ .drained)
    (hb : (nextBlock d).1 = false) : (raiseDecryptionError [] (nextBlock d).2).1.Inv := by
  have hi := h.inv
  have hs : d.dst = .streaming := by
    rcases h.live with h1 | h1 | h1
    · exact h1
    · exact absurd (hi.draining h1).1 hp
    · exact absurd h1 hd
  obtain ⟨f1, f2, f3, f4, f5, f6, f7, f8, f9, f10, f11, f12, f13, f14, f15, f16⟩ := takeBlock_facts hi hs
  have hpos := hi.pos
  have hla := hi.laLength
  by_cases hfull : (takeBlock d).1.length = d.blockSize
  · have hcur : (cbcDecryptBlock (takeBlock d).1 (takeBlock d).2).length = d.blockSize := by
      rw [cbcDecryptBlock_take, length_comb, length_cipherD _ _ _ hfull, hi.dchainLength, Nat.min_self]
    have hsn := length_srcNext d.blockSize (takeBlock d).2
    rw [f2] at hsn
    rw [nextBlock_full hi hfull] at *
    by_cases hn : srcNext d.blockSize (takeBlock d).2 = []
    · rw [if_pos hn] at *
      rw [hn, List.length_nil] at hsn
      unfold stripFinal at *
      split at hb
      · rename_i hr
        simp only [hr]
        apply failed_inv <;> simp [f4, hi.legal, hcur, f7, hn, overlay, hla, hfull, f2, f14]
      · simp at hb
    · rw [if_neg hn] at hb; simp at hb
  · by_cases h0 : (takeBlock d).1 = []
    · rw [nextBlock_none hi h0] at hb; simp at hb
    · rw [nextBlock_short (List.length_pos_iff.2 h0) (by omega)]
      apply failed_inv <;> simp [f4, f6, f7, f5, f2, f13, f9, f10, f14, hi.legal, hi.curLength, hi.laLength,
          hi.dchainLength, hi.tail, hi.held, hi.ahead]

/-- DEC went from `d` to `f` by the calls `new`, and the source moved past exactly the bytes they gave. -/
structure DecExt (new : List Call) (d f : DecUnit) : Prop where
  bs : f.blockSize = d.blockSize
  ci : f.cipher = d.cipher
  src : f.src = d.src
  sc : f.srcClosed = d.srcClosed
  dr : f.draws = d.draws
  calls : f.calls = d.calls ++ new
  spos : f.spos = d.spos + (sourcedBytes new).length
  bytes : sourcedBytes new = slice d.src d.spos f.spos
  ok : ∀ c ∈ new, decCallOk d.blockSize c ∧ c ≠ .srcClose

theorem DecExt.refl (d : DecUnit) :
    DecExt [] d d := ⟨rfl, rfl, rfl, rfl, rfl,
    by simp, by simp [sourcedBytes], by simp [sourcedBytes, slice_self], by simp⟩

theorem DecExt.trans {a b : List Call} {d f g : DecUnit} (h : DecExt a d f) (k : DecExt b f g) : DecExt
    (a ++ b) d g := by
  have hs : sourcedBytes (a ++ b) = sourcedBytes a ++ sourcedBytes b := by simp [sourcedBytes]
  refine ⟨k.bs.trans h.bs, k.ci.trans h.ci, k.src.trans h.src, k.sc.trans h.sc, k.dr.trans h.dr, ?_, ?_, ?_, ?_⟩
  · rw [k.calls, h.calls, List.append_assoc]
  · rw [k.spos, h.spos, hs, List.length_append, Nat.add_assoc]
  · rw [hs, h.bytes, k.bytes, h.src]
    have e1 := h.spos
    have e2 := k.spos
    rw [slice_append _ _ _ _ (by omega) (by omega)]
  · intro c hc
    rcases List.mem_append.1 hc with hc | hc
    · exact h.ok c hc
    · have := k.ok c hc; rwa [h.bs] at this

theorem srcRead_ext (d : DecUnit) : DecExt [.srcRead d.blockSize (srcNext d.blockSize d)] d
    (srcRead d.blockSize d).2 := by
  refine ⟨rfl, rfl, rfl, rfl, rfl, by simp, by simp [sourcedBytes], ?_, ?_⟩
  · simpa [sourcedBytes] using srcNext_slice _ _
  · simp [decCallOk, length_srcNext]

theorem takeBlock_ext (d : DecUnit) : ∃ new, DecExt new d (takeBlock d).2 := by
  cases hv : d.laValid with
  | true =>
      rw [takeBlock_valid hv]
      exact ⟨[], ⟨rfl, rfl, rfl, rfl, rfl,
          by simp, by simp [sourcedBytes], by simp [sourcedBytes, slice_self], by simp⟩⟩
  | false => rw [takeBlock_invalid hv]; exact ⟨_, srcRead_ext d⟩

theorem decryptAndLookAhead_ext {d : DecUnit} {blk : List Byte} (hb : blk.length = d.blockSize)
    (hc : d.dchain.length = d.blockSize) :
   ∃ new, DecExt new d (decryptAndLookAhead blk d) := by
  have hl : (cbcDecryptBlock blk d).length = d.blockSize :=
      by unfold cbcDecryptBlock; rw [length_comb, length_cipherD _ _ _ hb, hc, Nat.min_self]
  refine ⟨[.cbcDecrypt blk (cbcDecryptBlock blk d), .srcRead d.blockSize (srcNext d.blockSize d)], rfl, rfl, rfl,
      rfl, rfl, by simp, by simp [sourcedBytes], ?_, ?_⟩
  · simpa [sourcedBytes] using srcNext_slice _ _
  · simp [decCallOk, length_srcNext, hb, hl]

theorem stripFinal_ext (d : DecUnit) : DecExt [] d (stripFinal d).2 := by
  unfold stripFinal; split <;> exact ⟨rfl, rfl, rfl, rfl, rfl,
      by simp, by simp [sourcedBytes], by simp [sourcedBytes, slice_self], by simp⟩

theorem nextBlock_ext {d : DecUnit} (hc : d.dchain.length = d.blockSize) : ∃ new, DecExt new d (nextBlock d).2 := by
  obtain ⟨n1, h1⟩ := takeBlock_ext d
  unfold nextBlock; simp only
  split
  · exact ⟨n1, h1⟩
  · split
    · rename_i hb
      obtain ⟨n2, h2⟩ := decryptAndLookAhead_ext (d := (takeBlock d).2) (blk :=
          (takeBlock d).1) (by rw [hb, h1.bs]) (by rw [takeBlock_chain.1, hc, h1.bs])
      split
      · exact ⟨_, (h1.trans h2).trans (stripFinal_ext _)⟩
      · exact ⟨_, h1.trans h2⟩
    · refine ⟨_, (h1.trans (b := []) ?_).trans (stripFinal_ext _)⟩
      exact ⟨rfl, rfl, rfl, rfl, rfl, by simp, by simp [sourcedBytes], by simp [sourcedBytes, slice_self], by simp⟩

theorem readAll_inv (want : Nat) (out : List Byte) (d : DecUnit) (h : Live d) : (readAll want out d).1.Inv ∧
    ∃ new, DecExt new d (readAll want out d).1 := by
  induction want, out, d using readAll_induct with
  | zero out d => rw [readAll_zero]; exact ⟨h.inv, [], DecExt.refl _⟩
  | pend want out d hw hp ih =>
    rw [readAll_pending hw hp]
    obtain ⟨h1, new, h2⟩ := ih (deliver_live h hp hw)
    exact ⟨h1, new, h2.bs, h2.ci, h2.src, h2.sc, h2.dr, h2.calls, h2.spos, h2.bytes, h2.ok⟩
  | drained want out d hw hp hd => rw [readAll_drained hp hd]; exact ⟨h.inv, [], DecExt.refl _⟩
  | ok want out d hw hp hd hb ih =>
    rw [readAll_block hw hp hd, hb]; simp only [if_true]
    obtain ⟨h1, new, h2⟩ := ih (nextBlock_live h hp hd hb)
    obtain ⟨n1, h3⟩ := nextBlock_ext (d := d) h.inv.dchainLength
    exact ⟨h1, _, h3.trans h2⟩
  | fail want out d hw hp hd hb =>
    rw [readAll_block hw hp hd, hb]
    obtain ⟨n1, h3⟩ := nextBlock_ext (d := d) h.inv.dchainLength
    exact ⟨nextBlock_fail_inv h hp hd hb, n1, h3.bs, h3.ci, h3.src, h3.sc, h3.dr, h3.calls, h3.spos, h3.bytes, h3.ok⟩

theorem decInit_facts {d : DecUnit} (h : d.Inv) (hu : d.dst = .uninit) :
   ((decInit d).1 = true → Live (decInit d).2 ∧ ∃ new, DecExt new d (decInit d).2) ∧
   ((decInit d).1 = false → (raiseDecryptionError [] (decInit d).2).1.Inv ∧ ∃ new, DecExt new d (decInit d).2) := by
  have hpos := h.pos
  have hsp := h.position
  by_cases hs : d.src.length - d.spos < d.blockSize
  · rw [decInit_short hs]
    refine ⟨by simp, fun _ => ⟨?_, _, srcRead_ext d⟩⟩
    apply failed_inv <;> simp [h.legal, h.curLength, h.laLength, h.dchainLength, h.tail, h.held, h.ahead,
        length_srcNext]
    omega
  · rw [decInit_ok (by omega)]
    refine ⟨fun _ => ⟨⟨⟨?_, ?_, ?_, ?_, ?_, ?_, ?_, ?_, ?_, ?_, ?_, ?_, ?_⟩, ?_⟩,
        [.srcRead d.blockSize (srcNext d.blockSize d), .cbcInit (srcNext d.blockSize d)], rfl, rfl, rfl, rfl, rfl,
        ?_, ?_, ?_, ?_⟩, by simp⟩
    all_goals simp [h.legal, h.curLength, h.laLength, h.ahead, length_srcNext, decCallOk, sourcedBytes]
    all_goals try omega
    have := srcNext_slice d.blockSize d
    rw [length_srcNext] at this; exact this

theorem decRead_inv (len : Nat) (d : DecUnit) (h : d.Inv) : (decRead len d).1.Inv ∧ ∃ new, DecExt new d
    (decRead len d).1 := by
  cases hd : d.dst with
  | closed => rw [decRead_closed hd]; exact ⟨h, [], DecExt.refl _⟩
  | failed => rw [decRead_failed hd]; exact ⟨h, [], DecExt.refl _⟩
  | uninit =>
    rw [decRead_uninit hd]
    cases hi : (decInit d).1 with
    | true =>
      obtain ⟨h1, n1, h2⟩ := (decInit_facts h hd).1 hi
      obtain ⟨h3, n2, h4⟩ := readAll_inv len [] _ h1
      exact ⟨h3, _, h2.trans h4⟩
    | false =>
      obtain ⟨h1, n1, h2⟩ := (decInit_facts h hd).2 hi
      exact ⟨h1, n1, h2.bs, h2.ci, h2.src, h2.sc, h2.dr, h2.calls, h2.spos, h2.bytes, h2.ok⟩
  | streaming =>
      rw [decRead_of (by simp [hd]) (by simp [hd]) (by simp [hd])]; exact readAll_inv _ _ _ ⟨h, by simp [hd]⟩
  | draining =>
      rw [decRead_of (by simp [hd]) (by simp [hd]) (by simp [hd])]; exact readAll_inv _ _ _ ⟨h, by simp [hd]⟩
  | drained => rw [decRead_of (by simp [hd]) (by simp [hd]) (by simp [hd])]; exact readAll_inv _ _ _ ⟨h, by simp [hd]⟩

theorem decClose_inv (d : DecUnit) (h : d.Inv) : (decClose d).1.Inv := by
  unfold decClose
  split
  · exact h
  all_goals exact ⟨h.legal, h.curLength, h.laLength, h.dchainLength, h.tail, h.held, h.ahead, h.position,
      by simp, by simp, by simp, by simp, by simp⟩

theorem readAll_draining (want : Nat) (out : List Byte) (d : DecUnit) (hi : Live d)
    (h : d.dst = .draining ∨ d.dst = .drained) :
   (d.dst = .drained → (readAll want out d).1.dst = .drained) ∧
    ((readAll want out d).1.dst = .draining ∨ (readAll want out d).1.dst = .drained) := by
  induction want, out, d using readAll_induct with
  | zero out d => rw [readAll_zero]; exact ⟨id, h⟩
  | pend want out d hw hp ih =>
    rw [readAll_pending hw hp]
    have := ih (deliver_live hi hp hw) (by simp only [deliver_dst]; split <;> simp_all)
    refine ⟨fun hd => this.1 ?_, this.2⟩
    simp [hd]
  | drained want out d hw hp hd => rw [readAll_drained hp hd]; exact ⟨id, h⟩
  | ok want out d hw hp hd hb ih => rcases h with h | h
                                    · exact absurd (hi.inv.draining h).1 hp
                                    · exact absurd h hd
  | fail want out d hw hp hd hb => rcases h with h | h
                                   · exact absurd (hi.inv.draining h).1 hp
                                   · exact absurd h hd

theorem tail_nil {d : DecUnit} (h : ¬ d.cpos < d.clen) : d.tailBytes = [] := by
  unfold DecUnit.tailBytes slice; apply List.drop_of_length_le; simp; omega

theorem takeBlock_midway {d : DecUnit} {m : Nat} {out : List Byte} (hi : d.Inv) (h : d.Midway m out) :
    (takeBlock d).1 = (d.src.drop (d.blockSize + d.blockSize * m)).take d.blockSize ∧
    (takeBlock d).2.spos = d.blockSize + d.blockSize * m + (takeBlock d).1.length := by
  have hp := h.position
  have h1 := hi.laLength
  have h2 := hi.ahead
  cases hv : d.laValid with
  | true =>
    rw [takeBlock_valid hv]; rw [hv] at hp
    refine ⟨h.aheadBytes hv, ?_⟩
    simp at hp ⊢; omega
  | false =>
    rw [takeBlock_invalid hv]; rw [hv] at hp
    simp at hp
    refine ⟨by simp [srcNext, hp], ?_⟩
    simp [hp]

/-- What `NextBlock` does to what the stream has brought DEC to, and what its failure says of the source (R166). -/
theorem nextBlock_tracks {d : DecUnit} {m : Nat} {out : List Byte} (hl : Live d) (hp : ¬ d.cpos < d.clen)
    (hs : d.dst = .streaming) (h : d.Midway m out) :
    ((nextBlock d).1 = true → (nextBlock d).2.Tracks out) ∧
    ((nextBlock d).1 = false → decStream d.cipher d.blockSize d.src = (out, .decErr)) := by
  have hi := hl.inv
  have hpos := hi.pos
  obtain ⟨f1, f2, f3, f4, f5, f6, f7, f8, f9, f10, f11, f12, f13, f14, f15, f16⟩ := takeBlock_facts hi hs
  obtain ⟨k1, k2⟩ := takeBlock_midway hi h
  have hout : out = ((plainBlocks d.cipher d.blockSize d.src).take m).flatten := by
    have := h.delivered; rwa [tail_nil hp, List.append_nil] at this
  have hbt := h.blocksThere
  have hms : d.blockSize * (m + 1) = d.blockSize * m + d.blockSize := by ring
  have hbl : (takeBlock d).1.length = min d.blockSize (d.src.length - (d.blockSize + d.blockSize * m)) :=
      by rw [k1]; simp
  have hq : (plainBlocks d.cipher d.blockSize d.src).length = (d.src.length - d.blockSize) / d.blockSize :=
      length_plainBlocks _ _ _
  by_cases hfull : (takeBlock d).1.length = d.blockSize
  · have hblk := plainBlocks_take_succ d.cipher d.blockSize m d.src hpos (by omega)
    rw [← k1, ← h.chain] at hblk
    have hcur : cbcDecryptBlock (takeBlock d).1 (takeBlock d).2 =
        comb (cipherD d.cipher d.blockSize (takeBlock d).1) d.dchain := cbcDecryptBlock_take d
    have hcl : (cbcDecryptBlock (takeBlock d).1 (takeBlock d).2).length = d.blockSize := by
      rw [hcur, length_comb, length_cipherD _ _ _ hfull, hi.dchainLength, Nat.min_self]
    have hsn := length_srcNext d.blockSize (takeBlock d).2
    rw [f2, k2, hfull] at hsn
    rw [nextBlock_full hi hfull]
    by_cases hn : srcNext d.blockSize (takeBlock d).2 = []
    · rw [if_pos hn]
      rw [hn, List.length_nil] at hsn
      have hsl : d.src.length = d.blockSize + d.blockSize * (m + 1) := by omega
      have hqm : (plainBlocks d.cipher d.blockSize d.src).length = m + 1 := by
        rw [hq, hsl, Nat.add_sub_cancel_left, Nat.mul_div_cancel_left _ hpos]
      obtain ⟨e1, e2⟩ := flatten_take_last (B := d.blockSize) hqm hblk
      have hun : unpadMessage d.blockSize (plainBlocks d.cipher d.blockSize d.src).flatten =
          (padRemove (cbcDecryptBlock (takeBlock d).1 (takeBlock d).2)).map fun r => out ++ r := by
        rw [e1, ← hcur, ← hout]
        exact unpad_append hpos hcl
      have hds : decStream d.cipher d.blockSize d.src =
          match (padRemove (cbcDecryptBlock (takeBlock d).1 (takeBlock d).2)) with
          | some r => (out ++ r, .eos) | none => (out, .decErr) := by
        unfold decStream
        simp only
        rw [if_neg (by omega), if_neg (by omega), if_neg (by rw [hsl]; simp), hun, e2, ← hout]
        cases padRemove (cbcDecryptBlock (takeBlock d).1 (takeBlock d).2) <;> rfl
      have htk : (decryptAndLookAhead (takeBlock d).1 (takeBlock d).2).cur.take (decryptAndLookAhead (takeBlock d).1 (takeBlock d).2).clen = cbcDecryptBlock (takeBlock d).1 (takeBlock d).2 := by
        simp only [decryptAndLookAhead_cur, decryptAndLookAhead_clen, f4]
        rw [List.take_of_length_le (by omega)]
      unfold stripFinal
      rw [htk, hds]
      cases hr : padRemove (cbcDecryptBlock (takeBlock d).1 (takeBlock d).2) with
      | none => simp
      | some r =>
        refine ⟨fun _ => ?_, by simp⟩
        rw [hr] at hds
        simp only
        have hrl := padRemove_length hr
        have hds' : decStream (takeBlock d).2.cipher (takeBlock d).2.blockSize (takeBlock d).2.src = (out ++ r,
            .eos) := by rw [f3, f4, f2]; exact hds
        by_cases h0 : r.length > 0
        · unfold DecUnit.Tracks
          simp only [h0, if_true]
          simp only [DecUnit.tailBytes, decryptAndLookAhead_cipher, decryptAndLookAhead_blockSize,
              decryptAndLookAhead_src, decryptAndLookAhead_cpos, decryptAndLookAhead_cur]
          rw [hds']
          simp only [slice, List.drop_zero]
          rw [← hrl.2]
        · unfold DecUnit.Tracks
          simp only [h0, if_false]
          simp only [decryptAndLookAhead_cipher, decryptAndLookAhead_blockSize, decryptAndLookAhead_src]
          rw [hds']
          have : r = [] := List.length_eq_zero_iff.1 (by omega)
          simp [this]
    · rw [if_neg hn]
      have hn1 : 1 ≤ (srcNext d.blockSize (takeBlock d).2).length := List.length_pos_iff.2 hn
      refine ⟨fun _ => ?_, by simp⟩
      unfold DecUnit.Tracks
      simp only [decryptAndLookAhead_dst, f8, hs]
      refine ⟨m + 1, ?_, ?_, ?_, ?_, ?_, ?_, ?_⟩
      · simp only [decryptAndLookAhead_blockSize, decryptAndLookAhead_src, f4, f2]; omega
      · simp only [decryptAndLookAhead_blockSize, decryptAndLookAhead_src, f4, f2]; omega
      · simp
      · simp only [decryptAndLookAhead_blockSize, decryptAndLookAhead_spos, decryptAndLookAhead_laValid,
            decryptAndLookAhead_laLen, f4, if_true]; omega
      · intro _
        simp only [decryptAndLookAhead_la, decryptAndLookAhead_laLen, decryptAndLookAhead_src,
            decryptAndLookAhead_blockSize, f4, f7, f2, take_overlay]
        rw [srcNext, f2, k2, hfull, hms, Nat.add_assoc]
      · simp only [decryptAndLookAhead_dchain, decryptAndLookAhead_src, decryptAndLookAhead_blockSize, f4, f2]
        rw [k1, hms, Nat.add_comm]
      · simp only [DecUnit.tailBytes, decryptAndLookAhead_cur, decryptAndLookAhead_cpos, decryptAndLookAhead_clen,
            decryptAndLookAhead_cipher, decryptAndLookAhead_src, decryptAndLookAhead_blockSize, f4, f2, f3]
        rw [hblk, hcur, List.flatten_append, ← hout]
        simp only [slice, List.drop_zero, List.flatten_cons, List.flatten_nil, List.append_nil]
        rw [List.take_of_length_le]
        rw [← hcur]; exact hcl.le
  · by_cases h0 : (takeBlock d).1 = []
    · have hv : d.laValid = false := by
        cases hv : d.laValid with
        | false => rfl
        | true =>
          rw [takeBlock_valid hv] at h0
          have hc := hi.streaming hs
          have h1 := hi.laLength
          have h2 := congrArg List.length h0
          rw [List.length_take, List.length_nil] at h2
          rcases hc with hc | hc
          · simp [hv] at hc
          · omega
      have hm : m = 0 := by
        by_contra hc
        have := h.ahead.2 (by omega)
        simp [hv] at this
      subst hm
      rw [nextBlock_none hi h0]
      refine ⟨fun _ => ?_, by simp⟩
      rw [h0, List.length_nil] at hbl
      unfold DecUnit.Tracks
      simp only [f3, f4, f2]
      unfold decStream
      simp only
      rw [if_neg (by omega), if_pos (by omega)]
      simp [hout]
    · have h1 := List.length_pos_iff.2 h0
      rw [nextBlock_short h1 (by omega)]
      refine ⟨by simp, fun _ => ?_⟩
      have hr : d.src.length - d.blockSize = d.blockSize * m + (takeBlock d).1.length := by omega
      have hmod : (d.src.length - d.blockSize) % d.blockSize ≠ 0 := by
        rw [hr, Nat.mul_add_mod, Nat.mod_eq_of_lt (by omega)]; omega
      have hqm : (plainBlocks d.cipher d.blockSize d.src).length = m := by
        rw [hq, hr, Nat.mul_add_div hpos, Nat.div_eq_of_lt (by omega)]; rfl
      unfold decStream
      simp only
      rw [if_neg (by omega), if_neg (by omega), if_pos hmod, hout, List.take_of_length_le (by omega)]

theorem deliver_tracks {d : DecUnit} {out : List Byte} {want : Nat} (hl : Live d) (hp : d.cpos < d.clen)
    (hw : want ≠ 0) (h : d.Tracks out) :
    (deliver (deliverCount want d) d).Tracks (out ++ slice d.cur d.cpos (d.cpos + deliverCount want d)) := by
  have hm : d.cpos + deliverCount want d ≤ d.clen := by unfold deliverCount; omega
  have hsa : slice d.cur d.cpos (d.cpos + deliverCount want d) ++
      slice d.cur (d.cpos + deliverCount want d) d.clen = d.tailBytes := slice_append _ _ _ _ (by omega) hm
  rcases hl.live with hs | hs | hs
  · unfold DecUnit.Tracks at h ⊢
    simp only [deliver_dst, hs] at h ⊢
    rw [if_neg (by simp)]
    obtain ⟨m, hm⟩ := h
    refine ⟨m, hm.ivThere, hm.blocksThere, hm.ahead, hm.position, hm.aheadBytes, hm.chain, ?_⟩
    simp only [DecUnit.tailBytes, deliver_cur, deliver_cpos, deliver_clen, deliver_cipher, deliver_blockSize,
        deliver_src]
    rw [List.append_assoc, hsa]; exact hm.delivered
  · unfold DecUnit.Tracks at h ⊢
    simp only [deliver_dst, hs] at h ⊢
    by_cases he : d.cpos + deliverCount want d = d.clen
    · rw [if_pos (by simp [he])]
      simp only [deliver_cipher, deliver_blockSize, deliver_src]
      rw [h, he]; rfl
    · rw [if_neg (by simp [he])]
      simp only [DecUnit.tailBytes, deliver_cur, deliver_cpos, deliver_clen, deliver_cipher, deliver_blockSize,
          deliver_src]
      rw [h, List.append_assoc, hsa]
  · have := (hl.inv.drained hs).1; omega

/-- The read loop keeps what the stream has brought DEC to. -/
theorem readAll_tracks (want : Nat) (out : List Byte) (d : DecUnit) : ∀ pre, Live d → d.Tracks (pre ++ out) →
    (readAll want out d).1.Tracks (pre ++ (readAll want out d).2.data) := by
  induction want, out, d using readAll_induct with
  | zero out d => intro pre hl h; rw [readAll_zero]; exact h
  | pend want out d hw hp ih =>
    intro pre hl h
    rw [readAll_pending hw hp]
    apply ih pre (deliver_live hl hp hw)
    rw [← List.append_assoc]; exact deliver_tracks hl hp hw h
  | drained want out d hw hp hd => intro pre hl h; rw [readAll_drained hp hd]; exact h
  | ok want out d hw hp hd hb ih =>
    intro pre hl h
    have hs : d.dst = .streaming := by
      rcases hl.live with h1 | h1 | h1
      · exact h1
      · exact absurd (hl.inv.draining h1).1 hp
      · exact absurd h1 hd
    rw [readAll_block hw hp hd, hb]; simp only [if_true]
    unfold DecUnit.Tracks at h; rw [hs] at h
    obtain ⟨m, hm⟩ := h
    exact ih pre (nextBlock_live hl hp hd hb) ((nextBlock_tracks hl hp hs hm).1 hb)
  | fail want out d hw hp hd hb =>
    intro pre hl h
    have hs : d.dst = .streaming := by
      rcases hl.live with h1 | h1 | h1
      · exact h1
      · exact absurd (hl.inv.draining h1).1 hp
      · exact absurd h1 hd
    rw [readAll_block hw hp hd, hb]; simp only [Bool.false_eq_true, if_false]
    unfold DecUnit.Tracks at h; rw [hs] at h
    obtain ⟨m, hm⟩ := h
    have hk := (nextBlock_tracks hl hp hs hm).2 hb
    obtain ⟨n1, h3⟩ := nextBlock_ext (d := d) hl.inv.dchainLength
    unfold DecUnit.Tracks
    simp only [raiseDecryptionError_dst, raiseDecryptionError_snd, raiseDecryptionError_cipher,
        raiseDecryptionError_blockSize, raiseDecryptionError_src, h3.ci, h3.bs, h3.src, decErrReply]
    exact hk

theorem readAll_length (want : Nat) (out : List Byte) (d : DecUnit) : Live d →
    (readAll want out d).2.data.length ≤ out.length + want ∧
    ((readAll want out d).2.status = .ok → (readAll want out d).2.data.length = out.length + want ∧
    (readAll want out d).1.dst ≠ .drained) ∧
    ((readAll want out d).2.status = .eos → (readAll want out d).1.dst = .drained) ∧ Status.invalid ≠
    (readAll want out d).2.status ∧ Status.encErr ≠ (readAll want out d).2.status := by
  have hrs : ∀ d : DecUnit, Live d → (readStatus d.dst = .ok ∧ d.dst ≠ .drained) ∨ (readStatus d.dst = .eos ∧
      d.dst = .drained) := by
    intro d h; rcases h.live with h | h | h <;> simp [h, readStatus]
  induction want, out, d using readAll_induct with
  | zero out d =>
    intro hl
    rw [readAll_zero]
    rcases hrs d hl with ⟨h1, h2⟩ | ⟨h1, h2⟩
    · simp [readReply, h1, h2]
    · simp [readReply, h2, readStatus]
  | pend want out d hw hp ih =>
    intro hl
    have hi := hl.inv
    rw [readAll_pending hw hp]
    have hsl : (slice d.cur d.cpos (d.cpos + deliverCount want d)).length = deliverCount want d := by
      have := hi.curLength; have := hi.held; have := hi.tail
      simp [slice, deliverCount]; omega
    have hm : deliverCount want d ≤ want := by unfold deliverCount; omega
    obtain ⟨h1, h2, h3⟩ := ih (deliver_live hl hp hw)
    rw [List.length_append, hsl] at h1 h2
    exact ⟨by omega, fun h => ⟨by have := (h2 h).1; omega, (h2 h).2⟩, h3⟩
  | drained want out d hw hp hd => intro hl; rw [readAll_drained hp hd]; simp [readReply, hd, readStatus]
  | ok want out d hw hp hd hb ih =>
    intro hl
    rw [readAll_block hw hp hd, hb]; simp only [if_true]
    exact ih (nextBlock_live hl hp hd hb)
  | fail want out d hw hp hd hb =>
    intro hl
    rw [readAll_block hw hp hd, hb]; simp [decErrReply]

theorem decInit_tracks {d : DecUnit} (h : d.Inv) (hu : d.dst = .uninit) (hsp : d.spos = 0) :
   ((decInit d).1 = true → (decInit d).2.Tracks []) ∧
    ((decInit d).1 = false → decStream d.cipher d.blockSize d.src = ([], .decErr)) := by
  have hpos := h.pos
  by_cases hs : d.src.length - d.spos < d.blockSize
  · rw [decInit_short hs]
    refine ⟨by simp, fun _ => ?_⟩
    unfold decStream; simp only; rw [if_pos (by omega)]
  · rw [decInit_ok (by omega)]
    refine ⟨fun _ => ?_, by simp⟩
    unfold DecUnit.Tracks
    simp only
    refine ⟨0, ?_, ?_, ?_, ?_, ?_, ?_, ?_⟩
    · simp; omega
    · simp; omega
    · simp
    · simp [hsp, length_srcNext]; omega
    · simp
    · simp [srcNext, hsp]
    · simp [DecUnit.tailBytes, slice]

theorem decRead_tracks {len : Nat} {d : DecUnit} {out : List Byte} (h : d.Inv) (ht : d.Tracks out)
    (hc : d.dst ≠ .closed) :
   (decRead len d).1.Tracks (out ++ (decRead len d).2.data) := by
  cases hd : d.dst with
  | closed => exact absurd hd hc
  | failed => rw [decRead_failed hd]; simpa [decErrReply] using ht
  | uninit =>
    have ht' := ht
    unfold DecUnit.Tracks at ht'; rw [hd] at ht'; simp only at ht'
    obtain ⟨rfl, hsp⟩ := ht'
    rw [decRead_uninit hd]
    obtain ⟨k1, k2⟩ := decInit_tracks h hd hsp
    cases hi : (decInit d).1 with
    | true => simpa using readAll_tracks len [] _ [] ((decInit_facts h hd).1 hi).1 (k1 hi)
    | false =>
      obtain ⟨n, hx⟩ := ((decInit_facts h hd).2 hi).2
      unfold DecUnit.Tracks
      simpa [decErrReply, hx.ci, hx.bs, hx.src] using k2 hi
  | streaming =>
      rw [decRead_of (by simp [hd]) (by simp [hd]) (by simp [hd])]; exact readAll_tracks _ _ _ _ ⟨h,
          by simp [hd]⟩ (by simpa using ht)
  | draining =>
      rw [decRead_of (by simp [hd]) (by simp [hd]) (by simp [hd])]; exact readAll_tracks _ _ _ _ ⟨h,
          by simp [hd]⟩ (by simpa using ht)
  | drained =>
      rw [decRead_of (by simp [hd]) (by simp [hd]) (by simp [hd])]; exact readAll_tracks _ _ _ _ ⟨h,
          by simp [hd]⟩ (by simpa using ht)

/-- The three ways a `DREAD` ends (R163). -/
theorem decRead_outcome {len : Nat} {d : DecUnit} (h : d.Inv) (hc : d.dst ≠ .closed) :
   (decRead len d).2.data.length ≤ len ∧
   (((decRead len d).2.status = .ok ∧ (decRead len d).2.data.length = len ∧ (decRead len d).1.dst ≠ .drained ∧
    (decRead len d).1.dst ≠ .failed) ∨
    ((decRead len d).2.status = .eos ∧ (decRead len d).1.dst = .drained) ∨
    ((decRead len d).2.status = .decErr ∧ (decRead len d).1.dst = .failed)) := by
  have core : ∀ d, Live d → (readAll len [] d).2.data.length ≤ len ∧
   (((readAll len [] d).2.status = .ok ∧ (readAll len [] d).2.data.length = len ∧
       (readAll len [] d).1.dst ≠ .drained ∧ (readAll len [] d).1.dst ≠ .failed) ∨
    ((readAll len [] d).2.status = .eos ∧ (readAll len [] d).1.dst = .drained) ∨ ((readAll len [] d).2.status =
        .decErr ∧ (readAll len [] d).1.dst = .failed)) := by
    intro d hl
    obtain ⟨h1, h2, h3, h4, h5⟩ := readAll_length len [] d hl
    simp only [List.length_nil, Nat.zero_add] at h1 h2
    refine ⟨h1, ?_⟩
    cases hst : (readAll len [] d).2.status with
    | ok => left; exact ⟨rfl, (h2 hst).1, (h2 hst).2, readAll_failed _ _ _ hl.ne.2.1 (by simp [hst])⟩
    | eos => right; left; exact ⟨rfl, h3 hst⟩
    | decErr =>
      right; right
      rcases (readAll_reply len [] d).2 with h | h
      · exact ⟨rfl, h.2⟩
      · rw [hst] at h; exact absurd h.symm (readStatus_ne_err _)
    | encErr => exact absurd hst.symm h5
    | invalid => exact absurd hst.symm h4
  cases hd : d.dst with
  | closed => exact absurd hd hc
  | failed => rw [decRead_failed hd]; simp [decErrReply, hd]
  | uninit =>
    rw [decRead_uninit hd]
    cases hi : (decInit d).1 with
    | true => exact core _ ((decInit_facts h hd).1 hi).1
    | false => simp [decErrReply]
  | streaming => rw [decRead_of (by simp [hd]) (by simp [hd]) (by simp [hd])]; exact core _ ⟨h, by simp [hd]⟩
  | draining => rw [decRead_of (by simp [hd]) (by simp [hd]) (by simp [hd])]; exact core _ ⟨h, by simp [hd]⟩
  | drained => rw [decRead_of (by simp [hd]) (by simp [hd]) (by simp [hd])]; exact core _ ⟨h, by simp [hd]⟩

theorem midway_prefix {d : DecUnit} {m : Nat} {out : List Byte} (hi : d.Inv) (hs : d.dst = .streaming)
    (h : d.Midway m out) : out <+: (decStream d.cipher d.blockSize d.src).1 := by
  have hpos := hi.pos
  have hd := h.delivered
  have hpre : out <+: ((plainBlocks d.cipher d.blockSize d.src).take m).flatten := ⟨_, hd⟩
  rcases Nat.eq_zero_or_pos m with rfl | hm
  · have : out = [] := by simpa using hpre
    rw [this]; exact List.nil_prefix
  have hv := h.ahead.2 hm
  have hla : 1 ≤ d.laLen := by
    rcases hi.streaming hs with hc | hc
    · rw [hv] at hc; simp at hc
    · exact hc.2.2
  have hpo := h.position
  have hle := hi.position
  rw [hv] at hpo; simp only [if_true] at hpo
  have hlt : d.blockSize + d.blockSize * m < d.src.length := by omega
  refine hpre.trans ?_
  have hB1 : d.blockSize ≤ d.blockSize * m := Nat.le_mul_of_pos_right _ hm
  by_cases hr : (d.src.length - d.blockSize) % d.blockSize = 0
  · obtain ⟨q, y, e1, e2, e3, e4, e5, e6⟩ := decStream_data d.cipher d.blockSize d.src hpos (by omega) hr
    have hmq : m ≤ q := by
      have : d.blockSize * m < d.blockSize * (q + 1) := by omega
      have := Nat.lt_of_mul_lt_mul_left this
      omega
    have := take_flatten_prefix (plainBlocks d.cipher d.blockSize d.src) m q hmq
    rw [e6]
    cases padRemove y with
    | none => exact this
    | some r => exact this.trans (List.prefix_append _ _)
  · unfold decStream; simp only
    rw [if_neg (by omega), if_neg (by omega), if_pos hr]
    conv => rhs; rw [← List.take_of_length_le (Nat.le_refl (plainBlocks d.cipher d.blockSize d.src).length)]
    by_cases hmq : m ≤ (plainBlocks d.cipher d.blockSize d.src).length
    · exact take_flatten_prefix _ _ _ hmq
    · rw [List.take_of_length_le (by omega), List.take_of_length_le (by omega)]

/-- What has been delivered is a prefix of all that the source delivers. -/
theorem tracks_prefix {d : DecUnit} {out : List Byte} (hi : d.Inv) (h : d.Tracks out) : out <+:
    (decStream d.cipher d.blockSize d.src).1 := by
  unfold DecUnit.Tracks at h
  cases hd : d.dst with
  | uninit => rw [hd] at h; simp only at h; rw [h.1]; exact List.nil_prefix
  | streaming => rw [hd] at h; obtain ⟨m, hm⟩ := h; exact midway_prefix hi hd hm
  | draining => rw [hd] at h; simp only at h; rw [h]; exact List.prefix_append _ _
  | drained => rw [hd] at h; simp only at h; rw [h]
  | failed => rw [hd] at h; simp only at h; rw [h]
  | closed => rw [hd] at h; exact h

theorem fresh_tracks {d : DecUnit} (h : d.Fresh) : d.Tracks [] := by
  unfold DecUnit.Tracks; rw [h.uninit]; exact ⟨rfl, h.start⟩

/-- One `DREAD` longer than the source reads it to its end. -/
theorem decRead_whole {d : DecUnit} {len : Nat} (hf : d.Fresh) (hl : d.src.length < len) :
    (decRead len d).2.data = (decStream d.cipher d.blockSize d.src).1 ∧ (decRead len d).2.status =
    (decStream d.cipher d.blockSize d.src).2 ∧
    ((decRead len d).2.status = .eos → (decRead len d).1.dst = .drained) := by
  have hc : d.dst ≠ .closed := by simp [hf.uninit]
  have ht := decRead_tracks (len := len) hf.inv (fresh_tracks hf) hc
  obtain ⟨hinv, new, hx⟩ := decRead_inv len d hf.inv
  have hpre := tracks_prefix hinv ht
  have hlen := decStream_length d.cipher d.blockSize d.src hf.inv.pos
  rw [List.nil_append] at ht hpre
  rw [hx.ci, hx.bs, hx.src] at hpre
  have := hpre.length_le
  unfold DecUnit.Tracks at ht
  rcases (decRead_outcome (len := len) hf.inv hc).2 with h | h | h
  · omega
  · rw [h.2] at ht; simp only at ht; rw [hx.ci, hx.bs, hx.src] at ht; rw [ht]; exact ⟨rfl, h.1, fun _ => h.2⟩
  · rw [h.2] at ht; simp only at ht; rw [hx.ci, hx.bs, hx.src] at ht; rw [ht]; exact ⟨rfl, h.1,
        fun hc => by rw [h.1] at hc; simp at hc⟩

/-- The ciphertext blocks of the source. -/
def blocksOf (d : DecUnit) : List (List Byte) := fullBlocks d.blockSize (d.src.drop d.blockSize)

/-- DEC's calls up to the end of the stream. -/
def allCalls (d : DecUnit) : List Call := [.srcRead d.blockSize (d.src.take d.blockSize), .cbcInit
    (d.src.take d.blockSize), .srcRead d.blockSize
    ((blocksOf d).headD [])] ++ pullCalls d.cipher d.blockSize (d.src.take d.blockSize) (blocksOf d)

/-- The call record of a unit on the way through a stream of whole blocks. -/
def DecCalls (c0 : List Call) (d : DecUnit) : Prop :=
  (d.dst = .streaming → ∃ m out, d.Midway m out ∧ c0 ++ allCalls d = d.calls ++ (if d.laValid then
      [] else [.srcRead d.blockSize ((blocksOf d).headD [])]) ++
      pullCalls d.cipher d.blockSize d.dchain ((blocksOf d).drop m)) ∧
  (d.dst = .draining ∨ d.dst = .drained → d.calls = c0 ++ allCalls d)

theorem nextBlock_calls {c0 : List Call} {d : DecUnit} (hl : Live d) (hp : ¬ d.cpos < d.clen)
    (hs : d.dst = .streaming) (hw : d.src.length % d.blockSize = 0) (hw2 : d.blockSize < d.src.length)
    (h : DecCalls c0 d) (hb : (nextBlock d).1 = true) : DecCalls c0 (nextBlock d).2 := by
  have hi := hl.inv
  have hpos := hi.pos
  obtain ⟨f1, f2, f3, f4, f5, f6, f7, f8, f9, f10, f11, f12, f13, f14, f15, f16⟩ := takeBlock_facts hi hs
  obtain ⟨m, out, hm, hc⟩ := h.1 hs
  obtain ⟨k1, k2⟩ := takeBlock_midway hi hm
  have hbt := hm.blocksThere
  have hms : d.blockSize * (m + 1) = d.blockSize * m + d.blockSize := by ring
  have hbl : (takeBlock d).1.length = min d.blockSize (d.src.length - (d.blockSize + d.blockSize * m)) :=
      by rw [k1]; simp
  obtain ⟨q, hq⟩ : d.blockSize ∣ d.src.length := Nat.dvd_of_mod_eq_zero hw
  by_cases hfull : (takeBlock d).1.length = d.blockSize
  · have hblk := fullBlocks_drop (B := d.blockSize) m (d.src.drop d.blockSize) hpos (by simp; omega)
    rw [List.drop_drop, ← k1] at hblk
    have hcalls : (takeBlock d).2.calls = d.calls ++ (if d.laValid then
        [] else [.srcRead d.blockSize ((blocksOf d).headD [])]) := by
      cases hv : d.laValid with
      | true => rw [takeBlock_valid hv]; simp
      | false =>
        have hm0 : m = 0 := by
          by_contra hc
          have := hm.ahead.2 (by omega)
          simp [hv] at this
        subst hm0
        rw [List.drop_zero] at hblk
        have : (blocksOf d).headD [] = (takeBlock d).1 := by unfold blocksOf; rw [hblk]; rfl
        rw [this, takeBlock_invalid hv]; simp
    have hsn : srcNext d.blockSize (takeBlock d).2 = ((blocksOf d).drop (m + 1)).headD [] := by
      unfold srcNext; rw [f2, k2, hfull]
      by_cases hr : d.src.length = d.blockSize + d.blockSize * m + d.blockSize
      · have : (blocksOf d).drop (m + 1) = [] := by
          apply List.drop_of_length_le
          unfold blocksOf; rw [length_fullBlocks]
          have : (d.src.drop d.blockSize).length = d.blockSize * (m + 1) := by simp; omega
          rw [this, Nat.mul_div_cancel_left _ hpos]
        rw [this, ← hr]; simp
      · have h5 : d.blockSize + d.blockSize * (m + 1) + d.blockSize ≤ d.src.length := by
          have h6 : d.blockSize * (m + 2) < d.blockSize * q := by
            rw [← hq]
            have : d.blockSize * (m + 2) = d.blockSize * m + d.blockSize + d.blockSize := by ring
            omega
          have h7 := Nat.lt_of_mul_lt_mul_left h6
          have h8 : d.blockSize * (m + 3) ≤ d.blockSize * q := Nat.mul_le_mul_left _ h7
          have : d.blockSize * (m + 3) = d.blockSize * m + d.blockSize + d.blockSize + d.blockSize := by ring
          omega
        have := fullBlocks_drop (B := d.blockSize) (m+1) (d.src.drop d.blockSize) hpos (by
          have : d.blockSize * (m + 1 + 1) = d.blockSize * (m + 1) + d.blockSize := by ring
          simp; omega)
        unfold blocksOf
        rw [this, List.drop_drop, hms, Nat.add_assoc]; rfl
    have hbo : (blocksOf d).drop m = (takeBlock d).1 :: (blocksOf d).drop (m + 1) := by unfold blocksOf; exact hblk
    have hfin : c0 ++ allCalls d = (decryptAndLookAhead (takeBlock d).1 (takeBlock d).2).calls ++
        pullCalls d.cipher d.blockSize (takeBlock d).1 ((blocksOf d).drop (m + 1)) := by
      rw [hc, hbo]
      simp only [decryptAndLookAhead_calls, hcalls, f4, pullCalls, hsn, cbcDecryptBlock_take]
      simp
    have htr := (nextBlock_tracks hl hp hs hm).1 hb
    rw [nextBlock_full hi hfull] at hb htr ⊢
    have hac : ∀ f : DecUnit, f.src = d.src → f.blockSize = d.blockSize → f.cipher = d.cipher → allCalls f =
        allCalls d ∧ blocksOf f = blocksOf d := by
      intro f a b c; unfold allCalls blocksOf; rw [a, b, c]; exact ⟨rfl, rfl⟩
    by_cases hn : srcNext d.blockSize (takeBlock d).2 = []
    · rw [if_pos hn] at hb htr ⊢
      have hrest : (blocksOf d).drop (m + 1) = [] := by
        rw [hn] at hsn
        have hsl := length_srcNext d.blockSize (takeBlock d).2
        rw [hn, f2, k2, hfull, List.length_nil] at hsl
        apply List.drop_of_length_le
        unfold blocksOf; rw [length_fullBlocks]
        have : (d.src.drop d.blockSize).length = d.blockSize * (m + 1) := by simp; omega
        rw [this, Nat.mul_div_cancel_left _ hpos]
      rw [hrest] at hfin
      simp only [pullCalls, List.append_nil] at hfin
      have hx := stripFinal_ext (decryptAndLookAhead (takeBlock d).1 (takeBlock d).2)
      obtain ⟨a1, a2⟩ := hac (stripFinal (decryptAndLookAhead (takeBlock d).1 (takeBlock d).2)).2 (by rw [hx.src]; simp [f2]) (by rw [hx.bs]; simp [f4]) (by rw [hx.ci]; simp [f3])
      refine ⟨fun hd => ?_, fun _ => by rw [a1, hfin, hx.calls]; simp⟩
      exfalso
      unfold stripFinal at hd hb
      split at hb
      · simp at hb
      · rename_i r hr
        simp only [hr] at hd
        split at hd <;> simp at hd
    · rw [if_neg hn] at htr ⊢
      obtain ⟨a1, a2⟩ := hac (decryptAndLookAhead (takeBlock d).1 (takeBlock d).2) (by simp [f2]) (by simp [f4]) (by simp [f3])
      refine ⟨fun hd => ?_, fun hd => by simp [f8, hs] at hd⟩
      unfold DecUnit.Tracks at htr; rw [hd] at htr
      obtain ⟨m', hm'⟩ := htr
      have hmm : m' = m + 1 := by
        have e1 := hm'.position
        have e2 := hm'.blocksThere
        simp [f4, f2] at e1 e2
        rw [k2, hfull] at e1
        have hsl := length_srcNext d.blockSize (takeBlock d).2
        have : d.blockSize * m' = d.blockSize * (m + 1) := by rw [hms]; omega
        exact Nat.eq_of_mul_eq_mul_left hpos this
      subst hmm
      refine ⟨m + 1, out, hm', ?_⟩
      rw [a1, a2, hfin]
      simp [f3, f4]
  · have h0 : (takeBlock d).1.length = 0 := by
      have h6 : d.src.length - (d.blockSize + d.blockSize * m) < d.blockSize := by omega
      have h7 : d.blockSize * q < d.blockSize * (m + 2) := by
        rw [← hq]
        have : d.blockSize * (m + 2) = d.blockSize * m + d.blockSize + d.blockSize := by ring
        omega
      have h8 := Nat.lt_of_mul_lt_mul_left h7
      have h9 : d.blockSize * q ≤ d.blockSize * (m + 1) := Nat.mul_le_mul_left _ (by omega)
      omega
    have hv : d.laValid = false := by
      cases hv : d.laValid with
      | false => rfl
      | true =>
        rw [takeBlock_valid hv] at h0
        have hc := hi.streaming hs
        have h1 := hi.laLength
        rw [List.length_take] at h0
        rcases hc with hc | hc
        · simp [hv] at hc
        · omega
    have hm0 : m = 0 := by
      by_contra hc
      have := hm.ahead.2 (by omega)
      simp [hv] at this
    subst hm0
    omega

theorem readAll_calls {c0 : List Call} (want : Nat) (out : List Byte) (d : DecUnit) : Live d →
    d.src.length % d.blockSize = 0 → d.blockSize < d.src.length → DecCalls c0 d →
    (readAll want out d).2.status ≠ .decErr → DecCalls c0 (readAll want out d).1 := by
  induction want, out, d using readAll_induct with
  | zero out d => intro _ _ _ h _; rw [readAll_zero]; exact h
  | pend want out d hw hp ih =>
    intro hl h1 h2 h3 h4
    rw [readAll_pending hw hp] at h4 ⊢
    refine ih (deliver_live hl hp hw) h1 h2 ⟨fun hd => ?_, fun hd => ?_⟩ h4
    · have hs : d.dst = .streaming := by simp only [deliver_dst] at hd; split at hd <;> simp_all
      obtain ⟨m, o, hm, hc⟩ := h3.1 hs
      have htr := deliver_tracks (out := o) hl hp hw (by unfold DecUnit.Tracks; rw [hs]; exact ⟨m, hm⟩)
      refine ⟨m, o ++ slice d.cur d.cpos (d.cpos + deliverCount want d), ⟨hm.ivThere, hm.blocksThere, hm.ahead,
          hm.position, hm.aheadBytes, hm.chain, ?_⟩, hc⟩
      have hmm : d.cpos + deliverCount want d ≤ d.clen := by unfold deliverCount; omega
      have hsa : slice d.cur d.cpos (d.cpos + deliverCount want d) ++
          slice d.cur (d.cpos + deliverCount want d) d.clen = d.tailBytes := slice_append _ _ _ _ (by omega) hmm
      simp only [DecUnit.tailBytes, deliver_cur, deliver_cpos, deliver_clen, deliver_cipher, deliver_blockSize,
          deliver_src]
      rw [List.append_assoc, hsa]; exact hm.delivered
    · apply h3.2
      rcases hl.live with h | h | h
      · simp [h] at hd
      · exact .inl h
      · exact .inr h
  | drained want out d hw hp hd => intro _ _ _ h _; rw [readAll_drained hp hd]; exact h
  | ok want out d hw hp hd hb ih =>
    intro hl h1 h2 h3 h4
    have hs : d.dst = .streaming := by
      rcases hl.live with h1 | h1 | h1
      · exact h1
      · exact absurd (hl.inv.draining h1).1 hp
      · exact absurd h1 hd
    rw [readAll_block hw hp hd, hb] at h4 ⊢; simp only [if_true] at h4 ⊢
    obtain ⟨n1, hx⟩ := nextBlock_ext (d := d) hl.inv.dchainLength
    exact ih (nextBlock_live hl hp hd hb) (by rw [hx.src, hx.bs]; exact h1) (by rw [hx.src, hx.bs]; exact h2) (nextBlock_calls hl hp hs h1 h2 h3 hb) h4
  | fail want out d hw hp hd hb =>
    intro hl h1 h2 h3 h4
    rw [readAll_block hw hp hd, hb] at h4; simp [decErrReply] at h4

end Sys2Proof.Machine
end

