-- ==== Sys2Proof/Laws/Encryptor.lean ====
section
/-! SUPPORT. ENC: the IV step, one byte of a payload, the payload loop, and closing (41_stream_encryptor.md R130 to
R135). -/

namespace Sys2Proof.Machine

theorem EncUnit.Inv.pos {e : EncUnit} (h : e.Inv) : 1 ≤ e.blockSize := by
  have := h.legal; simp [legalBlockSize, Config.minBlockSize] at this; omega

theorem EncUnit.Inv.le {e : EncUnit} (h : e.Inv) : e.blockSize ≤ 255 := by
  have := h.legal; simp [legalBlockSize, Config.maxBlockSize] at this; omega

theorem length_cbcEncryptBlock {m : List Byte} {e : EncUnit} (h : e.Inv) (hm : m.length = e.blockSize) :
    (cbcEncryptBlock m e).length = e.blockSize :=
  length_cipherE _ _ _ (by simp [length_comb, h.echainLength, hm])

/-- Everything the IV step can do (R131). -/
theorem encInit_cases (e : EncUnit) :
   (nextRandom e.blockSize e = none ∧ encInit e = (false, (randomBytes e.blockSize e).2)) ∨
   (∃ iv, nextRandom e.blockSize e = some iv ∧ iv.length = e.blockSize ∧
     ((nextAccept e.blockSize (randomBytes e.blockSize e).2 ≠ e.blockSize ∧ encInit e = (false, (sinkWrite iv
    (randomBytes e.blockSize e).2).2)) ∨
      (nextAccept e.blockSize (randomBytes e.blockSize e).2 = e.blockSize ∧
        encInit e = (true, { encCbcInit iv (sinkWrite iv (randomBytes e.blockSize e).2).2 with elen := 0, est := .streaming })))) := by
  cases hr : nextRandom e.blockSize e with
  | none =>
    left
    have h3 : randomBytes e.blockSize e = (none, (randomBytes e.blockSize e).2) := by rw [← hr]; rfl
    refine ⟨rfl, ?_⟩
    unfold encInit; rw [h3]
  | some iv =>
    right
    have hl := nextRandom_length hr
    have h3 : randomBytes e.blockSize e = (some iv, (randomBytes e.blockSize e).2) := by rw [← hr]; rfl
    refine ⟨iv, rfl, hl, ?_⟩
    unfold encInit; rw [h3]
    simp only [sinkWrite_fst, hl]
    by_cases hn : nextAccept e.blockSize (randomBytes e.blockSize e).2 = e.blockSize
    · right; exact ⟨hn, by rw [if_pos hn]⟩
    · left; exact ⟨hn, by rw [if_neg hn]⟩

theorem encInit_est {e : EncUnit} : ((encInit e).1 = true → (encInit e).2.est = .streaming) ∧
    ((encInit e).1 = false → (encInit e).2.est = e.est) := by
  unfold encInit
  split
  · rename_i h
    have := congrArg (fun x => x.2.est) h
    simp at this; simp [this]
  · rename_i h
    have := congrArg (fun x => x.2.est) h
    simp at this
    simp only; split <;> simp [this]

theorem encInit_ok {iv : List Byte} {e : EncUnit} (hr : randomAnswers iv e)
    (ha : e.blockSize ≤ nextAccept e.blockSize (randomBytes e.blockSize e).2) :
   encInit e = (true, { encCbcInit iv (sinkWrite iv (randomBytes e.blockSize e).2).2 with elen := 0, est := .streaming }) := by
  have h1 := nextRandom_of hr
  have h2 := nextAccept_le e.blockSize (randomBytes e.blockSize e).2
  have h3 : randomBytes e.blockSize e = (some iv, (randomBytes e.blockSize e).2) := by
    rw [← h1.1]; rfl
  unfold encInit
  rw [h3]
  simp only [sinkWrite_fst, hr.1]
  rw [if_pos (by omega)]

theorem encInit_randomFail {e : EncUnit} (hr : randomFails e) : encInit e =
    (false, { e with rng := e.rng.drop 1, calls := e.calls ++ [.randomBytes e.blockSize none] }) := by
  obtain ⟨rest, h⟩ := hr
  simp [encInit, randomBytes, nextRandom, randomDraws, h]

theorem encInit_writeFail {e : EncUnit} {iv : List Byte} {w : Nat} (hr : randomAnswers iv e)
    (hw : sinkRefusesAfter 0 w e) :
   encInit e = (false, { e with rng := e.rng.drop 1, accept := e.accept.drop 1, snk := e.snk ++ iv.take w, calls := e.calls ++ [.randomBytes e.blockSize (some iv), .sinkWrite iv w] }) := by
  obtain ⟨ok, rest, hacc, hlen, hall, hlt⟩ := hw
  obtain rfl : ok = [] := List.length_eq_zero_iff.1 hlen
  have h1 := nextRandom_of hr
  have h3 : randomBytes e.blockSize e = (some iv, (randomBytes e.blockSize e).2) := by
    rw [← h1.1]; rfl
  have hn : nextAccept e.blockSize (randomBytes e.blockSize e).2 = w := by
    rw [nextAccept_scheduled (rest := rest) (a := w) (by simpa using hacc)]; omega
  unfold encInit
  rw [h3]
  simp only [sinkWrite_fst, hr.1, hn]
  rw [if_neg (by omega)]
  simp only [Prod.mk.injEq, true_and, sinkWrite, hr.1, hn]
  simp [randomBytes, takeAccept, h1, hacc]

/-- The IV step when the random source answers and the sink accepts the IV whole (R131). -/
theorem encInit_accepted {e : EncUnit} {iv : List Byte} {a : Nat} {rest : List Nat} (hr : randomAnswers iv e)
    (ha : e.accept = a :: rest) (hB : e.blockSize ≤ a) :
    encInit e = (true, { e with
      est := .streaming
      elen := 0
      echain := iv
      rng := e.rng.drop 1
      accept := rest
      snk := e.snk ++ iv
      calls := e.calls ++ [.randomBytes e.blockSize (some iv), .sinkWrite iv e.blockSize, .cbcInit iv] }) := by
  have h1 := nextRandom_of hr
  have h3 : randomBytes e.blockSize e = (some iv, (randomBytes e.blockSize e).2) := by
    rw [← h1.1]; rfl
  have hn : nextAccept e.blockSize (randomBytes e.blockSize e).2 = e.blockSize := by
    rw [nextAccept_scheduled (rest := rest) (a := a) (by simpa using ha)]; omega
  unfold encInit
  rw [h3]
  simp only [sinkWrite_fst, hr.1, hn, if_true]
  simp only [Prod.mk.injEq, true_and, sinkWrite, hr.1, hn]
  simp [randomBytes, takeAccept, encCbcInit, h1, ha]
  exact hr.1.le

/-- A failed IV step has put fewer than `B` bytes into the sink (R131). -/
theorem encInit_false {e : EncUnit} (hp : 1 ≤ e.blockSize) (hi : (encInit e).1 = false) :
    (encInit e).2.snk.length < e.snk.length + e.blockSize := by
  rcases encInit_cases e with ⟨-, he⟩ | ⟨iv, -, hl, ⟨hn, he⟩ | ⟨-, he⟩⟩
  · rw [he]; simp; omega
  · have hle := nextAccept_le e.blockSize (randomBytes e.blockSize e).2
    rw [he]; simp [hl]; omega
  · rw [he] at hi; simp at hi

theorem tracks_nil {iv : List Byte} {e : EncUnit} (hp : 1 ≤ e.blockSize) (h1 : e.est = .streaming)
    (h2 : iv.length = e.blockSize) (h3 : e.snk = iv) (h4 : e.echain = iv) (h5 : e.elen = 0) : e.Tracks iv [] := by
  have hf : fullBlocks e.blockSize [] = [] := fullBlocks_of_lt (by simp; omega)
  refine ⟨h1, h2, ?_, ?_, ?_, ?_⟩ <;> simp [hf, cbcEncryptAll, h3, h4, h5, chainAfter_nil]

/-- The IV step of a fresh unit whose collaborators do not fail. -/
theorem encInit_fresh {iv : List Byte} {e : EncUnit} {k : Nat} (hf : e.Fresh) (hr : randomAnswers iv e)
    (ha : sinkAccepts (1 + k) e) :
   ∃ f, encInit e = (true, f) ∧ f.Inv ∧ f.Tracks iv [] ∧ f.rng = e.rng.tail ∧ f.accept = e.accept.tail ∧
    f.blockSize = e.blockSize ∧ f.cipher = e.cipher ∧ f.snkClosed = false ∧ sinkAccepts k f ∧
    f.calls = e.calls ++ [.randomBytes e.blockSize (some iv), .sinkWrite iv e.blockSize, .cbcInit iv] := by
  obtain ⟨ok, rest, hacc, hlen, hall⟩ := ha
  obtain ⟨a, ok', rfl⟩ : ∃ a ok', ok = a :: ok' := by
    cases ok with
    | nil => simp at hlen; omega
    | cons a ok' => exact ⟨a, ok', rfl⟩
  have ha := hall a (by simp)
  have hn : nextAccept e.blockSize (randomBytes e.blockSize e).2 = e.blockSize := by
    rw [nextAccept_scheduled (rest := ok' ++ rest) (a := a) (by simp [hacc])]; omega
  have h1 := nextRandom_of hr
  have hp := hf.inv.pos
  refine ⟨_, encInit_ok hr (by omega), ?_, ?_, ?_, ?_, ?_, ?_, ?_, ?_, ?_⟩
  · refine ⟨?_, ?_, ?_, ?_, ?_, ?_⟩ <;> simp [hf.inv.legal, hf.inv.ebufLength, hr.1] <;> omega
  · exact tracks_nil hp rfl hr.1 (by simp [hf.emptySink, hr.1, hn]) rfl rfl
  · simp
  · simp
  · simp
  · simp
  · simp [hf.openSink]
  · exact ⟨ok', rest, by simp [hacc], by simpa [Nat.add_comm 1] using hlen, fun x hx => hall x (by simp [hx])⟩
  · simp [h1.1, hr.1, hn]

/-- ENC after one payload byte that raised no error. -/
def afterByte (b : Byte) (e : EncUnit) : EncUnit :=
  if (pushByte b e).elen = (pushByte b e).blockSize then
      { (flushBlock (pushByte b e)).2 with elen := 0 } else pushByte b e

/-- The byte completes a block that the sink does not take whole. -/
def byteFails (b : Byte) (e : EncUnit) : Prop :=
  (pushByte b e).elen = (pushByte b e).blockSize ∧ (flushBlock (pushByte b e)).1 = false

theorem writeLoop_cons_ok {b bs n e} (h : ¬ byteFails b e) : writeLoop (b :: bs) n e = writeLoop bs (n+1)
    (afterByte b e) := by
  unfold byteFails at h
  rw [writeLoop]
  simp only [afterByte]
  split
  · rw [if_pos (by simp_all)]
  · rfl

theorem writeLoop_cons_fail {b bs n e} (h : byteFails b e) : writeLoop (b :: bs) n e = raiseEncryptionError (n+1)
    (flushBlock (pushByte b e)).2 := by
  unfold byteFails at h
  rw [writeLoop]
  simp only [h.1, h.2, if_true]; rfl

/-- The loop over a join: the first part, and when it is `OK` the second from there (R134). -/
theorem writeLoop_append (a b : List Byte) (n : Nat) (e : EncUnit) :
    writeLoop (a ++ b) n e = if (writeLoop a n e).2.status = .ok then writeLoop b (n + a.length)
    (writeLoop a n e).1 else writeLoop a n e := by
  induction a generalizing n e with
  | nil => simp [writeLoop, okReply]
  | cons x a ih =>
    by_cases h : byteFails x e
    · rw [List.cons_append, writeLoop_cons_fail h, writeLoop_cons_fail h]
      simp [encErrReply]
    · rw [List.cons_append, writeLoop_cons_ok h, writeLoop_cons_ok h, ih]
      simp [Nat.add_assoc, Nat.add_comm 1]

/-- The loop ends `OK` with all bytes counted and the unit streaming, or with an error and the unit failed. -/
theorem writeLoop_status (a : List Byte) (n : Nat) (e : EncUnit) (h : e.est = .streaming) :
    ((writeLoop a n e).1.est = .streaming ∧ (writeLoop a n e).2 = okReply (n + a.length)) ∨
    ((writeLoop a n e).1.est = .failed ∧ ∃ c, (writeLoop a n e).2 = encErrReply c ∧ n < c ∧ c ≤ n + a.length) := by
  induction a generalizing n e with
  | nil => left; simp [writeLoop, h]
  | cons b a ih =>
    by_cases hf : byteFails b e
    · right; rw [writeLoop_cons_fail hf]; exact ⟨rfl, n+1, rfl, by omega, by simp⟩
    · rw [writeLoop_cons_ok hf]
      have : (afterByte b e).est = .streaming := by unfold afterByte; split <;> simp [h]
      rcases ih (n+1) _ this with h | ⟨h, c, h2, h3, h4⟩
      · left; exact ⟨h.1, by rw [h.2]; simp [Nat.add_assoc, Nat.add_comm 1]⟩
      · right; exact ⟨h, c, h2, by omega, by simp; omega⟩

theorem writeLoop_shift (a : List Byte) (n m : Nat) (e : EncUnit) : (writeLoop a (n + m) e) =
    ((writeLoop a m e).1, { (writeLoop a m e).2 with count := n + (writeLoop a m e).2.count }) := by
  induction a generalizing m e with
  | nil => simp [writeLoop, okReply]
  | cons b a ih =>
    by_cases hf : byteFails b e
    · rw [writeLoop_cons_fail hf, writeLoop_cons_fail hf]; simp [encErrReply, Nat.add_assoc, raiseEncryptionError]
    · rw [writeLoop_cons_ok hf, writeLoop_cons_ok hf, Nat.add_assoc, ih]

theorem afterByte_inv {e : EncUnit} (b : Byte) (h : e.Inv) (hs : e.est = .streaming) : (afterByte b e).Inv ∧
    (afterByte b e).est = .streaming := by
  have hf := h.streamingRoom hs
  have hp := h.pos
  have h1 : ((pushByte b e)).ebuf.length = (pushByte b e).blockSize := by simp [h.ebufLength]
  have h2 : ((pushByte b e)).echain.length = (pushByte b e).blockSize := by simp [h.echainLength]
  have h3 : (cbcEncryptBlock (e.ebuf.set e.elen b) (pushByte b e)).length = e.blockSize :=
    length_cipherE _ _ _ (by simp [length_comb, h.echainLength, h.ebufLength])
  unfold afterByte
  split
  · rename_i hfull
    refine ⟨⟨?_, ?_, ?_, ?_, ?_, ?_⟩, ?_⟩ <;> simp [hs, h3, h.legal] <;> omega
  · rename_i hfull
    refine ⟨⟨?_, ?_, ?_, ?_, ?_, ?_⟩, ?_⟩ <;> simp_all [h.legal, h.ebufLength, h.echainLength] <;> omega

theorem failByte_inv {e : EncUnit} (b : Byte) (h : e.Inv) (hf : e.elen < e.blockSize) (n : Nat) :
    (raiseEncryptionError n (flushBlock (pushByte b e)).2).1.Inv := by
  have hc : (cbcEncryptBlock (e.ebuf.set e.elen b) (pushByte b e)).length = e.blockSize :=
    length_cipherE _ _ _ (by simp [length_comb, h.echainLength, h.ebufLength])
  refine ⟨?_, ?_, ?_, ?_, ?_, ?_⟩ <;> simp [h.legal, hc]; omega

theorem afterByte_tracks {iv p : List Byte} {b : Byte} {e : EncUnit} (h : e.Inv) (ht : e.Tracks iv p)
    (hok : ¬ byteFails b e) : (afterByte b e).Tracks iv (p ++ [b]) := by
  have hs := ht.streaming
  have hf := h.streamingRoom hs
  have hp := h.pos
  have hfill := ht.fill
  have hdm := Nat.div_add_mod p.length e.blockSize
  have htake : (e.ebuf.set e.elen b).take (e.elen + 1) = p.drop (e.blockSize * (p.length / e.blockSize)) ++ [b] := by
    have hl : e.elen < e.ebuf.length := by rw [h.ebufLength]; exact hf
    rw [List.take_add_one, List.getElem?_set_self hl, List.take_set_of_le (Nat.le_refl _), ht.residue]; rfl
  unfold byteFails at hok
  unfold afterByte
  by_cases hfull : e.elen + 1 = e.blockSize
  · have hok' : (flushBlock (pushByte b e)).1 = true := by
      by_contra hc
      exact hok ⟨by simpa using hfull, by simpa using hc⟩
    rw [if_pos (by simpa using hfull)]
    have hdiv : (p.length + 1) / e.blockSize = p.length / e.blockSize + 1 := by
      have : p.length + 1 = e.blockSize * (p.length / e.blockSize + 1) := by rw [Nat.mul_add]; omega
      rw [this, Nat.mul_div_cancel_left _ hp]
    have hmod : (p.length + 1) % e.blockSize = 0 := by
      have : p.length + 1 = e.blockSize * (p.length / e.blockSize + 1) := by rw [Nat.mul_add]; omega
      rw [this]; simp
    have hblk : (e.ebuf.set e.elen b) = p.drop (e.blockSize * (p.length / e.blockSize)) ++ [b] := by
      rw [← htake, List.take_of_length_le]; simp [h.ebufLength]; omega
    have hfb : fullBlocks e.blockSize (p ++ [b]) = fullBlocks e.blockSize p ++
        [p.drop (e.blockSize * (p.length / e.blockSize)) ++ [b]] := by
      have hx : p ++ [b] = p.take (e.blockSize * (p.length / e.blockSize)) ++
          (p.drop (e.blockSize * (p.length / e.blockSize)) ++ [b]) := by
        rw [← List.append_assoc, List.take_append_drop]
      have hle : e.blockSize * (p.length / e.blockSize) ≤ p.length := Nat.mul_div_le _ _
      conv => lhs; rw [hx]
      rw [fullBlocks_append hp (by simp [Nat.min_eq_left hle]), fullBlocks_take p hp]
      congr 1
      apply fullBlocks_of_eq hp
      simp; omega
    have hc : (cbcEncryptBlock (e.ebuf.set e.elen b) (pushByte b e)).length = e.blockSize :=
      length_cipherE _ _ _ (by simp [length_comb, h.echainLength, h.ebufLength])
    simp only [flushBlock_fst, pushByte_ebuf, pushByte_blockSize, hc, decide_eq_true_eq] at hok'
    refine ⟨?_, ?_, ?_, ?_, ?_, ?_⟩
    · simp [hs]
    · simp [ht.ivLength]
    · simp only [flushBlock_cipher, flushBlock_blockSize, flushBlock_snk, pushByte_cipher, pushByte_blockSize,
          pushByte_snk, pushByte_ebuf]
      rw [hfb, cbcEncryptAll_append, ← ht.chain, List.flatten_append, ht.sink, hc, hok']
      rw [List.take_of_length_le (by omega)]
      simp [cbcEncryptAll, cbcEncryptBlock, hblk]
    · simp only [flushBlock_cipher, flushBlock_blockSize, flushBlock_echain, pushByte_cipher, pushByte_blockSize,
          pushByte_snk, pushByte_ebuf]
      rw [hfb, cbcEncryptAll_append, ← ht.chain]
      simp [cbcEncryptAll, cbcEncryptBlock, hblk, chainAfter_concat]
    · simp [hmod]
    · have : e.blockSize * (p.length / e.blockSize + 1) = p.length + 1 := by rw [Nat.mul_add]; omega
      simp [hdiv, this]
  · rw [if_neg (by simpa using hfull)]
    have hdiv : (p.length + 1) / e.blockSize = p.length / e.blockSize := by
      have : p.length + 1 = e.blockSize * (p.length / e.blockSize) + (e.elen + 1) := by omega
      rw [this, Nat.mul_add_div hp, Nat.div_eq_of_lt (a := e.elen + 1) (by omega)]; rfl
    have hmod : (p.length + 1) % e.blockSize = e.elen + 1 := by
      have : p.length + 1 = e.blockSize * (p.length / e.blockSize) + (e.elen + 1) := by omega
      rw [this, Nat.mul_add_mod, Nat.mod_eq_of_lt (by omega)]
    have hle : e.blockSize * (p.length / e.blockSize) ≤ p.length := Nat.mul_div_le _ _
    have hfb : fullBlocks e.blockSize (p ++ [b]) = fullBlocks e.blockSize p := by
      rw [← fullBlocks_take (p ++ [b]) hp, ← fullBlocks_take p hp]
      simp only [List.length_append, List.length_singleton, hdiv]
      rw [List.take_append_of_le_length hle]
    refine ⟨hs, ht.ivLength, ?_, ?_, ?_, ?_⟩
    · simp [hfb, ht.sink]
    · simp [hfb, ht.chain]
    · simp [hmod]
    · simp only [pushByte_ebuf, pushByte_elen, pushByte_blockSize, List.length_append, List.length_singleton, hdiv]
      rw [htake, List.drop_append_of_le_length hle]

/-- The loop when the sink accepts every block the payload completes (R132, R135). -/
theorem writeLoop_ok {iv p : List Byte} (bs : List Byte) (n : Nat) (e : EncUnit) (h : e.Inv) (ht : e.Tracks iv p)
    (ha : sinkAccepts ((p.length % e.blockSize + bs.length) / e.blockSize) e) :
    ∃ f, writeLoop bs n e = (f, okReply (n + bs.length)) ∧ f.Inv ∧ f.Tracks iv (p ++ bs) ∧
      f.accept = e.accept.drop ((p.length % e.blockSize + bs.length) / e.blockSize) ∧ f.rng = e.rng ∧
    f.blockSize = e.blockSize ∧
      f.cipher = e.cipher ∧ f.snkClosed = e.snkClosed := by
  induction bs generalizing p n e with
  | nil =>
    have : (p.length % e.blockSize) / e.blockSize = 0 := Nat.div_eq_of_lt (Nat.mod_lt _ h.pos)
    exact ⟨e, by simp [writeLoop], h, by simpa using ht, by simp [this]⟩
  | cons b bs ih =>
    have hs := ht.streaming
    have hf := h.streamingRoom hs
    have hp := h.pos
    have hfill := ht.fill
    have hdm := Nat.div_add_mod p.length e.blockSize
    obtain ⟨ok, rest, hacc, hlen, hall⟩ := ha
    by_cases hfull : e.elen + 1 = e.blockSize
    · have hk : (p.length % e.blockSize + (b :: bs).length) / e.blockSize = bs.length / e.blockSize + 1 := by
        have : p.length % e.blockSize + (b :: bs).length = bs.length + e.blockSize := by simp; omega
        rw [this, Nat.add_div_right _ hp]
      rw [hk] at hlen
      obtain ⟨a, ok', rfl⟩ : ∃ a ok', ok = a :: ok' := by
        cases ok with
        | nil => simp at hlen
        | cons a ok' => exact ⟨a, ok', rfl⟩
      have hc : (cbcEncryptBlock (e.ebuf.set e.elen b) (pushByte b e)).length = e.blockSize :=
        length_cipherE _ _ _ (by simp [length_comb, h.echainLength, h.ebufLength])
      have hnf : ¬ byteFails b e := by
        rintro ⟨-, h2⟩
        have ha := hall a (by simp)
        have hn : nextAccept e.blockSize (pushByte b e) = min a e.blockSize :=
          nextAccept_scheduled (rest := ok' ++ rest) (by simp [hacc])
        simp only [flushBlock_fst, pushByte_ebuf, pushByte_blockSize, hc, decide_eq_false_iff_not] at h2
        apply h2; rw [hn]; omega
      have hmod : (p ++ [b]).length % e.blockSize = 0 := by
        have : (p ++ [b]).length = e.blockSize * (p.length / e.blockSize + 1) := by rw [Nat.mul_add]; simp; omega
        rw [this]; simp
      have hA : afterByte b e = { (flushBlock (pushByte b e)).2 with elen := 0 } := by
        unfold afterByte; rw [if_pos (by simpa using hfull)]
      have hB : (afterByte b e).blockSize = e.blockSize := by rw [hA]; rfl
      obtain ⟨f, h1, h2, h3, h4, h5, h6, h7, h8⟩ := ih (p := p ++
          [b]) (n + 1) (afterByte b e) (afterByte_inv b h hs).1 (afterByte_tracks h ht hnf)
        (by rw [hB, hmod, Nat.zero_add]; exact ⟨ok', rest, by rw [hA]; simp [hacc], by simpa using hlen, fun x hx => by rw [hB]; exact hall x (by simp [hx])⟩)
      refine ⟨f, ?_, h2, by simpa using h3, ?_, ?_, ?_, ?_, ?_⟩
      · rw [writeLoop_cons_ok hnf, h1]; simp [Nat.add_assoc, Nat.add_comm 1]
      · rw [h4, hB, hmod, hk, hA]; simp [← List.drop_tail, hacc]
      · rw [h5, hA]; rfl
      · rw [h6, hB]
      · rw [h7, hA]; rfl
      · rw [h8, hA]; rfl
    · have hA : afterByte b e = pushByte b e := by
        unfold afterByte; rw [if_neg (by simpa using hfull)]
      have hnf : ¬ byteFails b e := by
        rintro ⟨h2, -⟩; exact hfull (by simpa using h2)
      have hmod : (p ++ [b]).length % e.blockSize = e.elen + 1 := by
        have : (p ++ [b]).length = e.blockSize * (p.length / e.blockSize) + (e.elen + 1) := by simp; omega
        rw [this, Nat.mul_add_mod, Nat.mod_eq_of_lt (by omega)]
      have hk : p.length % e.blockSize + (b :: bs).length = (p ++ [b]).length % e.blockSize + bs.length := by
        rw [hmod]; simp; omega
      rw [hk] at hlen ⊢
      obtain ⟨f, h1, h2, h3, h4, h5, h6, h7, h8⟩ := ih (p := p ++
          [b]) (n + 1) (afterByte b e) (afterByte_inv b h hs).1 (afterByte_tracks h ht hnf)
        (by rw [hA]; exact ⟨ok, rest, hacc, hlen, hall⟩)
      rw [hA] at h4 h5 h6 h7 h8
      refine ⟨f, ?_, h2, by simpa using h3, h4, h5, h6, h7, h8⟩
      · rw [writeLoop_cons_ok hnf, h1]; simp [Nat.add_assoc, Nat.add_comm 1]

/-- A loop that ends `OK` has brought the unit to the longer payload. -/
theorem writeLoop_tracks {iv p : List Byte} (bs : List Byte) (n : Nat) (e : EncUnit) (h : e.Inv)
    (ht : e.Tracks iv p) (hok : (writeLoop bs n e).2.status = .ok) :
    (writeLoop bs n e).1.Inv ∧ (writeLoop bs n e).1.Tracks iv (p ++ bs) ∧
    (writeLoop bs n e).1.blockSize = e.blockSize ∧ (writeLoop bs n e).1.cipher = e.cipher := by
  induction bs generalizing p n e with
  | nil => exact ⟨h, by simpa [writeLoop] using ht, rfl, rfl⟩
  | cons b bs ih =>
    by_cases hf : byteFails b e
    · rw [writeLoop_cons_fail hf] at hok; simp [encErrReply] at hok
    · rw [writeLoop_cons_ok hf] at hok ⊢
      obtain ⟨k1, k2, k3, k4⟩ := ih (n+1) _ (afterByte_inv b h ht.streaming).1 (afterByte_tracks h ht hf) hok
      have : (afterByte b e).blockSize = e.blockSize ∧ (afterByte b e).cipher = e.cipher :=
          by unfold afterByte; split <;> simp
      exact ⟨k1, by simpa using k2, k3.trans this.1, k4.trans this.2⟩

theorem writeLoop_partial (bs : List Byte) (n : Nat) (e : EncUnit) (hl : e.ebuf.length = e.blockSize)
    (hlt : e.elen + bs.length < e.blockSize) :
   ∃ f, writeLoop bs n e = (f, okReply (n + bs.length)) ∧ f.elen = e.elen + bs.length ∧
    f.ebuf.take f.elen = e.ebuf.take e.elen ++ bs ∧
     { f with ebuf := e.ebuf, elen := e.elen } = e := by
  induction bs generalizing n e with
  | nil => exact ⟨e, by simp [writeLoop]⟩
  | cons b bs ih =>
    simp only [List.length_cons] at hlt
    have hne : (pushByte b e).elen ≠ (pushByte b e).blockSize := by simp; omega
    obtain ⟨f, h1, h2, h3, h4⟩ := ih (n+1) (pushByte b e) (by simp [hl]) (by simp; omega)
    refine ⟨f, ?_, ?_, ?_, ?_⟩
    · rw [writeLoop]; simp only [if_neg hne]; rw [h1]; simp [Nat.add_assoc, Nat.add_comm 1]
    · rw [h2]; simp; omega
    · rw [h3]; simp only [pushByte_ebuf, pushByte_elen]
      rw [List.take_add_one, List.getElem?_set_self (by omega), List.take_set_of_le (Nat.le_refl _)]; simp
    · have := congrArg (fun x : EncUnit => { x with ebuf := e.ebuf, elen := e.elen }) h4
      exact this

theorem writeLoop_inv (bs : List Byte) (n : Nat) (e : EncUnit) (h : e.Inv) (hs : e.est = .streaming) :
    (writeLoop bs n e).1.Inv := by
  induction bs generalizing n e with
  | nil => exact h
  | cons b bs ih =>
    by_cases hf : byteFails b e
    · rw [writeLoop_cons_fail hf]; exact failByte_inv b h (h.streamingRoom hs) _
    · rw [writeLoop_cons_ok hf]
      obtain ⟨k1, k2⟩ := afterByte_inv b h hs
      exact ih _ _ k1 k2

theorem afterPayload_inv {len : Nat} {w : List Byte} {e : EncUnit} (h : e.Inv) : (afterPayload len w e).Inv :=
  ⟨h.legal, h.ebufLength, h.echainLength, h.fill, h.uninitEmpty, h.streamingRoom⟩

theorem encFailed_inv {e : EncUnit} (h : e.Inv) (n : Nat) : (raiseEncryptionError n e).1.Inv :=
  ⟨h.legal, h.ebufLength, h.echainLength, h.fill, by simp, by simp⟩

theorem writePayload_of_length {len : Nat} {bs : List Byte} {e : EncUnit} (h : bs.length = len) :
    writePayload len bs e = writeLoop bs 0 e := by
  unfold writePayload; rw [payload_of_length h, afterPayload_of_length h]

theorem writePayload_status (len : Nat) (w : List Byte) (e : EncUnit) (h : e.est = .streaming) :
    ((writePayload len w e).1.est = .streaming ∧ ∃ c, (writePayload len w e).2 = okReply c) ∨
    ((writePayload len w e).1.est = .failed ∧ ∃ c, (writePayload len w e).2 = encErrReply c) := by
  unfold writePayload
  rcases writeLoop_status (payload len w e) 0 (afterPayload len w e) (by simpa using h) with ⟨h1, h2⟩ | ⟨h1, c, h2, -⟩
  · exact .inl ⟨h1, _, h2⟩
  · exact .inr ⟨h1, _, h2⟩

theorem encWrite_streaming {a : List Byte} {e : EncUnit} (h : e.est = .streaming) :
    encWrite a.length a e = writeLoop a 0 e := by
  unfold encWrite; rw [h]; simp only; rw [writePayload_of_length rfl]

theorem encWrite_uninit {len : Nat} {w : List Byte} {e : EncUnit} (h : e.est = .uninit) : encWrite len w e = if
    (encInit e).1 then writePayload len w (encInit e).2 else raiseEncryptionError 0 (encInit e).2 := by
  unfold encWrite; rw [h]

/-- Chunk independence on the unit (R134). -/
theorem encWrite_append (e : EncUnit) (a b : List Byte) :
    let r := encWrite a.length a e
    let x := encWrite b.length b r.1
    (encWrite (a ++ b).length (a ++ b) e).1 = x.1 ∧
    (r.2.status = .ok → (encWrite (a ++ b).length (a ++ b) e).2 = { x.2 with count := a.length + x.2.count } ∧
        r.2.count = a.length) ∧
    (r.2.status ≠ .ok → (encWrite (a ++ b).length (a ++ b) e).2 = r.2) := by
  -- streaming core
  have core : ∀ e : EncUnit, e.est = .streaming →
    let r := writeLoop a 0 e
    let x := encWrite b.length b r.1
    (writeLoop (a ++ b) 0 e).1 = x.1 ∧
    (r.2.status = .ok → (writeLoop (a ++ b) 0 e).2 = { x.2 with count := a.length + x.2.count } ∧ r.2.count =
        a.length) ∧
    (r.2.status ≠ .ok → (writeLoop (a ++ b) 0 e).2 = r.2) := by
    intro e he
    simp only
    rw [writeLoop_append]
    rcases writeLoop_status a 0 e he with ⟨h1, h2⟩ | ⟨h1, c, h2, h3, h4⟩
    · have : (writeLoop a 0 e).2.status = .ok := by rw [h2]; rfl
      rw [if_pos this, encWrite_streaming h1]
      have := writeLoop_shift b a.length 0 (writeLoop a 0 e).1
      rw [Nat.add_zero] at this
      rw [Nat.zero_add, this]
      refine ⟨rfl, fun _ => ⟨rfl, by rw [h2]; simp [okReply]⟩, fun h => absurd (by rw [h2]; rfl) h⟩
    · have : (writeLoop a 0 e).2.status ≠ .ok := by rw [h2]; simp [encErrReply]
      rw [if_neg this]
      refine ⟨?_, fun h => absurd h this, fun _ => rfl⟩
      unfold encWrite; rw [h1]
  cases he : e.est with
  | closed => simp [encWrite, he, invalidReply]
  | failed => simp [encWrite, he, encErrReply]
  | streaming =>
    simp only
    rw [encWrite_streaming he, encWrite_streaming he]
    exact core e he
  | uninit =>
    have h1 : ∀ c : List Byte, encWrite c.length c e = if (encInit e).1 then
        writeLoop c 0 (encInit e).2 else raiseEncryptionError 0 (encInit e).2 := by
      intro c; unfold encWrite; rw [he]; simp only; rw [writePayload_of_length rfl]
    simp only [h1]
    by_cases hi : (encInit e).1 = true
    · simp only [hi, if_true]
      exact core _ (encInit_est.1 hi)
    · simp only [hi]
      simp [encWrite, encErrReply]

theorem encWrite_count (a : List Byte) (e : EncUnit) : (encWrite a.length a e).2.count ≤ a.length := by
  cases he : e.est with
  | closed => simp [encWrite, he, invalidReply]
  | failed => simp [encWrite, he, encErrReply]
  | streaming =>
    rw [encWrite_streaming he]
    rcases writeLoop_status a 0 e he with ⟨h1, h2⟩ | ⟨h1, c, h2, h3, h4⟩ <;> rw [h2] <;> simp [okReply,
        encErrReply]; omega
  | uninit =>
    unfold encWrite; rw [he]; simp only; rw [writePayload_of_length rfl]
    by_cases hi : (encInit e).1 = true
    · rw [if_pos hi]
      rcases writeLoop_status a 0 _ (encInit_est.1 hi) with ⟨h1, h2⟩ | ⟨h1, c, h2, h3,
          h4⟩ <;> rw [h2] <;> simp [okReply, encErrReply]; omega
    · rw [if_neg hi]; simp [encErrReply]

theorem encWrite_est (len : Nat) (w : List Byte) (e : EncUnit) :
    (e.est = .closed → (encWrite len w e).1.est = .closed) ∧
    (e.est = .failed → (encWrite len w e).1.est = .failed) ∧ (encWrite len w e).1.est ≠ .uninit := by
  cases he : e.est with
  | closed => simp [encWrite, he]
  | failed => simp [encWrite, he]
  | streaming =>
    have h0 : encWrite len w e = writePayload len w e := by unfold encWrite; rw [he]
    rw [h0]
    rcases writePayload_status len w e he with ⟨h1, c, h2⟩ | ⟨h1, c, h2⟩ <;> simp [h1]
  | uninit =>
    rw [encWrite_uninit he]
    by_cases hi : (encInit e).1 = true
    · rw [if_pos hi]; rcases writePayload_status len w _ (encInit_est.1 hi) with ⟨h1, c, h2⟩ | ⟨h1, c,
          h2⟩ <;> simp [h1]
    · rw [if_neg hi]; simp

theorem encWrite_not_eos (len : Nat) (w : List Byte) (e : EncUnit) : (encWrite len w e).2.status ≠ .eos := by
  cases he : e.est with
  | closed => simp [encWrite, he, invalidReply]
  | failed => simp [encWrite, he, encErrReply]
  | streaming =>
    have h0 : encWrite len w e = writePayload len w e := by unfold encWrite; rw [he]
    rw [h0]
    rcases writePayload_status len w e he with ⟨h1, c, h2⟩ | ⟨h1, c, h2⟩ <;> simp [h2, okReply, encErrReply]
  | uninit =>
    rw [encWrite_uninit he]
    by_cases hi : (encInit e).1 = true
    · rw [if_pos hi]
      rcases writePayload_status len w _ (encInit_est.1 hi) with ⟨h1, c, h2⟩ | ⟨h1, c, h2⟩ <;> simp [h2, okReply,
          encErrReply]
    · rw [if_neg hi]; simp [encErrReply]

theorem encWrite_invalid {len : Nat} {w : List Byte} {e : EncUnit} (h : (encWrite len w e).2.status = .invalid) :
    (encWrite len w e).1 = e := by
  cases he : e.est with
  | closed => simp [encWrite, he]
  | failed => simp [encWrite, he]
  | streaming =>
    have h0 : encWrite len w e = writePayload len w e := by unfold encWrite; rw [he]
    rw [h0] at h
    rcases writePayload_status len w e he with ⟨h1, c, h2⟩ | ⟨h1, c, h2⟩ <;> rw [h2] at h <;> simp [okReply,
        encErrReply] at h
  | uninit =>
    rw [encWrite_uninit he] at h
    by_cases hi : (encInit e).1 = true
    · rw [if_pos hi] at h; rcases writePayload_status len w _ (encInit_est.1 hi) with ⟨h1, c, h2⟩ | ⟨h1, c,
          h2⟩ <;> rw [h2] at h <;> simp [okReply, encErrReply] at h
    · rw [if_neg hi] at h; simp [encErrReply] at h

theorem encReply_data (len : Nat) (w : List Byte) (e : EncUnit) : (encWrite len w e).2.data = [] := by
  have hl : ∀ bs n e, (writeLoop bs n e).2.data = [] := by
    intro bs
    induction bs with
    | nil => intro n e; rfl
    | cons b bs ih =>
      intro n e
      by_cases h : byteFails b e
      · rw [writeLoop_cons_fail h]; rfl
      · rw [writeLoop_cons_ok h]; exact ih _ _
  unfold encWrite
  split
  · rfl
  · rfl
  · simp only; split
    · exact hl _ _ _
    · rfl
  · exact hl _ _ _

theorem padAdd_tracks {iv p : List Byte} {e : EncUnit} (h : e.Inv) (ht : e.Tracks iv p) :
    padMessage e.blockSize p = p.take (e.blockSize * (p.length / e.blockSize)) ++
    (padAdd e.blockSize e.ebuf e.elen).1 ∧ (padAdd e.blockSize e.ebuf e.elen).1.length = e.blockSize := by
  have hp := h.pos
  have hf := h.streamingRoom ht.streaming
  constructor
  · rw [padMessage_split p hp]
    simp only [padAdd, padCount]
    rw [ht.residue, ht.fill]
  · simp [padAdd, padCount, h.ebufLength]; omega

theorem encStream_tracks {iv p : List Byte} {e : EncUnit} (h : e.Inv) (ht : e.Tracks iv p) :
    encStream e.cipher e.blockSize iv p = e.snk ++ cipherE e.cipher e.blockSize
    (comb (padAdd e.blockSize e.ebuf e.elen).1 e.echain) := by
  have hp := h.pos
  obtain ⟨h1, h2⟩ := padAdd_tracks h ht
  have hle : e.blockSize * (p.length / e.blockSize) ≤ p.length := Nat.mul_div_le _ _
  unfold encStream
  rw [h1, fullBlocks_append hp (by rw [List.length_take, Nat.min_eq_left hle]; exact ⟨_, rfl⟩),
      fullBlocks_take p hp, fullBlocks_of_eq hp h2,
    cbcEncryptAll_append, ← ht.chain, List.flatten_append, ht.sink]
  simp [cbcEncryptAll]

/-- The padded final block. -/
def padded (e : EncUnit) : EncUnit := { e with ebuf := (padAdd e.blockSize e.ebuf e.elen).1 }

/-- The ciphertext of the padded final block. -/
def finalBlock (e : EncUnit) : List Byte := cipherE e.cipher e.blockSize
    (comb (padAdd e.blockSize e.ebuf e.elen).1 e.echain)

theorem length_finalBlock {e : EncUnit} (h : e.Inv) (hs : e.est = .streaming) :
    (finalBlock e).length = e.blockSize := by
  apply length_cipherE
  have := h.streamingRoom hs
  simp [length_comb, h.echainLength, padAdd, padCount, h.ebufLength]; omega

/-- Everything the end of a stream does (R133). -/
theorem encFinish_eq {e : EncUnit} (h : e.Inv) (hs : e.est = .streaming) : encFinish e =
   ({ e with est := .closed, ebuf := finalBlock e, elen := 0, echain := finalBlock e, accept := e.accept.tail,
             snk := e.snk ++ (finalBlock e).take (nextAccept e.blockSize e), snkClosed := true,
             draws := e.draws + (if e.accept.isEmpty then 1 else 0)
             calls := e.calls ++ [.cbcEncrypt (padAdd e.blockSize e.ebuf e.elen).1 (finalBlock e),
                 .sinkWrite (finalBlock e) (nextAccept e.blockSize e), .sinkClose] },
    if nextAccept e.blockSize e = e.blockSize then okReply 0 else encErrReply 0) := by
  have hl := length_finalBlock h hs
  have hc : cbcEncryptBlock (padAdd e.blockSize e.ebuf e.elen).1 (padded e) = finalBlock e := rfl
  have hn : ∀ n, nextAccept n (padded e) = nextAccept n e := fun n => rfl
  unfold encFinish
  change ({ sinkClose (flushBlock (padded e)).2 with elen := 0, est := .closed }, if (flushBlock (padded e)).1 then
      okReply 0 else encErrReply 0) = _
  have h1 : (flushBlock (padded e)).1 = decide (nextAccept e.blockSize e = e.blockSize) := by
    rw [flushBlock_fst]; show decide (nextAccept (finalBlock e).length (padded e) = e.blockSize) = _
    rw [hl, hn]
  rw [h1]
  simp only [Prod.mk.injEq]
  refine ⟨?_, by simp⟩
  simp only [flushBlock, cbcEncrypt, sinkWrite, sinkClose, takeAccept]
  show EncUnit.mk _ _ _ _ _ _ _ _ _ _ _ _ = _
  have hn2 : nextAccept (cbcEncryptBlock (padded e).ebuf (padded e)).length e = nextAccept e.blockSize e := by
    show nextAccept (finalBlock e).length e = _
    rw [hl]
  congr 1
  · show e.snk ++ (finalBlock e).take (nextAccept (finalBlock e).length e) = _
    rw [hl]
  · show (e.calls ++ [.cbcEncrypt (padAdd e.blockSize e.ebuf e.elen).1 (finalBlock e)]) ++
        [.sinkWrite (finalBlock e) (nextAccept (finalBlock e).length e)] ++ [.sinkClose] = _
    rw [hl]; simp

theorem encFinish_status (e : EncUnit) : (encFinish e).1.est = .closed ∧
    ((encFinish e).2 = okReply 0 ∨ (encFinish e).2 = encErrReply 0) := by
  refine ⟨rfl, ?_⟩
  unfold encFinish; simp only; split <;> simp

theorem encFinish_inv {e : EncUnit} (h : e.Inv) (hs : e.est = .streaming) : (encFinish e).1.Inv := by
  rw [encFinish_eq h hs]
  have hl := length_finalBlock h hs
  refine ⟨h.legal, ?_, ?_, ?_, ?_, ?_⟩ <;> simp [hl]

theorem encFinish_stream {iv p : List Byte} {e : EncUnit} (h : e.Inv) (ht : e.Tracks iv p) (ha : sinkAccepts 1 e) :
   (encFinish e).2 = okReply 0 ∧ (encFinish e).1.est = .closed ∧ (encFinish e).1.snkClosed = true ∧
    (encFinish e).1.snk = encStream e.cipher e.blockSize iv p := by
  obtain ⟨ok, rest, hacc, hlen, hall⟩ := ha
  obtain ⟨a, rfl⟩ := List.length_eq_one_iff.1 hlen
  have haB := hall a (by simp)
  have hn : nextAccept e.blockSize e = e.blockSize :=
      by rw [nextAccept_scheduled (a := a) (rest := rest) (by simpa using hacc)]; omega
  have hl := length_finalBlock h ht.streaming
  rw [encFinish_eq h ht.streaming, encStream_tracks h ht]
  simp only [hn, if_true, true_and]
  rw [List.take_of_length_le (by omega)]; rfl

theorem encFinish_clean {iv p : List Byte} {e : EncUnit} (h : e.Inv) (ht : e.Tracks iv p)
    (hok : (encFinish e).2.status = .ok) :
   (encFinish e).1.est = .closed ∧ (encFinish e).1.snkClosed = true ∧
    (encFinish e).1.snk = encStream e.cipher e.blockSize iv p := by
  rw [encFinish_eq h ht.streaming] at hok
  have hl := length_finalBlock h ht.streaming
  rw [encFinish_eq h ht.streaming, encStream_tracks h ht]
  by_cases hn : nextAccept e.blockSize e = e.blockSize
  · simp only [hn, true_and]
    rw [List.take_of_length_le (by omega)]; rfl
  · simp [hn, encErrReply] at hok

theorem encAbandon_inv {e : EncUnit} (h : e.Inv) : (encAbandon e).1.Inv :=
  ⟨h.legal, h.ebufLength, h.echainLength, h.fill, by simp [encAbandon], by simp [encAbandon]⟩

theorem encClose_streaming {e : EncUnit} (hs : e.est = .streaming) :
    encClose e = encFinish e := by unfold encClose; rw [hs]

theorem encClose_uninit {e : EncUnit} (h : e.est = .uninit) : encClose e = if (encInit e).1 then encFinish
    (encInit e).2 else encAbandon (encInit e).2 := by
  unfold encClose; rw [h]

theorem encClose_est (e : EncUnit) : (encClose e).1.est = .closed := by
  unfold encClose
  split
  · assumption
  · rfl
  · simp only; split <;> rfl
  · rfl

theorem encClose_invalid {e : EncUnit} (h : (encClose e).2.status = .invalid) : (encClose e).1 = e := by
  have hf : ∀ e, (encFinish e).2.status ≠ .invalid := by
    intro e; rcases (encFinish_status e).2 with h | h <;> rw [h] <;> simp [okReply, encErrReply]
  cases he : e.est with
  | closed => simp [encClose, he]
  | failed => simp [encClose, he, encAbandon, encErrReply] at h
  | streaming => rw [encClose_streaming he] at h; exact absurd h (hf _)
  | uninit =>
    rw [encClose_uninit he] at h
    by_cases hi : (encInit e).1 = true
    · rw [if_pos hi] at h; exact absurd h (hf _)
    · rw [if_neg hi] at h; simp [encAbandon, encErrReply] at h

theorem encClose_data (e : EncUnit) : (encClose e).2.data = [] := by
  have hf : ∀ e, (encFinish e).2.data = [] := by intro e; unfold encFinish; simp only; split <;> rfl
  unfold encClose
  split
  · rfl
  · rfl
  · simp only; split
    · exact hf _
    · rfl
  · exact hf _

theorem sinkAccepts_split {m n : Nat} {e f : EncUnit} (h : sinkAccepts (m + n) e) (ha : f.accept = e.accept.drop m)
    (hb : f.blockSize = e.blockSize) : sinkAccepts m e ∧ sinkAccepts n f := by
  obtain ⟨ok, rest, hacc, hlen, hall⟩ := h
  constructor
  · exact ⟨ok.take m, ok.drop m ++ rest,
        by rw [← List.append_assoc, List.take_append_drop, hacc], by simp; omega, fun x hx => hall x (List.mem_of_mem_take hx)⟩
  · exact ⟨ok.drop m, rest, by rw [ha, hacc, List.drop_append_of_le_length (by omega)],
        by simp; omega, fun x hx => hb ▸ hall x (List.mem_of_mem_drop hx)⟩

/-- ENC after a sequence of `EWRITE`s, with their replies. -/
def encWrites : List (List Byte) → EncUnit → EncUnit × List Reply
  | [], e => (e, [])
  | a :: as, e => let r := encWrite a.length a e; let x := encWrites as r.1; (x.1, r.2 :: x.2)

theorem encWrites_stream (chunks : List (List Byte)) {iv p : List Byte} (e : EncUnit) (k : Nat) (h : e.Inv)
    (ht : e.Tracks iv p)
    (ha : sinkAccepts ((p.length % e.blockSize + chunks.flatten.length) / e.blockSize + k) e) :
    ∃ f, encWrites chunks e = (f, chunks.map fun a => okReply a.length) ∧ f.Inv ∧ f.Tracks iv
    (p ++ chunks.flatten) ∧ sinkAccepts k f ∧ f.blockSize = e.blockSize ∧ f.cipher = e.cipher := by
  induction chunks generalizing p e with
  | nil =>
    have : (p.length % e.blockSize) / e.blockSize = 0 := Nat.div_eq_of_lt (Nat.mod_lt _ h.pos)
    exact ⟨e, rfl, h, by simpa using ht, by simpa [this] using ha, rfl, rfl⟩
  | cons a as ih =>
    rw [List.flatten_cons, List.length_append, div_split _ _ _ _ h.pos, Nat.add_assoc] at ha
    have ha1 := (sinkAccepts_split (f := { e with accept := e.accept.drop _ }) ha rfl rfl).1
    obtain ⟨f, h1, h2, h3, h4, h5, h6, h7, h8⟩ := writeLoop_ok a 0 e h ht ha1
    have ha2 := (sinkAccepts_split ha h4 h6).2
    obtain ⟨g, k1, k2, k3, k4, k5, k6⟩ := ih f h2 h3 (by rw [h6, List.length_append]; exact ha2)
    have hw : encWrite a.length a e = (f, okReply a.length) := by rw [encWrite_streaming ht.streaming, h1]; simp
    refine ⟨g, ?_, k2, by simpa using k3, k4, k5.trans h6, k6.trans h7⟩
    simp [encWrites, hw, k1]

theorem encWrites_clean (chunks : List (List Byte)) {iv p : List Byte} (e : EncUnit) (h : e.Inv) (ht : e.Tracks iv p)
    (hc : ∀ r ∈ (encWrites chunks e).2, r.status = .ok) :
    (encWrites chunks e).1.Inv ∧ (encWrites chunks e).1.Tracks iv (p ++ chunks.flatten) ∧
    (encWrites chunks e).1.blockSize = e.blockSize ∧ (encWrites chunks e).1.cipher = e.cipher := by
  induction chunks generalizing p e with
  | nil => exact ⟨h, by simpa [encWrites] using ht, rfl, rfl⟩
  | cons a as ih =>
    simp only [encWrites, List.mem_cons, forall_eq_or_imp] at hc
    rw [encWrite_streaming ht.streaming] at hc
    obtain ⟨k1, k2, k3, k4⟩ := writeLoop_tracks a 0 e h ht hc.1
    obtain ⟨m1, m2, m3, m4⟩ := ih _ k1 k2 hc.2
    simp only [encWrites]; rw [encWrite_streaming ht.streaming]
    exact ⟨m1, by simpa using m2, m3.trans k3, m4.trans k4⟩

end Sys2Proof.Machine
end

