-- ==== Sys2Proof/Laws/EncryptorFrame.lean ====
section
/-! SUPPORT. ENC: what a command adds to the call record and to the sink, and the order of its calls (43 R212, 20
R60). -/

namespace Sys2Proof.Machine

/-- ENC went from `e` to `f` by the calls `new`, and the sink grew by what they accepted. -/
structure EncExt (new : List Call) (e f : EncUnit) : Prop where
  bs : f.blockSize = e.blockSize
  ci : f.cipher = e.cipher
  calls : f.calls = e.calls ++ new
  snk : f.snk = e.snk ++ acceptedBytes new
  ok : ∀ c ∈ new, encCallOk e.blockSize c

theorem EncExt.refl (e : EncUnit) : EncExt [] e e := ⟨rfl, rfl, by simp, by simp [acceptedBytes], by simp⟩

theorem EncExt.trans {a b : List Call} {e f g : EncUnit} (h : EncExt a e f) (k : EncExt b f g) : EncExt
    (a ++ b) e g := by
  refine ⟨k.bs.trans h.bs, k.ci.trans h.ci, ?_, ?_, ?_⟩
  · rw [k.calls, h.calls, List.append_assoc]
  · rw [k.snk, h.snk, List.append_assoc]; simp [acceptedBytes]
  · intro c hc
    rcases List.mem_append.1 hc with hc | hc
    · exact h.ok c hc
    · have := k.ok c hc; rwa [h.bs] at this

/-- A call that neither asks the random source nor closes the sink. -/
def flushOnly (c : Call) : Prop := (∀ n a, c ≠ .randomBytes n a) ∧ c ≠ .sinkClose

def flushCalls (b : Byte) (e : EncUnit) : List Call :=
  [.cbcEncrypt (e.ebuf.set e.elen b) (cbcEncryptBlock (e.ebuf.set e.elen b) (pushByte b e)),
   .sinkWrite (cbcEncryptBlock (e.ebuf.set e.elen b) (pushByte b e)) (nextAccept (cbcEncryptBlock (e.ebuf.set e.elen b) (pushByte b e)).length (pushByte b e))]

theorem afterByte_ext {e : EncUnit} (b : Byte) (h : e.Inv) (hs : e.est = .streaming) :
    ∃ new, EncExt new e (afterByte b e) ∧ (∀ c ∈ new, flushOnly c) ∧ (afterByte b e).rng = e.rng ∧
    (afterByte b e).snkClosed = e.snkClosed := by
  have hc : (cbcEncryptBlock (e.ebuf.set e.elen b) (pushByte b e)).length = e.blockSize :=
    length_cipherE _ _ _ (by simp [length_comb, h.echainLength, h.ebufLength])
  unfold afterByte
  split
  · refine ⟨flushCalls b e, ⟨rfl, rfl, ?_, ?_, ?_⟩, ?_, rfl, rfl⟩
    · simp [flushCalls]
    · simp [acceptedBytes, flushCalls]
    · simp [encCallOk, hc, h.ebufLength, nextAccept_le, flushCalls]
    · simp [flushOnly, flushCalls]
  · exact ⟨[], ⟨rfl, rfl, by simp, by simp [acceptedBytes], by simp⟩, by simp, rfl, rfl⟩

theorem failByte_ext {e : EncUnit} (b : Byte) (h : e.Inv) :
    ∃ new, EncExt new e (flushBlock (pushByte b e)).2 ∧ (∀ c ∈ new, flushOnly c) := by
  have hc : (cbcEncryptBlock (e.ebuf.set e.elen b) (pushByte b e)).length = e.blockSize :=
    length_cipherE _ _ _ (by simp [length_comb, h.echainLength, h.ebufLength])
  refine ⟨flushCalls b e, ⟨rfl, rfl, ?_, ?_, ?_⟩, ?_⟩
  · simp [flushCalls]
  · simp [acceptedBytes, flushCalls]
  · simp [encCallOk, hc, h.ebufLength, nextAccept_le, flushCalls]
  · simp [flushOnly, flushCalls]

theorem writeLoop_ext (bs : List Byte) (n : Nat) (e : EncUnit) (h : e.Inv) (hs : e.est = .streaming) :
    ∃ new, EncExt new e (writeLoop bs n e).1 ∧ (∀ c ∈ new, flushOnly c) ∧ (writeLoop bs n e).1.rng = e.rng ∧
    (writeLoop bs n e).1.snkClosed = e.snkClosed := by
  induction bs generalizing n e with
  | nil => exact ⟨[], EncExt.refl e, by simp, rfl, rfl⟩
  | cons b bs ih =>
    by_cases hf : byteFails b e
    · rw [writeLoop_cons_fail hf]
      obtain ⟨new, h1, h2⟩ := failByte_ext b h
      exact ⟨new, ⟨h1.bs, h1.ci, h1.calls, h1.snk, h1.ok⟩, h2, rfl, rfl⟩
    · rw [writeLoop_cons_ok hf]
      obtain ⟨new, h1, h2, h3, h4⟩ := afterByte_ext b h hs
      obtain ⟨k1, k2⟩ := afterByte_inv b h hs
      obtain ⟨new2, m1, m2, m3, m4⟩ := ih (n+1) _ k1 k2
      exact ⟨new ++ new2, h1.trans m1, by
        intro c hc; rcases List.mem_append.1 hc with hc | hc
        · exact h2 c hc
        · exact m2 c hc, m3.trans h3, m4.trans h4⟩

theorem writePayload_ext (len : Nat) (w : List Byte) (e : EncUnit) (h : e.Inv) (hs : e.est = .streaming) :
    ∃ new, EncExt new e (writePayload len w e).1 ∧ (∀ c ∈ new, flushOnly c) ∧ (writePayload len w e).1.rng = e.rng ∧
    (writePayload len w e).1.snkClosed = e.snkClosed := by
  obtain ⟨new, h1, h2, h3, h4⟩ := writeLoop_ext (payload len w e) 0 (afterPayload len w e) (afterPayload_inv h) hs
  exact ⟨new, ⟨h1.bs, h1.ci, h1.calls, h1.snk, h1.ok⟩, h2, h3, h4⟩

theorem encInit_ext (e : EncUnit) (h : e.Inv) :
    ∃ new, EncExt new e (encInit e).2 ∧ (∀ c ∈ new, c ≠ .sinkClose) ∧ (encInit e).2.snkClosed = e.snkClosed ∧
    ((encInit e).1 = true → (encInit e).2.Inv) ∧ ((encInit e).1 = false → e.est = .uninit → (encInit e).2.Inv) := by
  have hp := h.pos
  rcases encInit_cases e with ⟨hr, he⟩ | ⟨iv, hr, hl, ⟨hn, he⟩ | ⟨hn, he⟩⟩
  · rw [he]
    refine ⟨[.randomBytes e.blockSize none], ⟨rfl, rfl, by simp [hr], by simp [acceptedBytes], by simp [encCallOk]⟩,
        by simp, rfl, by simp, fun _ _ => ⟨h.legal, h.ebufLength, h.echainLength, h.fill, h.uninitEmpty, h.streamingRoom⟩⟩
  · rw [he]
    refine ⟨[.randomBytes e.blockSize (some iv),
        .sinkWrite iv (nextAccept e.blockSize (randomBytes e.blockSize e).2)], ⟨rfl, rfl,
        by simp [hr, hl], by simp [acceptedBytes, hl], by simp [encCallOk, hl, nextAccept_le]⟩,
        by simp, rfl, by simp, fun _ _ => ⟨h.legal, h.ebufLength, h.echainLength, h.fill, h.uninitEmpty, h.streamingRoom⟩⟩
  · rw [he]
    refine ⟨[.randomBytes e.blockSize (some iv),
        .sinkWrite iv (nextAccept e.blockSize (randomBytes e.blockSize e).2), .cbcInit iv], ⟨rfl, rfl,
        by simp [hr, hl], by simp [acceptedBytes, hl], by simp [encCallOk, hl, nextAccept_le]⟩,
        by simp, rfl, fun _ => ?_, by simp⟩
    refine ⟨?_, ?_, ?_, ?_, ?_, ?_⟩ <;> simp [h.legal, h.ebufLength, hl] <;> omega

/-- A successful IV step of a fresh unit, whatever the collaborators answered (R131). -/
theorem encInit_success {e : EncUnit} (hf : e.Fresh) (hi : (encInit e).1 = true) :
    ∃ iv, nextRandom e.blockSize e = some iv ∧ iv.length = e.blockSize ∧ (encInit e).2.Inv ∧
      (encInit e).2.Tracks iv [] ∧ (encInit e).2.blockSize = e.blockSize ∧ (encInit e).2.cipher = e.cipher := by
  obtain ⟨new, h1, -, -, h4, -⟩ := encInit_ext e hf.inv
  rcases encInit_cases e with ⟨-, he⟩ | ⟨iv, hr, hl, ⟨-, he⟩ | ⟨hn, he⟩⟩
  · rw [he] at hi; simp at hi
  · rw [he] at hi; simp at hi
  · refine ⟨iv, hr, hl, h4 hi, ?_, h1.bs, h1.ci⟩
    rw [he]
    exact tracks_nil hf.inv.pos rfl hl (by simp [hf.emptySink, hl, hn]) rfl rfl

theorem encInit_true {iv : List Byte} {e : EncUnit} (hf : e.Fresh) (hr : randomAnswers iv e)
    (hi : (encInit e).1 = true) :
    (encInit e).2.Inv ∧ (encInit e).2.Tracks iv [] ∧ (encInit e).2.blockSize = e.blockSize ∧
      (encInit e).2.cipher = e.cipher := by
  obtain ⟨iv', h1, -, h2⟩ := encInit_success hf hi
  rw [(nextRandom_of hr).1] at h1
  cases h1
  exact h2

theorem encWrite_ext (len : Nat) (w : List Byte) (e : EncUnit) (h : e.Inv) :
    ∃ new, EncExt new e (encWrite len w e).1 ∧ (∀ c ∈ new, c ≠ .sinkClose) ∧
    (e.est ≠ .uninit → ∀ c ∈ new, flushOnly c) ∧
      (e.est ≠ .uninit → (encWrite len w e).1.rng = e.rng) ∧ (encWrite len w e).1.snkClosed = e.snkClosed := by
  cases he : e.est with
  | closed => refine ⟨[], ?_, by simp, by simp, ?_, ?_⟩ <;> simp [encWrite, he, EncExt.refl]
  | failed => refine ⟨[], ?_, by simp, by simp, ?_, ?_⟩ <;> simp [encWrite, he, EncExt.refl]
  | streaming =>
    have h0 : encWrite len w e = writePayload len w e := by unfold encWrite; rw [he]
    rw [h0]
    obtain ⟨new, h1, h2, h3, h4⟩ := writePayload_ext len w e h he
    exact ⟨new, h1, fun c hc => (h2 c hc).2, fun _ => h2, fun _ => h3, h4⟩
  | uninit =>
    rw [encWrite_uninit he]
    obtain ⟨new, h1, h2, h3, h4, h5⟩ := encInit_ext e h
    by_cases hi : (encInit e).1 = true
    · rw [if_pos hi]
      obtain ⟨new2, k1, k2, k3, k4⟩ := writePayload_ext len w _ (h4 hi) (encInit_est.1 hi)
      exact ⟨new ++ new2, h1.trans k1, by
        intro c hc; rcases List.mem_append.1 hc with hc | hc
        · exact h2 c hc
        · exact (k2 c hc).2, by simp, by simp, k4.trans h3⟩
    · rw [if_neg hi]
      exact ⟨new, ⟨h1.bs, h1.ci, h1.calls, h1.snk, h1.ok⟩, h2, by simp, by simp, h3⟩

theorem encFinish_ext (e : EncUnit) (h : e.Inv) (hs : e.est = .streaming) :
    ∃ new, EncExt new e (encFinish e).1 ∧ (∀ c ∈ new, ∀ n a, c ≠ .randomBytes n a) ∧ (encFinish e).1.rng = e.rng := by
  have hl := length_finalBlock h hs
  have hpl : (padAdd e.blockSize e.ebuf e.elen).1.length = e.blockSize := by
    have := h.streamingRoom hs
    simp [padAdd, padCount, h.ebufLength]; omega
  rw [encFinish_eq h hs]
  refine ⟨_, ⟨rfl, rfl, rfl, ?_, ?_⟩, ?_, rfl⟩
  · simp [acceptedBytes]
  · simp [encCallOk, hl, hpl, nextAccept_le]
  · simp

theorem encAbandon_ext (e : EncUnit) : EncExt [.sinkClose] e (encAbandon e).1 :=
  ⟨rfl, rfl, rfl, by simp [encAbandon, acceptedBytes], by simp [encCallOk]⟩

theorem encClose_ext (e : EncUnit) (h : e.Inv) :
    ∃ new, EncExt new e (encClose e).1 ∧ (e.est ≠ .uninit → ∀ c ∈ new, ∀ n a, c ≠ .randomBytes n a) ∧
    (e.est ≠ .uninit → (encClose e).1.rng = e.rng) := by
  cases he : e.est with
  | closed => refine ⟨[], ?_, by simp, ?_⟩ <;> simp [encClose, he, EncExt.refl]
  | failed =>
      refine ⟨[.sinkClose], ?_, by simp, ?_⟩ <;> simp [encClose, he, encAbandon_ext,
          encAbandon]; exact encAbandon_ext e
  | streaming =>
    rw [encClose_streaming he]
    obtain ⟨new, h1, h2, h3⟩ := encFinish_ext e h he
    exact ⟨new, h1, fun _ => h2, fun _ => h3⟩
  | uninit =>
    rw [encClose_uninit he]
    obtain ⟨new, h1, h2, h3, h4, h5⟩ := encInit_ext e h
    by_cases hi : (encInit e).1 = true
    · rw [if_pos hi]
      obtain ⟨new2, k1, k2, k3⟩ := encFinish_ext _ (h4 hi) (encInit_est.1 hi)
      exact ⟨new ++ new2, h1.trans k1, by simp, by simp⟩
    · rw [if_neg hi]
      exact ⟨new ++ [.sinkClose], h1.trans (encAbandon_ext _), by simp, by simp⟩

theorem encWrite_inv (len : Nat) (w : List Byte) (e : EncUnit) (h : e.Inv) : (encWrite len w e).1.Inv := by
  cases he : e.est with
  | closed => simpa [encWrite, he] using h
  | failed => simpa [encWrite, he] using h
  | streaming =>
    have h0 : encWrite len w e = writePayload len w e := by unfold encWrite; rw [he]
    rw [h0]; exact writeLoop_inv _ _ _ (afterPayload_inv h) he
  | uninit =>
    rw [encWrite_uninit he]
    obtain ⟨new, h1, h2, h3, h4, h5⟩ := encInit_ext e h
    by_cases hi : (encInit e).1 = true
    · rw [if_pos hi]; exact writeLoop_inv _ _ _ (afterPayload_inv (h4 hi)) (encInit_est.1 hi)
    · rw [if_neg hi]; exact encFailed_inv (h5 (by simpa using hi) he) 0

theorem encClose_inv (e : EncUnit) (h : e.Inv) : (encClose e).1.Inv := by
  cases he : e.est with
  | closed => simpa [encClose, he] using h
  | failed => simp only [encClose, he]; exact encAbandon_inv h
  | streaming => rw [encClose_streaming he]; exact encFinish_inv h he
  | uninit =>
    rw [encClose_uninit he]
    obtain ⟨new, h1, h2, h3, h4, h5⟩ := encInit_ext e h
    by_cases hi : (encInit e).1 = true
    · rw [if_pos hi]; exact encFinish_inv (h4 hi) (encInit_est.1 hi)
    · rw [if_neg hi]; exact encAbandon_inv (h5 (by simpa using hi) he)

/-! ## The status of a command says whether a call failed (41 R130) -/

theorem afterByte_noFail {e : EncUnit} (b : Byte) (h : e.Inv) (hok : ¬ byteFails b e) :
    ∃ new, (afterByte b e).calls = e.calls ++ new ∧ new.any callFailed = false := by
  have hc : (cbcEncryptBlock (e.ebuf.set e.elen b) (pushByte b e)).length = e.blockSize :=
    length_cipherE _ _ _ (by simp [length_comb, h.echainLength, h.ebufLength])
  unfold byteFails at hok
  unfold afterByte
  split
  · rename_i hfull
    have hok' : (flushBlock (pushByte b e)).1 = true := by
      by_contra hn
      exact hok ⟨hfull, by simpa using hn⟩
    simp only [flushBlock_fst, pushByte_ebuf, pushByte_blockSize, hc, decide_eq_true_eq] at hok'
    exact ⟨flushCalls b e, by simp [flushCalls], by simp [flushCalls, callFailed, hc, hok']⟩
  · exact ⟨[], by simp, rfl⟩

theorem failByte_fail {e : EncUnit} (b : Byte) (h : e.Inv) (hf : byteFails b e) :
    ∃ new, (flushBlock (pushByte b e)).2.calls = e.calls ++ new ∧ new.any callFailed = true := by
  have hc : (cbcEncryptBlock (e.ebuf.set e.elen b) (pushByte b e)).length = e.blockSize :=
    length_cipherE _ _ _ (by simp [length_comb, h.echainLength, h.ebufLength])
  have hn := hf.2
  simp only [flushBlock_fst, pushByte_ebuf, pushByte_blockSize, hc, decide_eq_false_iff_not] at hn
  have hle := nextAccept_le e.blockSize (pushByte b e)
  refine ⟨flushCalls b e, by simp [flushCalls], ?_⟩
  simp only [flushCalls, callFailed, hc, List.any_cons, List.any_nil, Bool.or_false, Bool.false_or, decide_eq_true_eq]
  omega

/-- The loop of `EWRITE` ends with `OK` when no call it made failed, and otherwise with `ENC_ERR`. -/
theorem writeLoop_status_calls (bs : List Byte) (n : Nat) (e : EncUnit) (h : e.Inv) (hs : e.est = .streaming) :
    ∃ new, (writeLoop bs n e).1.calls = e.calls ++ new ∧
      if new.any callFailed then (writeLoop bs n e).1.est = .failed ∧ (writeLoop bs n e).2.status = .encErr
      else (writeLoop bs n e).1.est = .streaming ∧ (writeLoop bs n e).2.status = .ok := by
  induction bs generalizing n e with
  | nil => exact ⟨[], by simp [writeLoop], by simp [writeLoop, hs, okReply]⟩
  | cons b bs ih =>
    by_cases hf : byteFails b e
    · rw [writeLoop_cons_fail hf]
      obtain ⟨new, h1, h2⟩ := failByte_fail b h hf
      exact ⟨new, h1, by rw [if_pos h2]; exact ⟨rfl, rfl⟩⟩
    · rw [writeLoop_cons_ok hf]
      obtain ⟨new, h1, h2⟩ := afterByte_noFail b h hf
      obtain ⟨k1, k2⟩ := afterByte_inv b h hs
      obtain ⟨new2, m1, m2⟩ := ih (n + 1) _ k1 k2
      exact ⟨new ++ new2, by rw [m1, h1, List.append_assoc], by rw [List.any_append, h2, Bool.false_or]; exact m2⟩

/-- The IV step succeeds exactly when no call it made failed (R131). -/
theorem encInit_calls (e : EncUnit) :
    ∃ new, (encInit e).2.calls = e.calls ++ new ∧ new.any callFailed = !(encInit e).1 := by
  rcases encInit_cases e with ⟨hr, he⟩ | ⟨iv, hr, hl, ⟨hn, he⟩ | ⟨hn, he⟩⟩
  · rw [he]; exact ⟨[.randomBytes e.blockSize none], by simp [hr], rfl⟩
  · rw [he]
    have hle := nextAccept_le e.blockSize (randomBytes e.blockSize e).2
    refine ⟨[.randomBytes e.blockSize (some iv),
      .sinkWrite iv (nextAccept e.blockSize (randomBytes e.blockSize e).2)], by simp [hr, hl], ?_⟩
    simp only [List.any_cons, List.any_nil, callFailed, hl, Option.isNone, Bool.or_false, Bool.false_or, Bool.not_false,
      decide_eq_true_eq]
    omega
  · rw [he]
    exact ⟨[.randomBytes e.blockSize (some iv),
      .sinkWrite iv (nextAccept e.blockSize (randomBytes e.blockSize e).2), .cbcInit iv], by simp [hr, hl],
      by simp [callFailed, hl, hn]⟩

/-- The rest of `ECLOSE` ends with `OK` exactly when its block write was accepted whole (R133). -/
theorem encFinish_calls (e : EncUnit) (h : e.Inv) (hs : e.est = .streaming) :
    ∃ new, (encFinish e).1.calls = e.calls ++ new ∧
      (encFinish e).2.status = if new.any callFailed then .encErr else .ok := by
  have hl := length_finalBlock h hs
  have hle := nextAccept_le e.blockSize e
  rw [encFinish_eq h hs]
  refine ⟨_, rfl, ?_⟩
  by_cases hw : nextAccept e.blockSize e = e.blockSize
  · simp [callFailed, hl, hw, okReply]
  · have : nextAccept e.blockSize e < e.blockSize := by omega
    simp [callFailed, hl, hw, this, encErrReply]

/-- The call record after the blocks of `p` have been written. -/
def CallTracks (c0 : List Call) (iv p : List Byte) (e : EncUnit) :
    Prop := e.calls = c0 ++ blockCalls e.cipher e.blockSize iv (fullBlocks e.blockSize p)

theorem afterByte_calls {c0 : List Call} {iv p : List Byte} {b : Byte} {e : EncUnit} (h : e.Inv) (ht : e.Tracks iv p)
    (hok : ¬ byteFails b e) (hc : CallTracks c0 iv p e) : CallTracks c0 iv (p ++ [b]) (afterByte b e) := by
  have hf := h.streamingRoom ht.streaming
  have hl : (cbcEncryptBlock (e.ebuf.set e.elen b) (pushByte b e)).length = e.blockSize :=
    length_cipherE _ _ _ (by simp [length_comb, h.echainLength, h.ebufLength])
  have hfill := ht.fill
  unfold CallTracks at hc ⊢
  unfold byteFails at hok
  unfold afterByte
  by_cases hfull : e.elen + 1 = e.blockSize
  · have hok' : (flushBlock (pushByte b e)).1 = true := by
      by_contra hc
      exact hok ⟨by simpa using hfull, by simpa using hc⟩
    rw [if_pos (by simpa using hfull)]
    simp only [flushBlock_fst, pushByte_ebuf, pushByte_blockSize, hl, decide_eq_true_eq] at hok'
    have hblk : (e.ebuf.set e.elen b) = p.drop (e.blockSize * (p.length / e.blockSize)) ++ [b] := by
      have hl : e.elen < e.ebuf.length := by rw [h.ebufLength]; exact hf
      rw [← ht.residue]
      conv => lhs; rw [← List.take_of_length_le (l := e.ebuf.set e.elen b) (i :=
          e.elen + 1) (by simp [h.ebufLength]; omega)]
      rw [List.take_add_one, List.getElem?_set_self hl, List.take_set_of_le (Nat.le_refl _)]; rfl
    simp only [flushBlock_calls, flushBlock_cipher, flushBlock_blockSize, pushByte_calls, pushByte_ebuf,
        pushByte_cipher, pushByte_blockSize]
    rw [(fullBlocks_snoc h.pos).1 (by omega), blockCalls_append, ← ht.chain, hc, ← hblk, hl, hok']
    simp [blockCalls, cbcEncryptBlock]
  · rw [if_neg (by simpa using hfull)]
    simp only [pushByte_calls, pushByte_cipher, pushByte_blockSize]
    rw [(fullBlocks_snoc h.pos).2 (by omega), hc]

theorem writeLoop_callTracks {c0 : List Call} {iv p : List Byte} (bs : List Byte) (n : Nat) (e : EncUnit)
    (h : e.Inv) (ht : e.Tracks iv p) (hc : CallTracks c0 iv p e) (hok : (writeLoop bs n e).2.status = .ok) :
    CallTracks c0 iv (p ++ bs) (writeLoop bs n e).1 := by
  induction bs generalizing p n e with
  | nil => simpa [writeLoop] using hc
  | cons b bs ih =>
    by_cases hf : byteFails b e
    · rw [writeLoop_cons_fail hf] at hok; simp [encErrReply] at hok
    · rw [writeLoop_cons_ok hf] at hok ⊢
      have := ih (n+1) _ (afterByte_inv b h ht.streaming).1 (afterByte_tracks h ht hf) (afterByte_calls h ht hf hc) hok
      simpa using this

end Sys2Proof.Machine
end

