-- ==== Sys2Proof/Laws/Agreement.lean ====
section
/-! SUPPORT. Two units that differ only in register bytes that hold no value stay so, and reply the same (10 R41). -/

namespace Sys2Proof.Machine

/-- ENC with other bytes in `ebuf` and `echain`. -/
def encWith (e : EncUnit) (x y : List Byte) : EncUnit := { e with ebuf := x, echain := y }

theorem encAgree_eq {e f : EncUnit} (h : e.Agree f) : f = encWith e f.ebuf f.echain := by
  have := congrArg (fun z : EncUnit => { z with ebuf := f.ebuf, echain := f.echain }) h.others
  exact this.symm

theorem encAgree_refl (e : EncUnit) : e.Agree e := ⟨rfl, fun _ => rfl, fun _ => rfl⟩

theorem encAgree_with {e : EncUnit} {x y : List Byte} (h1 : e.est = .streaming → e.ebuf.take e.elen = x.take e.elen)
    (h2 : e.est = .streaming → e.echain = y) : e.Agree (encWith e x y) := ⟨rfl, h1, h2⟩

theorem writeLoop_agree (bs : List Byte) (n : Nat) (e f : EncUnit) (he : e.Inv) (hf : f.Inv)
    (hs : e.est = .streaming) (h : e.Agree f) :
   (writeLoop bs n e).2 = (writeLoop bs n f).2 ∧ (writeLoop bs n e).1.Agree (writeLoop bs n f).1 := by
  induction bs generalizing n e f with
  | nil => exact ⟨rfl, h⟩
  | cons b bs ih =>
    have heq := encAgree_eq h
    have hroom := he.streamingRoom hs
    have hxl : f.ebuf.length = e.blockSize := by have := hf.ebufLength; rw [heq] at this; simpa [encWith] using this
    have hch : e.echain = f.echain := h.chain hs
    have hres := h.residue hs
    generalize f.ebuf = x at *
    generalize f.echain = y at *
    subst heq
    by_cases hfull : e.elen + 1 = e.blockSize
    · have hset : e.ebuf.set e.elen b = x.set e.elen b := by
        apply take_full_eq (n := e.elen + 1)
        · rw [set_take_succ (by rw [he.ebufLength]; exact hroom), set_take_succ (by rw [hxl]; exact hroom), hres]
        · simp [he.ebufLength, hfull]
        · simp [hxl, hfull]
      have hpb : pushByte b e = pushByte b (encWith e x y) := by
        unfold pushByte encWith; rw [hset, hch]
      have hw : writeLoop (b :: bs) n (encWith e x y) = writeLoop (b :: bs) n e := by rw [writeLoop, writeLoop, ← hpb]
      rw [hw]; exact ⟨rfl, encAgree_refl _⟩
    · have e1 : ¬ byteFails b e := by unfold byteFails; intro hc; exact hfull (by simpa using hc.1)
      have e2 : ¬ byteFails b (encWith e x y) :=
          by unfold byteFails; intro hc; exact hfull (by simpa [encWith] using hc.1)
      rw [writeLoop_cons_ok e1, writeLoop_cons_ok e2]
      obtain ⟨k1, k2⟩ := afterByte_inv b he hs
      obtain ⟨k3, k4⟩ := afterByte_inv b hf hs
      apply ih _ _ _ k1 k3 k2
      have e3 : afterByte b e = pushByte b e := by unfold afterByte; rw [if_neg (by simpa using hfull)]
      have e4 : afterByte b (encWith e x y) = pushByte b (encWith e x y) :=
          by unfold afterByte; rw [if_neg (by simpa [encWith] using hfull)]
      rw [e3, e4]
      refine ⟨rfl, fun _ => ?_, fun _ => hch⟩
      simp only [pushByte_ebuf, pushByte_elen, encWith]
      rw [set_take_succ (by rw [he.ebufLength]; exact hroom), set_take_succ (by rw [hxl]; exact hroom), hres]

theorem encInit_agree (e : EncUnit) (x y : List Byte) : (encInit e).1 = (encInit (encWith e x y)).1 ∧
    ((encInit e).1 = true → (encInit e).2.Agree (encInit (encWith e x y)).2) ∧
    ((encInit e).1 = false → ∃ x' y', (encInit (encWith e x y)).2 = encWith (encInit e).2 x' y') := by
  have h : nextRandom (encWith e x y).blockSize (encWith e x y) = nextRandom e.blockSize e := rfl
  have hn : nextAccept (encWith e x y).blockSize (randomBytes (encWith e x y).blockSize (encWith e x y)).2 =
      nextAccept e.blockSize (randomBytes e.blockSize e).2 := rfl
  have hb : (encWith e x y).blockSize = e.blockSize := rfl
  rcases encInit_cases e with ⟨h1, h2⟩ | ⟨iv, h1, h2, ⟨h3, h4⟩ | ⟨h3, h4⟩⟩ <;>
  rcases encInit_cases (encWith e x y) with ⟨k1, k2⟩ | ⟨iv', k1, k2, ⟨k3, k4⟩ | ⟨k3, k4⟩⟩ <;>
  rw [h, h1] at k1 <;> try rw [hn, hb] at k3
  · rw [h2, k2]; exact ⟨rfl, by simp, fun _ => ⟨x, y, rfl⟩⟩
  · simp at k1
  · simp at k1
  · simp at k1
  · cases k1; rw [h4, k4]; exact ⟨rfl, by simp, fun _ => ⟨x, y, rfl⟩⟩
  · exact absurd k3 h3
  · simp at k1
  · exact absurd h3 k3
  · cases k1; rw [h4, k4]; exact ⟨rfl, fun _ => ⟨rfl, fun _ => by simp, fun _ => rfl⟩, by simp⟩

theorem afterPayload_agree {len : Nat} {w : List Byte} {e f : EncUnit} (h : e.Agree f) :
    (afterPayload len w e).Agree (afterPayload len w f) ∧ payload len w e = payload len w f := by
  have heq := encAgree_eq h
  have h1 := h.residue
  have h2 := h.chain
  generalize f.ebuf = x at *
  generalize f.echain = y at *
  subst heq
  exact ⟨⟨rfl, h1, h2⟩, rfl⟩

theorem writePayload_agree {len : Nat} {w : List Byte} {e f : EncUnit} (he : e.Inv) (hf : f.Inv)
    (hs : e.est = .streaming) (h : e.Agree f) :
   (writePayload len w e).2 = (writePayload len w f).2 ∧ (writePayload len w e).1.Agree (writePayload len w f).1 := by
  obtain ⟨k1, k2⟩ := afterPayload_agree (len := len) (w := w) h
  unfold writePayload; rw [k2]
  exact writeLoop_agree _ _ _ _ (afterPayload_inv he) (afterPayload_inv hf) hs k1

theorem encWrite_agree {len : Nat} {w : List Byte} {e f : EncUnit} (he : e.Inv) (hf : f.Inv) (h : e.Agree f) :
   (encWrite len w e).2 = (encWrite len w f).2 ∧ (encWrite len w e).1.Agree (encWrite len w f).1 := by
  have heq := encAgree_eq h
  have hest : f.est = e.est := by rw [heq]; rfl
  cases hs : e.est with
  | closed => simp only [encWrite, hest, hs]; exact ⟨trivial, h⟩
  | failed => simp only [encWrite, hest, hs]; exact ⟨trivial, h⟩
  | streaming =>
    have h0 : encWrite len w e = writePayload len w e := by unfold encWrite; rw [hs]
    have h1 : encWrite len w f = writePayload len w f := by unfold encWrite; rw [hest, hs]
    rw [h0, h1]; exact writePayload_agree he hf hs h
  | uninit =>
    rw [encWrite_uninit hs, encWrite_uninit (hest.trans hs)]
    obtain ⟨k1, k2, k3⟩ := encInit_agree e f.ebuf f.echain
    rw [← heq] at k1 k2 k3
    rw [← k1]
    cases hi : (encInit e).1 with
    | true =>
      obtain ⟨n1, -, -, -, g1, -⟩ := encInit_ext e he
      obtain ⟨n2, -, -, -, g2, -⟩ := encInit_ext f hf
      exact writePayload_agree (g1 hi) (g2 (k1 ▸ hi)) (encInit_est.1 hi) (k2 hi)
    | false =>
      obtain ⟨x, y, hxy⟩ := k3 hi
      simp only [Bool.false_eq_true, if_false, hxy]
      exact ⟨rfl, rfl, by simp, by simp⟩

theorem encFinish_agree {e f : EncUnit} (hs : e.est = .streaming) (h : e.Agree f) : encFinish e = encFinish f := by
  have heq := encAgree_eq h
  have h1 := h.residue hs
  have h2 := h.chain hs
  generalize f.ebuf = x at *
  generalize f.echain = y at *
  subst heq
  have : { e with ebuf := (padAdd e.blockSize e.ebuf e.elen).1 } =
      { encWith e x y with ebuf := (padAdd (encWith e x y).blockSize x (encWith e x y).elen).1 } := by
    unfold encWith padAdd; simp only; rw [h1, h2]
  unfold encFinish
  rw [this]; rfl

theorem encClose_agree {e f : EncUnit} (h : e.Agree f) :
   (encClose e).2 = (encClose f).2 ∧ (encClose e).1.Agree (encClose f).1 := by
  have heq := encAgree_eq h
  have hest : f.est = e.est := by rw [heq]; rfl
  cases hs : e.est with
  | closed => simp only [encClose, hest, hs]; exact ⟨trivial, h⟩
  | failed =>
    simp only [encClose, hest, hs]
    refine ⟨rfl, ?_⟩
    rw [heq]; exact ⟨rfl, by simp [encAbandon], by simp [encAbandon]⟩
  | streaming =>
      rw [encClose_streaming hs, encClose_streaming (hest.trans hs), encFinish_agree hs h]
      exact ⟨rfl, encAgree_refl _⟩
  | uninit =>
    rw [encClose_uninit hs, encClose_uninit (hest.trans hs)]
    obtain ⟨k1, k2, k3⟩ := encInit_agree e f.ebuf f.echain
    rw [← heq] at k1 k2 k3
    rw [← k1]
    cases hi : (encInit e).1 with
    | true => simp only [if_true]; rw [encFinish_agree (encInit_est.1 hi) (k2 hi)]; exact ⟨rfl, encAgree_refl _⟩
    | false =>
      obtain ⟨x, y, hxy⟩ := k3 hi
      simp only [Bool.false_eq_true, if_false, hxy]
      exact ⟨rfl, rfl, by simp [encAbandon], by simp [encAbandon]⟩

/-- DEC with other bytes in `cur`, `la` and `dchain`. -/
def decWith (d : DecUnit) (x y z : List Byte) : DecUnit := { d with cur := x, la := y, dchain := z }

theorem decAgree_eq {d f : DecUnit} (h : d.Agree f) : f = decWith d f.cur f.la f.dchain := by
  have := congrArg (fun w : DecUnit => { w with cur := f.cur, la := f.la, dchain := f.dchain }) h.others
  exact this.symm

theorem decAgree_refl (d : DecUnit) : d.Agree d := ⟨rfl, fun _ => rfl, fun _ _ => rfl, fun _ => rfl⟩

theorem decAgree_dead {d : DecUnit} {x y z : List Byte}
    (h : d.dst = .uninit ∨ d.dst = .failed ∨ d.dst = .closed ∨ d.dst = .drained) : d.Agree (decWith d x y z) := by
  refine ⟨rfl, fun hd => ?_, fun hd => ?_, fun hd => ?_⟩ <;> rcases h with h | h | h | h <;> simp [h] at hd

theorem decryptAndLookAhead_with (blk : List Byte) (d : DecUnit) (x y : List Byte) : decryptAndLookAhead blk
    (decWith d x y d.dchain) = { decryptAndLookAhead blk d with la := overlay (srcNext d.blockSize d) y } := rfl

theorem stripFinal_with (d : DecUnit) (y : List Byte) : stripFinal { d with la := y } =
    ((stripFinal d).1, { (stripFinal d).2 with la := y }) := by
  unfold stripFinal; cases h : padRemove (d.cur.take d.clen) <;> simp [h]

theorem nextBlock_agree {d f : DecUnit} (hl : Live d) (hf : f.Inv) (hp : ¬ d.cpos < d.clen)
    (hs : d.dst = .streaming) (h : d.Agree f) :
   (nextBlock d).1 = (nextBlock f).1 ∧ ((nextBlock d).1 = true → (nextBlock d).2.Agree (nextBlock f).2) ∧ ∃ x y z,
    (nextBlock f).2 = decWith (nextBlock d).2 x y z := by
  have hi := hl.inv
  have heq := decAgree_eq h
  have hch := h.chain hs
  have hah := h.ahead hs
  generalize f.cur = x at *
  generalize f.la = y at *
  generalize f.dchain = z at *
  subst heq
  subst hch
  have hblk : (takeBlock (decWith d x y d.dchain)).1 = (takeBlock d).1 ∧ (takeBlock (decWith d x y d.dchain)).2 =
      decWith (takeBlock d).2 x y (takeBlock d).2.dchain := by
    cases hv : d.laValid with
    | true =>
        rw [takeBlock_valid hv, takeBlock_valid (show (decWith d x y d.dchain).laValid = true from hv)]
        exact ⟨(hah hv).symm, rfl⟩
    | false =>
        rw [takeBlock_invalid hv, takeBlock_invalid (show (decWith d x y d.dchain).laValid = false from hv)]
        exact ⟨rfl, rfl⟩
  obtain ⟨b1, b2⟩ := hblk
  have hnew : nextBlock (decWith d x y d.dchain) = if 0 < (takeBlock d).1.length ∧
      (takeBlock d).1.length < d.blockSize then (false, decWith (takeBlock d).2 x y (takeBlock d).2.dchain)
      else if (takeBlock d).1.length = d.blockSize then
        if (decryptAndLookAhead (takeBlock d).1 (takeBlock d).2).laLen = 0 then
            ((stripFinal (decryptAndLookAhead (takeBlock d).1 (takeBlock d).2)).1,
            { (stripFinal (decryptAndLookAhead (takeBlock d).1 (takeBlock d).2)).2 with la := overlay (srcNext (takeBlock d).2.blockSize (takeBlock d).2) y })
        else (true, { decryptAndLookAhead (takeBlock d).1 (takeBlock d).2 with la := overlay (srcNext (takeBlock d).2.blockSize (takeBlock d).2) y })
      else stripFinal { decWith (takeBlock d).2 x y (takeBlock d).2.dchain with clen := 0, cpos := 0 } := by
    unfold nextBlock
    simp only [b1, b2, decryptAndLookAhead_with, stripFinal_with]
    rfl
  rw [hnew]
  unfold nextBlock
  simp only
  split
  · exact ⟨rfl, by simp, x, y, _, rfl⟩
  · split
    · split
      · rename_i h3
        have hnil : srcNext (takeBlock d).2.blockSize (takeBlock d).2 = [] := List.length_eq_zero_iff.1 h3
        refine ⟨rfl, fun hb => ?_, _, _, _, rfl⟩
        refine ⟨rfl, fun _ => rfl, fun hd hv => ?_, fun _ => rfl⟩
        exfalso
        unfold stripFinal at hd hb
        split at hb
        · simp at hb
        · rename_i r hr
          simp only [hr] at hd
          split at hd <;> simp at hd
      · refine ⟨rfl, fun _ => ⟨rfl, fun _ => rfl, fun _ _ => ?_, fun _ => rfl⟩, _, _, _, rfl⟩
        simp only [decryptAndLookAhead_la, decryptAndLookAhead_laLen, take_overlay]
    · have hstrip : ∀ w : DecUnit, w.clen = 0 → stripFinal w = (true,
          { w with laValid := false, clen := 0, dst := .drained }) := by
        intro w hw; unfold stripFinal; rw [hw]; simp [padRemove]
      rw [hstrip _ rfl, hstrip _ rfl]
      exact ⟨rfl, fun _ => decAgree_dead (x := x) (y := y) (z := (takeBlock d).2.dchain) (.inr (.inr (.inr rfl))),
          x, y, (takeBlock d).2.dchain, rfl⟩

theorem deliver_agree {d f : DecUnit} {want : Nat} (hl : Live d) (hp : d.cpos < d.clen) (h : d.Agree f) :
   deliverCount want f = deliverCount want d ∧ slice f.cur f.cpos
    (f.cpos + deliverCount want d) = slice d.cur d.cpos (d.cpos + deliverCount want d) ∧
    (deliver (deliverCount want d) d).Agree (deliver (deliverCount want d) f) := by
  have heq := decAgree_eq h
  have hch := h.chain
  have hah := h.ahead
  have ht := h.tail
  generalize f.cur = x at *
  generalize f.la = y at *
  generalize f.dchain = z at *
  subst heq
  have hm : d.cpos + deliverCount want d ≤ d.clen := by unfold deliverCount; omega
  have hsd : d.dst = .streaming ∨ d.dst = .draining := by
    rcases hl.live with h | h | h
    · exact .inl h
    · exact .inr h
    · have := (hl.inv.drained h).1; omega
  have ht' : slice d.cur d.cpos d.clen = slice x d.cpos d.clen := ht hsd
  refine ⟨rfl, ?_, rfl, fun hd => ?_, fun hd => ?_, fun hd => ?_⟩
  · show slice x d.cpos (d.cpos + _) = _
    rw [slice_prefix _ _ _ _ hm, slice_prefix _ _ _ _ hm, ht']
  · show slice d.cur (d.cpos + _) d.clen = slice x (d.cpos + _) d.clen
    rw [slice_suffix _ _ _ _ hm, slice_suffix _ _ _ _ hm, ht']
  · simp only [deliver_dst] at hd; split at hd
    · simp at hd
    · exact hah hd
  · simp only [deliver_dst] at hd; split at hd
    · simp at hd
    · exact hch hd

theorem agree_scalars {d f : DecUnit} (h : d.Agree f) : f.dst = d.dst ∧ f.cpos = d.cpos ∧ f.clen = d.clen := by
  rw [decAgree_eq h]; exact ⟨rfl, rfl, rfl⟩

theorem readAll_agree (want : Nat) (out : List Byte) (d : DecUnit) : ∀ f, Live d → Live f → d.Agree f →
   (readAll want out d).2 = (readAll want out f).2 ∧ (readAll want out d).1.Agree (readAll want out f).1 := by
  induction want, out, d using readAll_induct with
  | zero out d =>
    intro f hl hf h
    rw [readAll_zero, readAll_zero]
    exact ⟨by unfold readReply; rw [(agree_scalars h).1], h⟩
  | pend want out d hw hp ih =>
    intro f hl hf h
    obtain ⟨s1, s2, s3⟩ := agree_scalars h
    obtain ⟨k1, k2, k3⟩ := deliver_agree (want := want) hl hp h
    rw [readAll_pending hw hp, readAll_pending (d := f) hw (by omega), k1, k2]
    exact ih _ (deliver_live hl hp hw) (k1 ▸ deliver_live hf (by omega) hw) k3
  | drained want out d hw hp hd =>
    intro f hl hf h
    obtain ⟨s1, s2, s3⟩ := agree_scalars h
    rw [readAll_drained hp hd, readAll_drained (d := f) (by omega) (s1.trans hd)]
    exact ⟨by unfold readReply; rw [s1], h⟩
  | ok want out d hw hp hd hb ih =>
    intro f hl hf h
    obtain ⟨s1, s2, s3⟩ := agree_scalars h
    have hs : d.dst = .streaming := by
      rcases hl.live with h1 | h1 | h1
      · exact h1
      · exact absurd (hl.inv.draining h1).1 hp
      · exact absurd h1 hd
    obtain ⟨k1, k2, k3⟩ := nextBlock_agree hl hf.inv hp hs h
    rw [readAll_block hw hp hd, readAll_block (d := f) hw (by omega) (by rw [s1]; exact hd), ← k1, hb]
    simp only [if_true]
    exact ih _ (nextBlock_live hl hp hd hb) (nextBlock_live hf (by omega) (by rw [s1]; exact hd) (k1 ▸ hb)) (k2 hb)
  | fail want out d hw hp hd hb =>
    intro f hl hf h
    obtain ⟨s1, s2, s3⟩ := agree_scalars h
    have hs : d.dst = .streaming := by
      rcases hl.live with h1 | h1 | h1
      · exact h1
      · exact absurd (hl.inv.draining h1).1 hp
      · exact absurd h1 hd
    obtain ⟨k1, k2, x, y, z, k3⟩ := nextBlock_agree hl hf.inv hp hs h
    rw [readAll_block hw hp hd, readAll_block (d := f) hw (by omega) (by rw [s1]; exact hd), ← k1, hb]
    simp only [Bool.false_eq_true, if_false]
    rw [k3]
    exact ⟨rfl, decAgree_dead (x := x) (y := y) (z := z) (.inr (.inl rfl))⟩

theorem decInit_with (d : DecUnit) (x y z : List Byte) : (decInit d).1 = (decInit (decWith d x y z)).1 ∧
    ((decInit d).1 = true → (decInit d).2.Agree (decInit (decWith d x y z)).2) ∧
    ((decInit d).1 = false → (decInit (decWith d x y z)).2 = decWith (decInit d).2 x y z) := by
  by_cases hs : d.src.length - d.spos < d.blockSize
  · rw [decInit_short hs, decInit_short (d := decWith d x y z) hs]
    exact ⟨rfl, by simp, fun _ => rfl⟩
  · rw [decInit_ok (by omega), decInit_ok (d := decWith d x y z) (Nat.le_of_not_lt hs)]
    refine ⟨rfl, fun _ => ⟨rfl, fun _ => ?_, fun _ hv => ?_, fun _ => rfl⟩, by simp⟩
    · simp [DecUnit.tailBytes, slice]
    · simp at hv

theorem decRead_agree {len : Nat} {d f : DecUnit} (hd : d.Inv) (hf : f.Inv) (h : d.Agree f) :
   (decRead len d).2 = (decRead len f).2 ∧ (decRead len d).1.Agree (decRead len f).1 := by
  obtain ⟨s1, s2, s3⟩ := agree_scalars h
  have live : ∀ (hl : d.dst = .streaming ∨ d.dst = .draining ∨ d.dst = .drained), (decRead len d).2 =
      (decRead len f).2 ∧ (decRead len d).1.Agree (decRead len f).1 := by
    intro hl
    have h1 : Live d := ⟨hd, hl⟩
    have h2 : Live f := ⟨hf, by rw [s1]; exact hl⟩
    rw [decRead_of h1.ne.1 h1.ne.2.1 h1.ne.2.2, decRead_of h2.ne.1 h2.ne.2.1 h2.ne.2.2]
    exact readAll_agree _ _ _ _ h1 h2 h
  cases hc : d.dst with
  | closed => rw [decRead_closed hc, decRead_closed (s1.trans hc)]; exact ⟨rfl, h⟩
  | failed => rw [decRead_failed hc, decRead_failed (s1.trans hc)]; exact ⟨rfl, h⟩
  | uninit =>
    rw [decRead_uninit hc, decRead_uninit (s1.trans hc)]
    obtain ⟨k1, k2, k3⟩ := decInit_with d f.cur f.la f.dchain
    rw [← decAgree_eq h] at k1 k2 k3
    rw [← k1]
    cases hi : (decInit d).1 with
    | true =>
      simp only [if_true]
      exact readAll_agree _ _ _ _ ((decInit_facts hd hc).1 hi).1 ((decInit_facts hf (s1.trans hc)).1 (k1 ▸ hi)).1 (k2 hi)
    | false =>
      simp only [Bool.false_eq_true, if_false]
      rw [k3 hi]
      exact ⟨rfl, decAgree_dead (.inr (.inl rfl))⟩
  | streaming => exact live (by simp [hc])
  | draining => exact live (by simp [hc])
  | drained => exact live (by simp [hc])

theorem decClose_agree {d f : DecUnit} (h : d.Agree f) : (decClose d).2 = (decClose f).2 ∧ (decClose d).1.Agree
    (decClose f).1 := by
  have heq := decAgree_eq h
  obtain ⟨s1, s2, s3⟩ := agree_scalars h
  refine ⟨by rw [decClose_reply, decClose_reply], ?_⟩
  by_cases hc : d.dst = .closed
  · have e1 : (decClose d).1 = d := by unfold decClose; rw [hc]
    have e2 : (decClose f).1 = f := by unfold decClose; rw [s1, hc]
    rw [e1, e2]; exact h
  · have e : ∀ g : DecUnit, g.dst ≠ .closed → (decClose g).1 = { srcClose g with dst := .closed } := by
      intro g hg; unfold decClose; split
      · rename_i h2; exact absurd h2 hg
      all_goals rfl
    rw [e d hc, e f (by rw [s1]; exact hc), heq]
    exact decAgree_dead (x := f.cur) (y := f.la) (z := f.dchain) (.inr (.inr (.inl rfl)))

end Sys2Proof.Machine
end

