-- ==== Sys2Proof/Laws/Encoding.lean ====
section
/-! SUPPORT. The fields of a command word built from its fields (30_encoding.md R80). -/

namespace Sys2Proof

theorem opcodeField_commandWord (op : BitVec 8) (len : Nat) : opcodeField (commandWord op len) = op := by
  unfold opcodeField commandWord
  apply BitVec.eq_of_getLsbD_eq
  intro i hi
  rw [BitVec.getLsbD_extractLsb']
  erw [BitVec.getLsbD_append]
  simp [hi]

theorem lenField_commandWord (op : BitVec 8) (len : Nat) (h : len < 2 ^ 24) : lenField
    (commandWord op len) = len := by
  have : (commandWord op len).extractLsb' 0 24 = BitVec.ofNat 24 len := by
    unfold commandWord
    apply BitVec.eq_of_getLsbD_eq
    intro i hi
    rw [BitVec.getLsbD_extractLsb']
    erw [BitVec.getLsbD_append]
    simp [hi]
  unfold lenField
  rw [this]
  simp [BitVec.toNat_ofNat]; omega

theorem commandWord_fields (w : Word) : commandWord (opcodeField w) (lenField w) = w := by
  unfold commandWord opcodeField lenField
  rw [BitVec.ofNat_toNat]
  apply BitVec.eq_of_getLsbD_eq
  intro i hi
  simp only [BitVec.getLsbD_append, BitVec.getLsbD_extractLsb', BitVec.getLsbD_setWidth]
  by_cases h : i < 24
  · simp [h]
  · simp [h, show i - 24 < 8 by omega, show 24 + (i - 24) = i by omega]

theorem lenField_lt (w : Word) : lenField w < 2 ^ 24 := (w.extractLsb' 0 24).isLt

theorem lenOk_iff {n : Nat} : lenOk n = true ↔ n < 2 ^ 24 := decide_eq_true_iff

end Sys2Proof
end

