-- ==== Sys2Proof/Laws/Memory.lean ====
section
/-! SUPPORT. The two byte spaces: their canonical form as address and byte pairs, which every operation keeps, and what
a sink write leaves at each address (20_memory.md R50, R51, R55). -/

namespace Sys2Proof.Machine

/-- The pairs of a byte space are in canonical form, whatever bytes it holds. -/
theorem cells_wf (space : List Byte) : Memory.wf (cells space) = true := by
  have h : (space.zipIdx.map Prod.snd).Pairwise (· < ·) := by
    rw [List.zipIdx_map_snd]
    exact List.pairwise_lt_range'
  rw [List.pairwise_map] at h
  simp only [Memory.wf, cells, decide_eq_true_eq, List.pairwise_map]
  exact h

/-- Equal pairs are equal byte spaces. -/
theorem cells_injective {x y : List Byte} (h : cells x = cells y) : x = y := by
  have h' := congrArg (List.map Prod.snd) h
  simpa [cells, Function.comp_def, List.zipIdx_map_fst] using h'

/-- SNK and SRC right after reset (R43). -/
theorem reset_cells_wf : Memory.wf (cells State.reset.enc.snk) = true ∧ Memory.wf (cells State.reset.dec.src) = true :=
  ⟨cells_wf _, cells_wf _⟩

/-- A sink write keeps the canonical form. -/
theorem sinkWrite_cells_wf (s : List Byte) (e : EncUnit) : Memory.wf (cells (sinkWrite s e).2.snk) = true := cells_wf _

/-- A source read keeps the canonical form, and the content. -/
theorem srcRead_cells (n : Nat) (d : DecUnit) : cells (srcRead n d).2.src = cells d.src := rfl

/-- A sink write leaves every byte below the old position. -/
theorem byteAt_sinkWrite_below {s : List Byte} {e : EncUnit} {a : Nat} (h : a < kpos e) :
    byteAt (sinkWrite s e).2.snk a = byteAt e.snk a := by
  simp only [byteAt, sinkWrite_snk]
  exact List.getElem?_append_left h

/-- A sink write puts its first accepted bytes at the old position. -/
theorem byteAt_sinkWrite_new {s : List Byte} {e : EncUnit} {i : Nat} (h : i < nextAccept s.length e) :
    byteAt (sinkWrite s e).2.snk (kpos e + i) = s[i]? := by
  simp only [byteAt, sinkWrite_snk, kpos]
  rw [List.getElem?_append_right (Nat.le_add_right _ _), Nat.add_sub_cancel_left, List.getElem?_take, if_pos h]

/-- A sink write moves the position by the bytes accepted (R202). -/
theorem kpos_sinkWrite (s : List Byte) (e : EncUnit) : kpos (sinkWrite s e).2 = kpos e + nextAccept s.length e := by
  have h := nextAccept_le s.length e
  simp only [kpos, sinkWrite_snk, List.length_append, List.length_take]
  omega

end Sys2Proof.Machine
end

