-- ==== Sys2Proof/Laws/PerInstr.lean ====
section
/-! SUPPORT. Statements made per instruction. Family `EncodeFields`: the opcode and the `len` that the command word of a
well-formed instruction carries (30_encoding.md R80, R81). -/

namespace Sys2Proof.Laws.EncodeFields

/-- The opcode of R81. -/
def opcode : Instr → BitVec 8
  | .ewrite _ => 0x10#8
  | .eclose => 0x11#8
  | .dread _ => 0x20#8
  | .dclose => 0x21#8

/-- The `len` operand; a close has 0 (R81). -/
def len : Instr → Nat
  | .ewrite n => n
  | .eclose => 0
  | .dread n => n
  | .dclose => 0

/-- The command word of a well-formed instruction carries its opcode and its `len`. -/
def Statement (i : Instr) : Prop :=
  i.wellFormed = true → opcodeField (encode i) = opcode i ∧ lenField (encode i) = len i

theorem ewrite (n : Nat) : Statement (.ewrite n) := fun h =>
  ⟨opcodeField_commandWord _ _, lenField_commandWord _ _ (lenOk_iff.1 h)⟩

theorem eclose : Statement .eclose := fun _ => by decide

theorem dread (n : Nat) : Statement (.dread n) := fun h =>
  ⟨opcodeField_commandWord _ _, lenField_commandWord _ _ (lenOk_iff.1 h)⟩

theorem dclose : Statement .dclose := fun _ => by decide

end Sys2Proof.Laws.EncodeFields
end

