-- ==== Sys2Proof/Laws/Step.lean ====
section
/-! SUPPORT. The step: one event, and runs (00 R8). -/

namespace Sys2Proof.Machine

/-- No command stops the machine. -/
theorem exec_next (i : Instr) (s : State) : ∃ t, exec i s = .next t := by cases i <;> exact ⟨_, rfl⟩

/-- Every command keeps the invariant. -/
theorem exec_inv {i : Instr} {s t : State} (he : s.enc.Inv) (hd : s.dec.Inv) (h : exec i s = .next t) : t.Inv := by
  cases i <;> cases h
  · exact ⟨encWrite_inv _ _ _ he, hd, rfl⟩
  · exact ⟨encClose_inv _ he, hd, rfl⟩
  · exact ⟨he, (decRead_inv _ _ hd).1, rfl⟩
  · exact ⟨he, decClose_inv _ hd, rfl⟩

theorem resetEnc_inv {e : EncUnit} (h : legalBlockSize e.blockSize = true) : (resetEnc e).Inv := by
  refine ⟨?_, ?_, ?_, ?_, ?_, ?_⟩ <;> simp [resetEnc, length_freeBytes, h]

theorem resetDec_inv {d : DecUnit} (h : legalBlockSize d.blockSize = true) (hp : d.spos ≤ d.src.length) :
    (resetDec d).Inv := by
  refine ⟨?_, ?_, ?_, ?_, ?_, ?_, ?_, ?_, ?_, ?_, ?_, ?_, ?_⟩ <;> simp [resetDec, length_freeBytes, h, hp]

/-- Everything a step can do. -/
theorem step_cases (s : State) :
    (s.pending = [] ∧ step s = .next s) ∨
    (∃ w bytes rest, s.pending = .command w bytes :: rest ∧ step s = runCommand w bytes { s with pending := rest }) ∨
    (∃ b rest, s.pending = .resetEnc b :: rest ∧ step s = execResetEnc b { s with pending := rest }) ∨
    (∃ b rest, s.pending = .resetDec b :: rest ∧ step s = execResetDec b { s with pending := rest }) := by
  cases hp : s.pending with
  | nil => left; simp [step, takeEvent, hp]
  | cons ev rest =>
    right
    cases ev with
    | command w b => left; exact ⟨w, b, rest, rfl, by simp [step, takeEvent, hp, runEvent]⟩
    | resetEnc b => right; left; exact ⟨b, rest, rfl, by simp [step, takeEvent, hp, runEvent]⟩
    | resetDec b => right; right; exact ⟨b, rest, rfl, by simp [step, takeEvent, hp, runEvent]⟩

/-- A command word in front: the step executes it. -/
theorem step_command {s : State} {w : Word} {bs : List Byte} {rest : List HostEvent}
    (h : s.pending = .command w bs :: rest) : step s = runCommand w bs { s with pending := rest } := by
  simp [step, takeEvent, h, runEvent]

theorem execResetEnc_cases {b : Option EncBinding} {s t : State} (h : execResetEnc b s = .next t) :
   (b = none ∧ t = { s with enc := resetEnc s.enc }) ∨
    (∃ c, b = some c ∧ legalBlockSize c.blockSize = true ∧ t = { s with enc := resetEnc (bindEnc c s.enc) }) := by
  unfold execResetEnc at h
  cases b with
  | none => simp at h; left; exact ⟨rfl, h.symm⟩
  | some c =>
    simp only at h
    split at h
    · rename_i hl; right; exact ⟨c, rfl, hl, by simpa using h.symm⟩
    · simp at h

theorem execResetDec_cases {b : Option DecBinding} {s t : State} (h : execResetDec b s = .next t) :
   (b = none ∧ t = { s with dec := resetDec s.dec }) ∨
    (∃ c, b = some c ∧ legalBlockSize c.blockSize = true ∧ t = { s with dec := resetDec (bindDec c s.dec) }) := by
  unfold execResetDec at h
  cases b with
  | none => simp at h; left; exact ⟨rfl, h.symm⟩
  | some c =>
    simp only at h
    split at h
    · rename_i hl; right; exact ⟨c, rfl, hl, by simpa using h.symm⟩
    · simp at h

theorem run_succ (k : Nat) (s t : State) (h : step s = .next t) : core.run (k+1) s = core.run k t := by
  have h' : core.step s = .next t := h
  simp only [Host.Core.run, h']

end Sys2Proof.Machine
end

