-- ==== Sys2Proof/Tests/Slice0.lean ====
section
/-! SUPPORT. Tests: the well-formedness smoke tests, command words written out from 30_encoding.md, one step of each
command on a small state with the values of 95_test_vectors.md, and for every obligation with hypotheses a concrete
state that meets them. -/

namespace Sys2Proof.Tests

open Sys2Proof.Machine

/-! ## Well-formed terms -/

theorem test_ewrite_len_too_long_refused : (Instr.ewrite (2 ^ 24)).wellFormed = false := by decide
theorem test_dread_len_too_long_refused : (Instr.dread (2 ^ 24)).wellFormed = false := by decide
theorem test_longest_len_accepted : (Instr.ewrite (2 ^ 24 - 1)).wellFormed = true ∧ (Instr.dread 0).wellFormed = true := by
  decide

/-! ## Command words, bit by bit from R80 and R81: the opcode in bits 31..24, `len` in bits 23..0 -/

theorem test_decode_ewrite : decode 0b00010000000000000000000000000101#32 = .ok (.ewrite 5) := by decide
theorem test_decode_eclose : decode 0b00010001000000000000000000000000#32 = .ok .eclose := by decide
theorem test_decode_dread : decode 0b00100000100000000000000000000001#32 = .ok (.dread (2 ^ 23 + 1)) := by decide
theorem test_decode_dclose : decode 0b00100001000000000000000000000000#32 = .ok .dclose := by decide
theorem test_decode_reserved : decode 0b00010001000000000000000000000001#32 = .error (.closeWithLen 0x11#8 1) := by decide
theorem test_table_word : decodeTableWord 32 0x20000010 = some (.dread 16) ∧ decodeTableWord 32 0x12000000 = none := by decide
theorem test_response_word : responseWord .encErr 8 = 0x20000008#32 ∧ responseWord .invalid 0 = 0xF0000000#32 := by decide
theorem test_state_codes : encStateCode .failed = 3#2 ∧ decStateCode .closed = 5#3 := by decide
theorem test_asm : asmText (.ewrite 2) [0x48#8, 0x0A#8] = "EWRITE 2, [0x48, 0x0a]" ∧ asmText (.dread 16) [] = "DREAD 16" := by
  decide

/-! ## Small states: `B = 4` -/

/-- The IV of the vectors of 95_test_vectors.md section 5. -/
def iv : List Byte := [0xa0, 0xa1, 0xa2, 0xa3]

/-- ENC fresh, cipher T1, the random source about to answer `iv`, the sink about to accept `accept`. -/
def encFresh (accept : List Nat) : EncUnit :=
  { EncUnit.reset with
    blockSize := 4
    ebuf := [0, 0, 0, 0]
    echain := [0, 0, 0, 0]
    cipher := .toyRotate
    rng := [some iv]
    accept := accept }

/-- ENC after `EWRITE 1, [0x61]` (T-E2). -/
def encOne (accept : List Nat) : EncUnit :=
  { encFresh accept with est := .streaming, ebuf := [0x61, 0, 0, 0], elen := 1, echain := iv, rng := [], snk := iv }

/-- DEC fresh, with a cipher and a source. -/
def decFresh (c : Cipher) (src : List Byte) : DecUnit :=
  { DecUnit.reset with
    blockSize := 4
    cur := [0, 0, 0, 0]
    la := [0, 0, 0, 0]
    dchain := [0, 0, 0, 0]
    cipher := c
    src := src }

/-- `S5` of 95_test_vectors.md: the stream of `61 62 63 64 65`. -/
def s5 : List Byte := [0xa0, 0xa1, 0xa2, 0xa3, 0xc4, 0xc2, 0xc8, 0xc2, 0xc2, 0xcc, 0xc2, 0xa2]

/-- DEC after `DREAD 1` on `S5` (T-D4): block 1 in `cur`, block 2 in `la`. -/
def decOne : DecUnit :=
  { decFresh .toyRotate s5 with
    dst := .streaming
    cur := [0x61, 0x62, 0x63, 0x64]
    cpos := 1
    clen := 4
    la := [0xc2, 0xcc, 0xc2, 0xa2]
    laLen := 4
    laValid := true
    dchain := [0xc4, 0xc2, 0xc8, 0xc2]
    spos := 12 }

/-- DEC with block 1 of `S5` delivered and block 2 still in `la`. -/
def decBlockDone : DecUnit := { decOne with cpos := 4 }

/-- A machine with these units and these events pending. -/
def machine (e : EncUnit) (d : DecUnit) (pending : List HostEvent) : State :=
  { State.reset with enc := e, dec := d, pending := pending }

/-- A field of the next state. -/
def after {α : Type} (o : Host.Outcome State Fault Refusal) (f : State → α) : Option α :=
  match o with
  | .next t => some (f t)
  | .fault _ => none
  | .refused _ => none

/-- The responses of the next state. -/
def responses (t : State) : List (Word × List Byte) := t.rspLog.map fun r => (r.word, r.data)

/-! ## One step of each command, from 95_test_vectors.md -/

/-- T-E5: five bytes in one `EWRITE`, the first four flushed as a block. -/
theorem test_ewrite_flushes :
    after (step (machine (encFresh [4, 4]) DecUnit.reset [ewriteOf [0x61, 0x62, 0x63, 0x64, 0x65]]))
      (fun t => (responses t, t.enc.snk, t.enc.ebuf, t.enc.elen)) =
    some ([(0x00000005#32, [])], iv ++ [0xc4, 0xc2, 0xc8, 0xc2], [0x65, 0xc2, 0xc8, 0xc2], 1) := by decide

/-- T-E11: the second block of the command is refused; the count takes it in. -/
theorem test_ewrite_count_on_refused_block :
    after (step (machine (encFresh [4, 4, 0]) DecUnit.reset
        [ewriteOf [0x61, 0x62, 0x63, 0x64, 0x65, 0x66, 0x67, 0x68, 0x69, 0x6a]]))
      (fun t => (responses t, t.enc.est, t.enc.snk, t.enc.elen)) =
    some ([(0x20000008#32, [])], .failed, iv ++ [0xc4, 0xc2, 0xc8, 0xc2], 4) := by decide

/-- T-E2: the residue of one byte is padded with three bytes of value 3. -/
theorem test_eclose_pads_residue :
    after (step (machine (encOne [4]) DecUnit.reset [command .eclose []]))
      (fun t => (responses t, t.enc.est, t.enc.snk, t.enc.snkClosed)) =
    some ([(0x00000000#32, [])], .closed, iv ++ [0xa3, 0xa2, 0xa1, 0xc2], true) := by decide

/-- T-E1: `ECLOSE` as the first command runs the IV step, then writes the block of padding. -/
theorem test_eclose_empty_plaintext :
    after (step (machine (encFresh [4, 4]) DecUnit.reset [command .eclose []])) (fun t => (t.enc.snk, t.enc.calls)) =
    some (iv ++ [0xa6, 0xa7, 0xa8, 0xa5],
      [.randomBytes 4 (some iv), .sinkWrite iv 4, .cbcInit iv, .cbcEncrypt [4, 4, 4, 4] [0xa6, 0xa7, 0xa8, 0xa5],
        .sinkWrite [0xa6, 0xa7, 0xa8, 0xa5] 4, .sinkClose]) := by decide

/-- T-D3: one `DREAD` longer than the stream. -/
theorem test_dread_whole_stream :
    after (step (machine EncUnit.reset (decFresh .toyRotate s5) [command (.dread 100) []]))
      (fun t => (responses t, t.dec.dst, t.dec.cur, t.dec.cpos, t.dec.spos)) =
    some ([(0x10000005#32, [0x61, 0x62, 0x63, 0x64, 0x65])], .drained, [0x65, 3, 3, 3], 1, 12) := by decide

/-- T-D6: truncated inside block 2: block 1 is delivered whole, with the error. -/
theorem test_dread_truncated :
    after (step (machine EncUnit.reset (decFresh .toyRotate (s5.take 10)) [command (.dread 100) []]))
      (fun t => (responses t, t.dec.dst, t.dec.laLen, t.dec.laValid, t.dec.spos)) =
    some ([(0x30000004#32, [0x61, 0x62, 0x63, 0x64])], .failed, 2, false, 10) := by decide

/-- T-D11: `DCLOSE` after an error answers `OK` and closes the source. -/
theorem test_dclose_after_error :
    after (step (machine EncUnit.reset { decOne with dst := .failed } [command .dclose []]))
      (fun t => (responses t, t.dec.dst, t.dec.srcClosed, t.dec.calls)) =
    some ([(0x00000000#32, [])], .closed, true, [.srcClose]) := by decide

/-- T-D11: a second `DCLOSE` makes no call. -/
theorem test_dclose_twice :
    after (step (machine EncUnit.reset { decOne with dst := .closed } [command .dclose []]))
      (fun t => (responses t, t.dec.calls)) = some ([(0x00000000#32, [])], []) := by decide

/-- The placed word is the very next command, from reset (log 13). -/
theorem test_withFetchWord :
    after (step (State.reset.withFetchWord 32 0x21000000)) (fun t => (responses t, t.dec.dst)) =
    some ([(0x00000000#32, [])], .closed) := by decide

/-! ## Witnesses: a state that meets the hypotheses of each obligation -/

theorem encFresh_fresh (a : List Nat) : (encFresh a).Fresh := by
  refine ⟨⟨?_, ?_, ?_, ?_, ?_, ?_⟩, ?_, ?_, ?_⟩ <;> simp [encFresh, EncUnit.reset, legalBlockSize, Config.minBlockSize, Config.maxBlockSize]

theorem encFresh_random (a : List Nat) : randomAnswers iv (encFresh a) := ⟨rfl, [], rfl⟩

theorem encOne_inv (a : List Nat) : (encOne a).Inv := by
  refine ⟨?_, ?_, ?_, ?_, ?_, ?_⟩ <;>
    simp [encOne, encFresh, EncUnit.reset, legalBlockSize, Config.minBlockSize, Config.maxBlockSize, iv]

theorem encOne_tracks (a : List Nat) : (encOne a).Tracks iv [0x61] := by
  refine ⟨rfl, rfl, ?_, ?_, rfl, ?_⟩
  · show iv = iv ++ (cbcEncryptAll .toyRotate 4 iv (fullBlocks 4 [0x61])).flatten
    decide
  · show iv = chainAfter iv (cbcEncryptAll .toyRotate 4 iv (fullBlocks 4 [0x61]))
    decide
  · show ([0x61, 0, 0, 0] : List Byte).take 1 = ([0x61] : List Byte).drop (4 * (1 / 4))
    decide

theorem decFresh_fresh (c : Cipher) (src : List Byte) : (decFresh c src).Fresh := by
  refine ⟨⟨?_, ?_, ?_, ?_, ?_, ?_, ?_, ?_, ?_, ?_, ?_, ?_, ?_⟩, ?_, ?_, ?_⟩ <;>
    simp [decFresh, DecUnit.reset, legalBlockSize, Config.minBlockSize, Config.maxBlockSize]

theorem decOne_inv : decOne.Inv := by
  refine ⟨?_, ?_, ?_, ?_, ?_, ?_, ?_, ?_, ?_, ?_, ?_, ?_, ?_⟩ <;> decide

theorem decBlockDone_inv : decBlockDone.Inv := by
  refine ⟨?_, ?_, ?_, ?_, ?_, ?_, ?_, ?_, ?_, ?_, ?_, ?_, ?_⟩ <;> decide

theorem decOne_tracks : decOne.Tracks [0x61] :=
  ⟨1, ⟨by decide, by decide, by decide, by decide, fun _ => by decide, by decide, by decide⟩⟩

theorem machine_inv {e : EncUnit} {d : DecUnit} {p : List HostEvent} (he : e.Inv) (hd : d.Inv) : (machine e d p).Inv :=
  ⟨he, hd, rfl⟩

theorem witness_DecodeOfEncode : (Instr.ewrite 0).wellFormed = true ∧ (Instr.ewrite (2 ^ 24 - 1)).wellFormed = true ∧
    Instr.eclose.wellFormed = true ∧ (Instr.dread (2 ^ 24 - 1)).wellFormed = true ∧ Instr.dclose.wellFormed = true := by
  decide

theorem witness_EncodeOfDecode : decode 0x10FFFFFF#32 = .ok (.ewrite (2 ^ 24 - 1)) := by decide

theorem witness_ResponseWordFields : 2 ^ 24 - 1 < 2 ^ 24 := by decide

theorem witness_StepRunsDecodedCommand :
    (machine EncUnit.reset DecUnit.reset [.command 0x20000001#32 []]).pending = .command 0x20000001#32 [] :: [] ∧
      decode 0x20000001#32 = .ok (.dread 1) := ⟨rfl, by decide⟩

/-- Each kind of reserved word, at the edges of its range. -/
theorem witness_ReservedWordAnswersInvalid :
    (opcodeField 0x22FFFFFF#32 ≠ 0x10#8 ∧ opcodeField 0x22FFFFFF#32 ≠ 0x11#8 ∧ opcodeField 0x22FFFFFF#32 ≠ 0x20#8 ∧
      opcodeField 0x22FFFFFF#32 ≠ 0x21#8) ∧
      (opcodeField 0x11000001#32 = 0x11#8 ∧ lenField 0x11000001#32 ≠ 0) ∧
      (opcodeField 0x21FFFFFF#32 = 0x21#8 ∧ lenField 0x21FFFFFF#32 ≠ 0) ∧
      (machine EncUnit.reset DecUnit.reset [.command 0x11000001#32 [1]]).pending = .command 0x11000001#32 [1] :: [] :=
  ⟨by decide, by decide, by decide, rfl⟩

theorem witness_OneResponsePerCommand :
    (machine EncUnit.reset DecUnit.reset [.command 0x11000000#32 []]).pending = .command 0x11000000#32 [] :: [] ∧
      (machine EncUnit.reset DecUnit.reset [.command 0x20000000#32 []]).pending = .command 0x20000000#32 [] :: [] ∧
      opcodeField 0x11000000#32 ≠ 0x20#8 ∧ opcodeField 0x20000000#32 = 0x20#8 := ⟨rfl, rfl, by decide, by decide⟩

theorem witness_OnlyIllegalBindingStops :
    step (machine EncUnit.reset DecUnit.reset [.resetDec (some { blockSize := 256, cipher := .keyed 0, src := [] })]) =
        .fault .illegalBlockSize ∧
      step (machine EncUnit.reset DecUnit.reset
        [.resetEnc (some { blockSize := 0, cipher := .keyed 0, rng := [], accept := [] })]) = .fault .illegalBlockSize ∧
      State.reset.pending = [] := ⟨rfl, rfl, rfl⟩

theorem witness_ResetEffects :
    (machine (encOne []) decOne [.resetEnc none]).pending = .resetEnc none :: [] ∧
      (machine (encOne []) decOne [.resetDec none]).pending = .resetDec none :: [] := ⟨rfl, rfl⟩

theorem witness_BoundResetIsFresh :
    (machine (encOne []) decOne [.resetEnc (some { blockSize := 1, cipher := .toyIdentity, rng := [], accept := [] })]).pending =
        .resetEnc (some { blockSize := 1, cipher := .toyIdentity, rng := [], accept := [] }) :: [] ∧
      (machine (encOne []) decOne [.resetDec (some { blockSize := 255, cipher := .keyed 7, src := s5 })]).pending =
        .resetDec (some { blockSize := 255, cipher := .keyed 7, src := s5 }) :: [] ∧ 1 ≤ 1 ∧ 255 ≤ 255 :=
  ⟨rfl, rfl, by decide, by decide⟩

theorem witness_PadAddFillsWithCount :
    4 ≤ 255 ∧ ([0x61, 0x62, 0, 0] : List Byte).length = 4 ∧ 0 < 4 ∧ 3 < 4 ∧ 2 ≤ 3 ∧ 1 < 2 := by decide

theorem witness_PadRemoveByLastByte :
    (5#8).toNat > ([0x61, 0x62, 0x63] : List Byte).length + 1 ∧ (4#8).toNat ≤ ([0x61, 0x62, 0x63] : List Byte).length + 1 ∧
      (0#8).toNat ≤ ([] : List Byte).length + 1 := by decide

theorem witness_PadRemoveInvertsPadAdd : 1 ≤ 1 ∧ 255 ≤ 255 ∧ (List.replicate 255 (0 : Byte)).length = 255 ∧ 0 < 255 ∧ 254 < 255 :=
  ⟨by decide, by decide, List.length_replicate, by decide, by decide⟩

theorem witness_UnpadInvertsPad : 1 ≤ 1 ∧ 1 ≤ 255 ∧ 255 ≤ 255 := by decide

theorem witness_CipherAndCombInvert : iv.length = ([0x61, 3, 3, 3] : List Byte).length := by decide

/-- `EWRITE` of seven bytes completes two blocks; of no byte, none. -/
theorem witness_EwriteStreams :
    let s := { machine (encOne [4, 9, 0]) decOne [] with wdata := [1, 2, 3, 4, 5, 6, 7] }
    s.enc.Inv ∧ s.enc.Tracks iv [0x61] ∧ s.wdata.length = 7 ∧ 7 < 2 ^ 24 ∧ sinkAccepts ((1 % 4 + 7) / 4) s.enc :=
  ⟨encOne_inv _, encOne_tracks _, rfl, by decide, ⟨[4, 9], [0], by decide, by decide, by decide⟩⟩

theorem witness_EwriteFirstRunsIvStep :
    let s := { machine (encFresh [4, 4]) decOne [] with wdata := [1, 2, 3, 4] }
    s.enc.Fresh ∧ randomAnswers iv s.enc ∧ s.wdata.length = 4 ∧ 4 < 2 ^ 24 ∧ sinkAccepts (1 + 4 / 4) s.enc :=
  ⟨encFresh_fresh _, encFresh_random _, rfl, by decide, ⟨[4, 4], [], by decide, by decide, by decide⟩⟩

theorem witness_EwritePartialBlockOnlyBuffers :
    let s := { machine (encOne []) decOne [] with wdata := [1, 2] }
    s.enc.Inv ∧ s.enc.est = .streaming ∧ s.wdata.length = 2 ∧ s.enc.elen + 2 < s.enc.blockSize :=
  ⟨encOne_inv _, rfl, rfl, by decide⟩

theorem witness_EwriteRandomFailure :
    ({ encFresh [] with rng := [none] } : EncUnit).est = .uninit ∧ randomFails { encFresh [] with rng := [none] } :=
  ⟨rfl, [], rfl⟩

theorem witness_EwriteIvWriteFailure :
    (encFresh [3]).Inv ∧ (encFresh [3]).est = .uninit ∧ randomAnswers iv (encFresh [3]) ∧
      sinkRefusesAfter 0 3 (encFresh [3]) :=
  ⟨(encFresh_fresh _).inv, rfl, encFresh_random _, ⟨[], [], rfl, rfl, by simp, by decide⟩⟩

/-- One block accepted, of the next only three bytes. -/
theorem witness_EwriteBlockWriteFailure :
    let s := { machine (encOne [4, 3]) decOne [] with wdata := [1, 2, 3, 4, 5, 6, 7] }
    s.enc.Inv ∧ s.enc.Tracks iv [0x61] ∧ s.wdata.length = 7 ∧ 7 < 2 ^ 24 ∧ sinkRefusesAfter 1 3 s.enc ∧
      s.enc.blockSize * (1 + 1) ≤ 1 % s.enc.blockSize + 7 :=
  ⟨encOne_inv _, encOne_tracks _, rfl, by decide, ⟨[4], [], rfl, rfl, by decide, by decide⟩, by decide⟩

theorem witness_EwriteTerminalStates :
    ({ encOne [] with est := .closed } : EncUnit).est = .closed ∧ ({ encOne [] with est := .failed } : EncUnit).est = .failed :=
  ⟨rfl, rfl⟩

theorem witness_EwriteChunkIndependence :
    ([1, 2] ++ [] : List Byte).length < 2 ^ 24 ∧
      (∃ t u, exec (.ewrite 2) { machine (encOne []) decOne [] with wdata := [1, 2] } = .next t ∧
        exec (.ewrite 0) { t with wdata := [] } = .next u) := ⟨by decide, _, _, rfl, rfl⟩

theorem witness_EpushSequenceIsEwrite : ([1] : List Byte) ≠ [] ∧ ([1] : List Byte).length < 2 ^ 24 := by decide

theorem witness_EcloseCompletesStream :
    (encOne [4]).Inv ∧ (encOne [4]).Tracks iv [0x61] ∧ sinkAccepts 1 (encOne [4]) :=
  ⟨encOne_inv _, encOne_tracks _, ⟨[4], [], rfl, rfl, by decide⟩⟩

theorem witness_EcloseOfEmptyPlaintext :
    (encFresh [4, 4]).Fresh ∧ randomAnswers iv (encFresh [4, 4]) ∧ sinkAccepts 2 (encFresh [4, 4]) :=
  ⟨encFresh_fresh _, encFresh_random _, ⟨[4, 4], [], rfl, rfl, by decide⟩⟩

theorem witness_EcloseFinalWriteFailure :
    (encOne [0]).Inv ∧ (encOne [0]).est = .streaming ∧ sinkRefusesAfter 0 0 (encOne [0]) ∧
      (encFresh [4, 3]).Inv ∧ (encFresh [4, 3]).est = .uninit ∧ randomAnswers iv (encFresh [4, 3]) ∧
      sinkRefusesAfter 1 3 (encFresh [4, 3]) :=
  ⟨encOne_inv _, rfl, ⟨[], [], rfl, rfl, by simp, by decide⟩, (encFresh_fresh _).inv, rfl, encFresh_random _,
    ⟨[4], [], rfl, rfl, by decide, by decide⟩⟩

theorem witness_EcloseIvStepFailure :
    (encFresh [3]).Inv ∧ (encFresh [3]).est = .uninit ∧ randomFails { encFresh [3] with rng := [none] } ∧
      randomAnswers iv (encFresh [3]) ∧ sinkRefusesAfter 0 3 (encFresh [3]) :=
  ⟨(encFresh_fresh _).inv, rfl, ⟨[], rfl⟩, encFresh_random _, ⟨[], [], rfl, rfl, by simp, by decide⟩⟩

theorem witness_EcloseTerminalStates :
    ({ encOne [] with est := .failed } : EncUnit).est = .failed ∧ ({ encOne [] with est := .closed } : EncUnit).est = .closed :=
  ⟨rfl, rfl⟩

/-- Both sides of the equivalence occur: the sink takes the final block, or one byte less. -/
theorem witness_EcloseOkIffStreamComplete :
    (encOne [4]).Inv ∧ (encOne [4]).Tracks iv [0x61] ∧ (encOne [3]).Inv ∧ (encOne [3]).Tracks iv [0x61] ∧
      (encFresh [4, 4]).Fresh ∧ ({ encOne [] with est := .failed } : EncUnit).est = .failed ∧
      (∃ t, exec .eclose (machine (encOne [4]) decOne []) = .next t) ∧
      (∃ t, exec .eclose (machine (encOne [3]) decOne []) = .next t) ∧
      (∃ t, exec .eclose (machine (encFresh [4, 4]) decOne []) = .next t) ∧
      (∃ t, exec .eclose (machine { encOne [] with est := .failed } decOne []) = .next t) :=
  ⟨encOne_inv _, encOne_tracks _, encOne_inv _, encOne_tracks _, encFresh_fresh _, rfl, ⟨_, rfl⟩, ⟨_, rfl⟩, ⟨_, rfl⟩,
    ⟨_, rfl⟩⟩

theorem witness_EncTransitions :
    (encFresh [4]).Inv ∧ (∃ t, exec (.ewrite 1) (machine (encFresh [4]) decOne []) = .next t) ∧
      (∃ t, exec .eclose (machine (encFresh [4]) decOne []) = .next t) := ⟨(encFresh_fresh _).inv, ⟨_, rfl⟩, ⟨_, rfl⟩⟩

/-- A sink that takes 3 bytes of the 4-byte IV, and a random source that answers `fail`, are failed calls (R231). -/
theorem test_callFailed :
    callFailed (.sinkWrite iv 3) = true ∧ callFailed (.sinkWrite iv 4) = false ∧ callFailed (.randomBytes 4 none) = true := by
  decide

theorem witness_EncFrame :
    (machine (encOne [4]) decOne []).enc.Inv ∧ (∃ t, exec (.ewrite 9) (machine (encOne [4]) decOne []) = .next t) ∧
      (∃ t, exec .eclose (machine (encOne [4]) decOne []) = .next t) := ⟨encOne_inv _, ⟨_, rfl⟩, ⟨_, rfl⟩⟩

theorem witness_EncStreamLength : 1 ≤ 4 ∧ 4 ≤ 255 ∧ iv.length = 4 := by decide

theorem witness_SinkContentLaw :
    let s := machine (encFresh [4, 4, 4]) decOne (encryptEvents [[1, 2], [], [3, 4, 5]])
    s.enc.Fresh ∧ randomAnswers iv s.enc ∧ (∀ a ∈ ([[1, 2], [], [3, 4, 5]] : List (List Byte)), a.length < 2 ^ 24) ∧
      sinkAccepts (([[1, 2], [], [3, 4, 5]] : List (List Byte)).flatten.length / s.enc.blockSize + 2) s.enc ∧
      s.pending = encryptEvents [[1, 2], [], [3, 4, 5]] ++ [] :=
  ⟨encFresh_fresh _, encFresh_random _, by decide, ⟨[4, 4, 4], [], rfl, rfl, by decide⟩, by simp [machine]⟩

theorem witness_CleanEncryptionIsComplete :
    let s := machine (encFresh [4, 4, 4]) decOne (encryptEvents [[1, 2, 3, 4, 5]])
    s.enc.Fresh ∧ randomAnswers iv s.enc ∧ (∀ a ∈ ([[1, 2, 3, 4, 5]] : List (List Byte)), a.length < 2 ^ 24) ∧
      s.pending = encryptEvents [[1, 2, 3, 4, 5]] ++ [] ∧
      after (core.run 2 s) (fun t => cleanRun (t.rspLog.drop s.rspLog.length)) = some true :=
  ⟨encFresh_fresh _, encFresh_random _, by decide, by simp [machine], by decide⟩

theorem witness_EncCallOrder :
    let s := machine (encFresh [4, 4, 4]) decOne (encryptEvents [[1, 2, 3, 4, 5]])
    s.enc.Fresh ∧ randomAnswers iv s.enc ∧ ([1, 2, 3, 4, 5] : List Byte).length < 2 ^ 24 ∧
      sinkAccepts (([1, 2, 3, 4, 5] : List Byte).length / s.enc.blockSize + 2) s.enc ∧
      s.pending = encryptEvents [[1, 2, 3, 4, 5]] :=
  ⟨encFresh_fresh _, encFresh_random _, by decide, ⟨[4, 4, 4], [], rfl, rfl, by decide⟩, rfl⟩

theorem witness_DreadDelivers :
    decOne.Inv ∧ decOne.Tracks [0x61] ∧ decOne.dst ≠ .closed ∧ 2 ^ 24 - 1 < 2 ^ 24 :=
  ⟨decOne_inv, decOne_tracks, by decide, by decide⟩

/-- The whole tail, and `DREAD 0` with no tail pending (T-D12). -/
theorem witness_DreadServesPendingTail :
    decOne.Inv ∧ (decOne.dst = .streaming ∨ decOne.dst = .draining) ∧ 3 ≤ decOne.clen - decOne.cpos ∧ 3 < 2 ^ 24 ∧
      decBlockDone.Inv ∧ (decBlockDone.dst = .streaming ∨ decBlockDone.dst = .draining) ∧
      0 ≤ decBlockDone.clen - decBlockDone.cpos :=
  ⟨decOne_inv, .inl rfl, by decide, by decide, decBlockDone_inv, .inl rfl, by decide⟩

/-- The IV of `S5` consumed: block 1 is there and bytes follow it. -/
theorem witness_NextBlockInterior :
    let d := { decFresh .toyRotate s5 with dst := .streaming, dchain := iv, spos := 4 }
    d.Inv ∧ d.dst = .streaming ∧ d.cpos = d.clen ∧ (takeBlock d).1 = [0xc4, 0xc2, 0xc8, 0xc2] ∧
      (takeBlock d).1.length = d.blockSize ∧ (takeBlock d).2.spos < d.src.length := by
  refine ⟨⟨?_, ?_, ?_, ?_, ?_, ?_, ?_, ?_, ?_, ?_, ?_, ?_, ?_⟩, ?_, ?_, ?_, ?_, ?_⟩ <;> decide

/-- Block 2 of `S5` in `la`, the source at its end: it decrypts to `65 03 03 03`; another last byte is illegal. -/
theorem witness_NextBlockFinal :
    decBlockDone.Inv ∧ decBlockDone.dst = .streaming ∧ decBlockDone.cpos = decBlockDone.clen ∧
      (takeBlock decBlockDone).1 = [0xc2, 0xcc, 0xc2, 0xa2] ∧
      (takeBlock decBlockDone).1.length = decBlockDone.blockSize ∧
      (takeBlock decBlockDone).2.spos = decBlockDone.src.length ∧
      comb (cipherD decBlockDone.cipher decBlockDone.blockSize [0xc2, 0xcc, 0xc2, 0xa2]) decBlockDone.dchain =
        [0x65, 3, 3] ++ [3#8] ∧ (3#8).toNat ≤ decBlockDone.blockSize ∧ decBlockDone.blockSize < (5#8).toNat :=
  ⟨decBlockDone_inv, by decide, by decide, by decide, by decide, by decide, by decide, by decide, by decide⟩

theorem witness_DreadShortIv :
    (decFresh .toyRotate (iv.take 3)).Inv ∧ (decFresh .toyRotate (iv.take 3)).dst = .uninit ∧
      (decFresh .toyRotate (iv.take 3)).src.length - (decFresh .toyRotate (iv.take 3)).spos <
        (decFresh .toyRotate (iv.take 3)).blockSize := ⟨(decFresh_fresh _ _).inv, rfl, by decide⟩

theorem witness_DreadTerminalStates :
    (({ decBlockDone with dst := .drained } : DecUnit).dst = .drained ∧
      ({ decBlockDone with dst := .drained } : DecUnit).cpos = ({ decBlockDone with dst := .drained } : DecUnit).clen) ∧
      ({ decOne with dst := .failed } : DecUnit).dst = .failed ∧ ({ decOne with dst := .closed } : DecUnit).dst = .closed :=
  ⟨⟨rfl, rfl⟩, rfl, rfl⟩

theorem witness_DreadSplitIndependence :
    3 + 10 < 2 ^ 24 ∧ ∃ t u, exec (.dread 3) (machine (encOne []) decOne []) = .next t ∧ exec (.dread 10) t = .next u :=
  ⟨by decide, _, _, rfl, rfl⟩

theorem witness_DreadPassBound : readPasses 5 ≤ 12 := by decide

theorem witness_DcloseEffect :
    decOne.dst ≠ .closed ∧ ({ decOne with dst := .closed } : DecUnit).dst = .closed ∧
      (∃ t, exec .dclose (machine (encOne []) decOne []) = .next t) := ⟨by decide, rfl, _, rfl⟩

theorem witness_DecTransitions :
    (machine (encOne []) decOne []).dec.Inv ∧ (∃ t, exec (.dread 4) (machine (encOne []) decOne []) = .next t) ∧
      (∃ t, exec .dclose (machine (encOne []) decOne []) = .next t) := ⟨decOne_inv, ⟨_, rfl⟩, ⟨_, rfl⟩⟩

theorem witness_DecFrame :
    (machine (encOne []) decOne []).dec.Inv ∧ ∃ t, exec (.dread 4) (machine (encOne []) decOne []) = .next t :=
  ⟨decOne_inv, _, rfl⟩

theorem witness_SourceContentLaw :
    let s := machine (encOne []) (decFresh .toyRotate s5) (([3, 10] : List Nat).map (fun n => command (.dread n) []) ++ [])
    s.dec.Fresh ∧ (∀ n ∈ ([3, 10] : List Nat), n < 2 ^ 24) ∧
      s.pending = ([3, 10] : List Nat).map (fun n => command (.dread n) []) ++ [] := ⟨decFresh_fresh _ _, by decide, rfl⟩

theorem witness_DecCallOrder :
    let s := machine (encOne []) (decFresh .toyRotate s5) (decryptEvents [13])
    s.dec.Fresh ∧ s.dec.blockSize < s.dec.src.length ∧ s.dec.src.length % s.dec.blockSize = 0 ∧
      (decStream s.dec.cipher s.dec.blockSize s.dec.src).2 = .eos ∧ s.dec.src.length < 13 ∧ 13 < 2 ^ 24 ∧
      s.pending = decryptEvents [13] :=
  ⟨decFresh_fresh _ _, by decide, by decide, by decide, by decide, by decide, rfl⟩

theorem witness_RoundTrip : 1 ≤ 1 ∧ 1 ≤ 255 ∧ ([0x10] : List Byte).length = 1 ∧ 255 ≤ 255 ∧
    (List.replicate 255 (0 : Byte)).length = 255 :=
  ⟨by decide, by decide, rfl, by decide, List.length_replicate⟩

theorem witness_MachineRoundTrip :
    let s := machine (encFresh [4, 4, 4]) decOne []
    s.enc.Fresh ∧ randomAnswers iv s.enc ∧ sinkAccepts (([1, 2, 3, 4, 5] : List Byte).length / s.enc.blockSize + 2) s.enc ∧
      ([1, 2, 3, 4, 5] : List Byte).length + 2 * s.enc.blockSize < 14 ∧ 14 < 2 ^ 24 :=
  ⟨encFresh_fresh _, encFresh_random _, ⟨[4, 4, 4], [], rfl, rfl, by decide⟩, by decide, by decide⟩

theorem witness_StepKeepsInvariant :
    (machine (encOne [4]) decOne [command (.dread 9) []]).Inv ∧
      ∃ t, step (machine (encOne [4]) decOne [command (.dread 9) []]) = .next t :=
  ⟨machine_inv (encOne_inv _) decOne_inv, _, rfl⟩

theorem witness_UnitsCommute :
    ((∃ len, Instr.ewrite 3 = .ewrite len) ∨ Instr.ewrite 3 = .eclose) ∧
      ((∃ len, Instr.dclose = .dread len) ∨ Instr.dclose = .dclose) := ⟨.inl ⟨3, rfl⟩, .inr rfl⟩

/-- Two machines that differ in the bytes of `ebuf` above `elen` and in the used-up bytes of `cur`. -/
theorem witness_UnwrittenBytesAreNeverRead :
    let s := machine (encOne [4]) decOne [command .eclose []]
    let s' := machine { encOne [4] with ebuf := [0x61, 7, 8, 9] } { decOne with cur := [9, 0x62, 0x63, 0x64] }
      [command .eclose []]
    s.Inv ∧ s'.Inv ∧ s.enc.Agree s'.enc ∧ s.dec.Agree s'.dec ∧ s.pending = s'.pending ∧ s.wdata = s'.wdata ∧
      s.rspLog = s'.rspLog ∧ s ≠ s' ∧ ∃ t, step s = .next t := by
  refine ⟨machine_inv (encOne_inv _) decOne_inv, machine_inv ?_ ?_, ⟨rfl, fun _ => by decide, fun _ => rfl⟩,
    ⟨rfl, fun _ => by decide, fun _ _ => rfl, fun _ => rfl⟩, rfl, rfl, rfl, by decide, _, rfl⟩
  · refine ⟨?_, ?_, ?_, ?_, ?_, ?_⟩ <;> decide
  · refine ⟨?_, ?_, ?_, ?_, ?_, ?_, ?_, ?_, ?_, ?_, ?_, ?_, ?_⟩ <;> decide

/-- A truncated stream and one with bad padding (T-D6, T-D7). -/
theorem witness_FailureCauseIsInvisible :
    let cmds : List (Word × List Byte) := [(0x20000001#32, []), (0x21000000#32, [])]
    let s := machine (encOne []) { decOne with dst := .failed } (cmds.map fun c => .command c.1 c.2)
    let s' := machine (encOne []) { decFresh .toyIdentity s5 with dst := .failed } (cmds.map fun c => .command c.1 c.2)
    s.dec.dst = .failed ∧ s'.dec.dst = .failed ∧ s.enc = s'.enc ∧ s.rspLog = s'.rspLog ∧ s.wdata = s'.wdata ∧
      s.pending = cmds.map (fun c => .command c.1 c.2) ∧ s'.pending = s.pending ∧ ∃ t, core.run cmds.length s = .next t :=
  ⟨rfl, rfl, rfl, rfl, rfl, rfl, rfl, _, rfl⟩

theorem witness_TerminalStates :
    (∃ t, exec .eclose (machine { encOne [] with est := .failed } { decOne with dst := .closed } []) = .next t) ∧
      (∃ t, exec (.dread 1) (machine { encOne [] with est := .closed } { decOne with dst := .failed } []) = .next t) :=
  ⟨⟨_, rfl⟩, ⟨_, rfl⟩⟩

theorem witness_InvalidMeansNoEffect :
    let s := machine { encOne [] with est := .closed } decOne [ewriteOf [1]]
    s.pending = .command (encode (.ewrite 1)) [1] :: [] ∧
      after (step s) (fun t => (t.rspLog : List Response)) = some (s.rspLog ++ [{ word := 0xF0000000#32, data := [] }]) :=
  ⟨rfl, by decide⟩

end Sys2Proof.Tests
end

section
/-! PROOFS. What a step runs and when it stops (00_scope.md R6, R8; 60_exceptions.md R235). -/

namespace Sys2Proof.Machine

/-! ## Commands -/

/-- A word that decodes runs its command on the payload (R83). -/
theorem runCommand_of_decode {w : Word} {i : Instr} (h : decode w = .ok i) (bytes : List Byte) (s : State) :
    runCommand w bytes s = exec i { s with wdata := bytes } := by simp only [runCommand, h]

/-- A reserved word answers `INVALID` and nothing else (R88). -/
theorem runCommand_of_reserved {w : Word} {r : Reserved} (h : decode w = .error r) (bytes : List Byte) (s : State) :
    runCommand w bytes s = .next (post invalidReply s) := by simp only [runCommand, h, execReserved]

/-- No command word, reserved or not, stops the machine. -/
theorem runCommand_next (w : Word) (bytes : List Byte) (s : State) : ∃ t, runCommand w bytes s = .next t := by
  cases h : decode w with
  | error r => exact ⟨_, runCommand_of_reserved h bytes s⟩
  | ok i =>
    rw [runCommand_of_decode h]
    exact exec_next i _

/-! ## Reset events -/

theorem legalBlockSize_iff (n : Nat) : legalBlockSize n = true ↔ 1 ≤ n ∧ n ≤ 255 := decide_eq_true_iff

/-- `RESET ENC` with a legal binding: the unit is bound, then reset (R262). -/
theorem execResetEnc_of_legal {c : EncBinding} (h : legalBlockSize c.blockSize = true) (s : State) :
    execResetEnc (some c) s = .next { s with enc := resetEnc (bindEnc c s.enc) } := if_pos h

theorem execResetEnc_of_not_legal {c : EncBinding} (h : ¬ legalBlockSize c.blockSize = true) (s : State) :
    execResetEnc (some c) s = .fault .illegalBlockSize := if_neg h

theorem execResetEnc_ne_refused (b : Option EncBinding) (s : State) (r : Refusal) : execResetEnc b s ≠ .refused r := by
  cases b with
  | none => simp [execResetEnc]
  | some c =>
    by_cases hl : legalBlockSize c.blockSize = true
    · simp [execResetEnc_of_legal hl]
    · simp [execResetEnc_of_not_legal hl]

/-- `RESET ENC` faults exactly on a new binding whose block size is out of range (log 2). -/
theorem execResetEnc_fault_iff (b : Option EncBinding) (s : State) :
    (∃ f, execResetEnc b s = .fault f) ↔ ∃ c, b = some c ∧ ¬ (1 ≤ c.blockSize ∧ c.blockSize ≤ 255) := by
  cases b with
  | none => simp [execResetEnc]
  | some c =>
    by_cases hl : legalBlockSize c.blockSize = true
    · simp [execResetEnc_of_legal hl, (legalBlockSize_iff _).mp hl]
    · exact iff_of_true ⟨_, execResetEnc_of_not_legal hl s⟩ ⟨c, rfl, mt (legalBlockSize_iff _).mpr hl⟩

/-- `RESET DEC` with a legal binding: the unit is bound, then reset (R262). -/
theorem execResetDec_of_legal {c : DecBinding} (h : legalBlockSize c.blockSize = true) (s : State) :
    execResetDec (some c) s = .next { s with dec := resetDec (bindDec c s.dec) } := if_pos h

theorem execResetDec_of_not_legal {c : DecBinding} (h : ¬ legalBlockSize c.blockSize = true) (s : State) :
    execResetDec (some c) s = .fault .illegalBlockSize := if_neg h

theorem execResetDec_ne_refused (b : Option DecBinding) (s : State) (r : Refusal) : execResetDec b s ≠ .refused r := by
  cases b with
  | none => simp [execResetDec]
  | some c =>
    by_cases hl : legalBlockSize c.blockSize = true
    · simp [execResetDec_of_legal hl]
    · simp [execResetDec_of_not_legal hl]

/-- `RESET DEC` faults exactly on a new binding whose block size is out of range (log 2). -/
theorem execResetDec_fault_iff (b : Option DecBinding) (s : State) :
    (∃ f, execResetDec b s = .fault f) ↔ ∃ c, b = some c ∧ ¬ (1 ≤ c.blockSize ∧ c.blockSize ≤ 255) := by
  cases b with
  | none => simp [execResetDec]
  | some c =>
    by_cases hl : legalBlockSize c.blockSize = true
    · simp [execResetDec_of_legal hl, (legalBlockSize_iff _).mp hl]
    · exact iff_of_true ⟨_, execResetDec_of_not_legal hl s⟩ ⟨c, rfl, mt (legalBlockSize_iff _).mpr hl⟩

/-! ## The step -/

/-- With nothing presented the units wait (R42, R235). -/
theorem step_idle {s : State} (h : s.pending = []) : step s = .next s := by simp only [step, takeEvent, h]

theorem step_ne_refused (s : State) (r : Refusal) : step s ≠ .refused r := by
  obtain ⟨-, hs⟩ | ⟨w, bytes, rest, -, hs⟩ | ⟨b, rest, -, hs⟩ | ⟨b, rest, -, hs⟩ := step_cases s <;> rw [hs]
  · simp
  · obtain ⟨t, ht⟩ := runCommand_next w bytes { s with pending := rest }
    simp [ht]
  · exact execResetEnc_ne_refused b _ r
  · exact execResetDec_ne_refused b _ r

/-- Only a reset event with an illegal binding faults; idling and commands do not. -/
theorem step_fault_iff (s : State) :
    (∃ f, step s = .fault f) ↔
      ∃ rest, (∃ b : EncBinding, s.pending = .resetEnc (some b) :: rest ∧ ¬ (1 ≤ b.blockSize ∧ b.blockSize ≤ 255)) ∨
        (∃ b : DecBinding, s.pending = .resetDec (some b) :: rest ∧ ¬ (1 ≤ b.blockSize ∧ b.blockSize ≤ 255)) := by
  obtain ⟨hp, hs⟩ | ⟨w, bytes, rest, hp, hs⟩ | ⟨b, rest, hp, hs⟩ | ⟨b, rest, hp, hs⟩ := step_cases s <;> rw [hs]
  · simp [hp]
  · obtain ⟨t, ht⟩ := runCommand_next w bytes { s with pending := rest }
    simp [hp, ht]
  · rw [execResetEnc_fault_iff]
    simp [hp]
  · rw [execResetDec_fault_iff]
    simp [hp]

/-! ## The obligations -/

/-- Settles O6: the step hands the word to `runCommand`, which runs what it decodes to. -/
theorem stepRunsDecodedCommand : Obligations.StepRunsDecodedCommand := by
  unfold Obligations.StepRunsDecodedCommand
  intro s w bytes rest i hp hd
  rw [step_command hp, runCommand_of_decode hd]

/-- Settles O9, by cases on the next event: no command stops the machine, so only an illegal binding does. -/
theorem onlyIllegalBindingStops : Obligations.OnlyIllegalBindingStops := by
  unfold Obligations.OnlyIllegalBindingStops
  exact fun s => ⟨step_ne_refused s, step_idle, step_fault_iff s⟩

end Sys2Proof.Machine
end

section
/-! PROOFS. The state: what every step keeps, what a reset hands over, the frames of the commands, and the register
bytes that hold no value (10_state.md R20 to R43, 20_memory.md R50 to R60, 70_reset_and_hazards.md R260 to R262). -/

namespace Sys2Proof.Machine

/-! ## Commands act on one unit (R20) -/

theorem exec_ewrite (len : Nat) (s : State) :
    exec (.ewrite len) s = .next (finishEnc (encWrite len s.wdata s.enc) s) := rfl

theorem exec_eclose (s : State) : exec .eclose s = .next (finishEnc (encClose s.enc) s) := rfl

theorem exec_dread (len : Nat) (s : State) : exec (.dread len) s = .next (finishDec (decRead len s.dec) s) := rfl

theorem exec_dclose (s : State) : exec .dclose s = .next (finishDec (decClose s.dec) s) := rfl

/-- A command of ENC is a function of ENC and the payload alone (R20). -/
theorem exec_encCommand {i : Instr} (hi : (∃ len, i = .ewrite len) ∨ i = .eclose) :
    ∃ f : List Byte → EncUnit → EncUnit × Reply, ∀ s, exec i s = .next (finishEnc (f s.wdata s.enc) s) := by
  obtain ⟨len, rfl⟩ | rfl := hi
  · exact ⟨encWrite len, exec_ewrite len⟩
  · exact ⟨fun _ => encClose, exec_eclose⟩

/-- A command of DEC is a function of DEC alone (R20). -/
theorem exec_decCommand {j : Instr} (hj : (∃ len, j = .dread len) ∨ j = .dclose) :
    ∃ g : DecUnit → DecUnit × Reply, ∀ s, exec j s = .next (finishDec (g s.dec) s) := by
  obtain ⟨len, rfl⟩ | rfl := hj
  · exact ⟨decRead len, exec_dread len⟩
  · exact ⟨decClose, exec_dclose⟩

/-! ## A step runs one event (00_scope.md R8) -/

/-- With an event presented, the step runs it. -/
theorem step_cons {s : State} {ev : HostEvent} {rest : List HostEvent} (h : s.pending = ev :: rest) :
    step s = runEvent ev { s with pending := rest } := by simp only [step, takeEvent, h]

/-! ## Every step keeps the invariant (R25, R35) -/

/-- The invariant does not speak of what the host has presented. -/
theorem State.Inv.withPending {s : State} (h : s.Inv) (rest : List HostEvent) : State.Inv { s with pending := rest } :=
  ⟨h.enc, h.dec, h.noPayload⟩

/-- A command word, reserved or not, keeps the invariant of both units and leaves no payload. -/
theorem runCommand_inv {w : Word} {bytes : List Byte} {s t : State} (he : s.enc.Inv) (hd : s.dec.Inv)
    (h : runCommand w bytes s = .next t) : t.Inv := by
  cases hw : decode w with
  | error r =>
    rw [runCommand_of_reserved hw] at h
    cases h
    exact ⟨he, hd, rfl⟩
  | ok i =>
    rw [runCommand_of_decode hw] at h
    exact exec_inv (s := { s with wdata := bytes }) he hd h

/-- A reset of ENC meets the invariant with the block size the unit had or with the legal one it is bound to. -/
theorem execResetEnc_inv {b : Option EncBinding} {s t : State} (hs : s.Inv) (h : execResetEnc b s = .next t) :
    t.Inv := by
  obtain ⟨-, rfl⟩ | ⟨c, -, hc, rfl⟩ := execResetEnc_cases h
  · exact ⟨resetEnc_inv hs.enc.legal, hs.dec, hs.noPayload⟩
  · exact ⟨resetEnc_inv hc, hs.dec, hs.noPayload⟩

/-- A reset of DEC leaves the source position in range: it stays, or a new source starts at its first byte. -/
theorem execResetDec_inv {b : Option DecBinding} {s t : State} (hs : s.Inv) (h : execResetDec b s = .next t) :
    t.Inv := by
  obtain ⟨-, rfl⟩ | ⟨c, -, hc, rfl⟩ := execResetDec_cases h
  · exact ⟨hs.enc, resetDec_inv hs.dec.legal hs.dec.position, hs.noPayload⟩
  · exact ⟨hs.enc, resetDec_inv hc (Nat.zero_le _), hs.noPayload⟩

/-- Every event keeps the invariant. -/
theorem runEvent_inv {ev : HostEvent} {s t : State} (hs : s.Inv) (h : runEvent ev s = .next t) : t.Inv := by
  cases ev with
  | command w bytes => exact runCommand_inv hs.enc hs.dec h
  | resetEnc b => exact execResetEnc_inv hs h
  | resetDec b => exact execResetDec_inv hs h

/-! ## Reset meets the invariant (R42) -/

theorem encReset_inv : EncUnit.reset.Inv where
  legal := rfl
  ebufLength := rfl
  echainLength := rfl
  fill := Nat.zero_le _
  uninitEmpty := fun _ => rfl
  streamingRoom := nofun

theorem decReset_inv : DecUnit.reset.Inv where
  legal := rfl
  curLength := rfl
  laLength := rfl
  dchainLength := rfl
  tail := Nat.le_refl _
  held := Nat.zero_le _
  ahead := Nat.zero_le _
  position := Nat.le_refl _
  uninit := fun _ => ⟨rfl, rfl, rfl⟩
  streaming := nofun
  shortAhead := nofun
  draining := nofun
  drained := nofun

/-! ## Register bytes that hold no value (R41, R261) -/

/-- Two machines that differ at most in register bytes that hold no value. -/
structure State.Agree (s s' : State) : Prop where
  enc : s.enc.Agree s'.enc
  dec : s.dec.Agree s'.dec
  pending : s.pending = s'.pending
  wdata : s.wdata = s'.wdata
  rspLog : s.rspLog = s'.rspLog

theorem State.Agree.withPending {s s' : State} (h : s.Agree s') (rest : List HostEvent) :
    State.Agree { s with pending := rest } { s' with pending := rest } := ⟨h.enc, h.dec, rfl, h.wdata, h.rspLog⟩

theorem State.Agree.withPayload {s s' : State} (h : s.Agree s') (bytes : List Byte) :
    State.Agree { s with wdata := bytes } { s' with wdata := bytes } := ⟨h.enc, h.dec, h.pending, rfl, h.rspLog⟩

theorem post_agree {s s' : State} (h : s.Agree s') (r : Reply) : (post r s).Agree (post r s') :=
  ⟨h.enc, h.dec, h.pending, rfl, by simp [h.rspLog]⟩

/-- Agreeing ENC results with equal replies end a command in agreement. -/
theorem finishEnc_agree {s s' : State} {r r' : EncUnit × Reply} (h : s.Agree s')
    (hr : r.2 = r'.2 ∧ r.1.Agree r'.1) : (finishEnc r s).Agree (finishEnc r' s') :=
  ⟨hr.2, h.dec, h.pending, rfl, by simp [h.rspLog, hr.1]⟩

/-- Agreeing DEC results with equal replies end a command in agreement. -/
theorem finishDec_agree {s s' : State} {r r' : DecUnit × Reply} (h : s.Agree s')
    (hr : r.2 = r'.2 ∧ r.1.Agree r'.1) : (finishDec r s).Agree (finishDec r' s') :=
  ⟨h.enc, hr.2, h.pending, rfl, by simp [h.rspLog, hr.1]⟩

/-- A reset draws `ebuf` and `echain` anew, from a counter on which agreeing units agree: nothing differs any more. -/
theorem resetEnc_eq_of_agree {e f : EncUnit} (h : e.Agree f) : resetEnc e = resetEnc f := by
  rw [encAgree_eq h]
  rfl

/-- The same of `cur`, `la` and `dchain`. -/
theorem resetDec_eq_of_agree {d f : DecUnit} (h : d.Agree f) : resetDec d = resetDec f := by
  rw [decAgree_eq h]
  rfl

/-- A binding gives both units the same environment and writes no register. -/
theorem bindEnc_agree {e f : EncUnit} (h : e.Agree f) (b : EncBinding) : (bindEnc b e).Agree (bindEnc b f) :=
  ⟨congrArg (bindEnc b) h.others, h.residue, h.chain⟩

theorem bindDec_agree {d f : DecUnit} (h : d.Agree f) (b : DecBinding) : (bindDec b d).Agree (bindDec b f) :=
  ⟨congrArg (bindDec b) h.others, h.tail, h.ahead, h.chain⟩

section Simulation

variable {s s' t : State}

/-- No command reads a register byte that holds no value (R41). The invariant is asked of the units only: a payload
stands on WDATA while a command runs. -/
theorem exec_agree {i : Instr} (hs : s.enc.Inv ∧ s.dec.Inv) (hs' : s'.enc.Inv ∧ s'.dec.Inv) (h : s.Agree s')
    (ht : exec i s = .next t) : ∃ t', exec i s' = .next t' ∧ t.Agree t' := by
  cases i with
  | ewrite len =>
    cases ht
    refine ⟨_, exec_ewrite len s', finishEnc_agree h ?_⟩
    rw [← h.wdata]
    exact encWrite_agree hs.1 hs'.1 h.enc
  | eclose => cases ht; exact ⟨_, exec_eclose s', finishEnc_agree h (encClose_agree h.enc)⟩
  | dread len => cases ht; exact ⟨_, exec_dread len s', finishDec_agree h (decRead_agree hs.2 hs'.2 h.dec)⟩
  | dclose => cases ht; exact ⟨_, exec_dclose s', finishDec_agree h (decClose_agree h.dec)⟩

theorem runCommand_agree {w : Word} {bytes : List Byte} (hs : s.enc.Inv ∧ s.dec.Inv) (hs' : s'.enc.Inv ∧ s'.dec.Inv)
    (h : s.Agree s') (ht : runCommand w bytes s = .next t) : ∃ t', runCommand w bytes s' = .next t' ∧ t.Agree t' := by
  cases hw : decode w with
  | error r =>
    rw [runCommand_of_reserved hw] at ht ⊢
    cases ht
    exact ⟨_, rfl, post_agree h _⟩
  | ok i =>
    rw [runCommand_of_decode hw] at ht ⊢
    exact exec_agree (s := { s with wdata := bytes }) (s' := { s' with wdata := bytes }) hs hs' (h.withPayload bytes) ht

theorem execResetEnc_agree {b : Option EncBinding} (h : s.Agree s') (ht : execResetEnc b s = .next t) :
    ∃ t', execResetEnc b s' = .next t' ∧ t.Agree t' := by
  obtain ⟨rfl, rfl⟩ | ⟨c, rfl, hc, rfl⟩ := execResetEnc_cases ht
  · exact ⟨_, rfl, resetEnc_eq_of_agree h.enc ▸ encAgree_refl _, h.dec, h.pending, h.wdata, h.rspLog⟩
  · exact ⟨_, execResetEnc_of_legal hc s', resetEnc_eq_of_agree (bindEnc_agree h.enc c) ▸ encAgree_refl _, h.dec,
      h.pending, h.wdata, h.rspLog⟩

theorem execResetDec_agree {b : Option DecBinding} (h : s.Agree s') (ht : execResetDec b s = .next t) :
    ∃ t', execResetDec b s' = .next t' ∧ t.Agree t' := by
  obtain ⟨rfl, rfl⟩ | ⟨c, rfl, hc, rfl⟩ := execResetDec_cases ht
  · exact ⟨_, rfl, h.enc, resetDec_eq_of_agree h.dec ▸ decAgree_refl _, h.pending, h.wdata, h.rspLog⟩
  · exact ⟨_, execResetDec_of_legal hc s', h.enc, resetDec_eq_of_agree (bindDec_agree h.dec c) ▸ decAgree_refl _,
      h.pending, h.wdata, h.rspLog⟩

/-- One event keeps two agreeing machines in agreement, and gives the same response. -/
theorem runEvent_agree {ev : HostEvent} (hs : s.Inv) (hs' : s'.Inv) (h : s.Agree s')
    (ht : runEvent ev s = .next t) : ∃ t', runEvent ev s' = .next t' ∧ t.Agree t' := by
  cases ev with
  | command w bytes => exact runCommand_agree ⟨hs.enc, hs.dec⟩ ⟨hs'.enc, hs'.dec⟩ h ht
  | resetEnc b => exact execResetEnc_agree h ht
  | resetDec b => exact execResetDec_agree h ht

theorem step_agree (hs : s.Inv) (hs' : s'.Inv) (h : s.Agree s') (ht : step s = .next t) :
    ∃ t', step s' = .next t' ∧ t.Agree t' := by
  cases hp : s.pending with
  | nil =>
    rw [step_idle hp] at ht
    cases ht
    exact ⟨s', step_idle (h.pending ▸ hp), h⟩
  | cons ev rest =>
    have hp' : s'.pending = ev :: rest := h.pending ▸ hp
    rw [step_cons hp] at ht
    rw [step_cons hp']
    exact runEvent_agree (hs.withPending rest) (hs'.withPending rest) (h.withPending rest) ht

end Simulation

/-! ## A fresh unit (R262) -/

theorem resetEnc_bindEnc_fresh {b : EncBinding} (h : legalBlockSize b.blockSize = true) (e : EncUnit) :
    (resetEnc (bindEnc b e)).Fresh := ⟨resetEnc_inv h, rfl, rfl, rfl⟩

theorem resetDec_bindDec_fresh {b : DecBinding} (h : legalBlockSize b.blockSize = true) (d : DecUnit) :
    (resetDec (bindDec b d)).Fresh := ⟨resetDec_inv h (Nat.zero_le _), rfl, rfl, rfl⟩

/-! ## Old sink bytes stay (20_memory.md R51, R60) -/

/-- The sink only grows, so no byte below the old `kpos` changes. -/
theorem EncExt.byteAt_below {new : List Call} {e f : EncUnit} (h : EncExt new e f) {a : Nat} (ha : a < kpos e) :
    byteAt f.snk a = byteAt e.snk a := by
  rw [h.snk]
  exact List.getElem?_append_left ha

/-! ## The obligations -/

/-- Settles O55, by cases on the queue: the step idles or runs one event. -/
theorem stepKeepsInvariant : Obligations.StepKeepsInvariant := by
  unfold Obligations.StepKeepsInvariant
  intro s t hs h
  cases hp : s.pending with
  | nil =>
    rw [step_idle hp] at h
    cases h
    exact hs
  | cons ev rest =>
    rw [step_cons hp] at h
    exact runEvent_inv (hs.withPending rest) h

/-- Settles O57: `State.Agree` is kept by every event, a simulation with equal responses. -/
theorem unwrittenBytesAreNeverRead : Obligations.UnwrittenBytesAreNeverRead := by
  unfold Obligations.UnwrittenBytesAreNeverRead
  intro s s' t hs hs' henc hdec hpending hwdata hlog ht
  obtain ⟨t', ht', h⟩ := step_agree hs hs' ⟨henc, hdec, hpending, hwdata, hlog⟩ ht
  exact ⟨t', ht', h.enc, h.dec, h.pending, h.wdata, h.rspLog⟩

/-- Settles O12: the unit is bound first and then reset, so the reset state has the bound block size. -/
theorem boundResetIsFresh : Obligations.BoundResetIsFresh := by
  unfold Obligations.BoundResetIsFresh
  constructor
  · intro s rest b hp h1 h255
    have hb := (legalBlockSize_iff _).mpr ⟨h1, h255⟩
    refine ⟨_, (step_cons hp).trans (execResetEnc_of_legal hb _), resetEnc_bindEnc_fresh hb _, ?_⟩
    simp
  · intro s rest b hp h1 h255
    have hb := (legalBlockSize_iff _).mpr ⟨h1, h255⟩
    refine ⟨_, (step_cons hp).trans (execResetDec_of_legal hb _), resetDec_bindDec_fresh hb _, ?_⟩
    simp

/-- Settles O18: `EWRITE` while streaming is the payload loop, whose law over accepted blocks is `writeLoop_ok`. -/
theorem ewriteStreams : Obligations.EwriteStreams := by
  unfold Obligations.EwriteStreams
  rintro s iv p len hinv htracks rfl - hacc
  obtain ⟨f, hloop, finv, ftracks, faccept, frng, fbs, fcipher, fclosed⟩ :=
    writeLoop_ok s.wdata 0 s.enc hinv htracks hacc
  have hrun : encWrite s.wdata.length s.wdata s.enc = (f, okReply s.wdata.length) := by
    rw [encWrite_streaming htracks.streaming, hloop, Nat.zero_add]
  refine ⟨_, exec_ewrite _ s, ?_⟩
  rw [hrun]
  exact ⟨finv, ftracks, rfl, faccept, frng, fbs, fcipher, fclosed, rfl, rfl, rfl⟩

/-- Settles O34: the calls a command of ENC adds say what it did to the sink (`EncExt`). -/
theorem encFrame : Obligations.EncFrame := by
  unfold Obligations.EncFrame
  intro s t i hinv hi ht
  obtain ⟨len, rfl⟩ | rfl := hi
  · cases ht
    obtain ⟨new, hx, hopen, hflush, hrng, hclosed⟩ := encWrite_ext len s.wdata s.enc hinv
    exact ⟨rfl, rfl, rfl, hx.bs, hx.ci, ⟨new, hx.calls, hx.snk, hx.ok, fun hu c hc => (hflush hu c hc).1,
      fun _ => hopen⟩, fun _ => hx.byteAt_below, hrng, fun _ => hclosed⟩
  · cases ht
    obtain ⟨new, hx, hrandom, hrng⟩ := encClose_ext s.enc hinv
    exact ⟨rfl, rfl, rfl, hx.bs, hx.ci, ⟨new, hx.calls, hx.snk, hx.ok, hrandom, nofun⟩, fun _ => hx.byteAt_below,
      hrng, nofun⟩

/-- Settles O39, from what `DREAD` keeps of the invariant and of what the stream has delivered, and the three ways it
ends. -/
theorem dreadDelivers : Obligations.DreadDelivers := by
  unfold Obligations.DreadDelivers
  intro s out len hinv htracks hopen _
  obtain ⟨hlen, hend⟩ := decRead_outcome (len := len) hinv hopen
  refine ⟨_, (decRead len s.dec).2.status, (decRead len s.dec).2.data, exec_dread len s, ?_,
    (decRead_inv len s.dec hinv).1, decRead_tracks hinv htracks hopen, hlen, hend, rfl, rfl, rfl⟩
  rw [finishDec_rspLog, response_dec]

/-- Settles O49: the calls `DREAD` adds say which bytes it took from the source (`DecExt`). -/
theorem decFrame : Obligations.DecFrame := by
  unfold Obligations.DecFrame
  intro s t len hinv ht
  cases ht
  obtain ⟨-, new, hx⟩ := decRead_inv len s.dec hinv
  exact ⟨rfl, rfl, rfl, hx.bs, hx.ci, hx.src, hx.sc, hx.dr, new, hx.calls, hx.spos, hx.bytes, hx.ok⟩

/-- Settles O10, from the reset values of the registers. -/
theorem resetValues : Obligations.ResetValues := by
  unfold Obligations.ResetValues
  decide

/-- Settles O54: both units meet it, and no payload stands on WDATA. -/
theorem resetMeetsInvariant : Obligations.ResetMeetsInvariant := by
  unfold Obligations.ResetMeetsInvariant
  exact ⟨encReset_inv, decReset_inv, rfl⟩

/-- Settles O56: each command is a function of its own unit, which the other leaves alone. -/
theorem unitsCommute : Obligations.UnitsCommute := by
  unfold Obligations.UnitsCommute
  intro s i j bytes hi hj
  obtain ⟨f, hf⟩ := exec_encCommand hi
  obtain ⟨g, hg⟩ := exec_decCommand hj
  refine ⟨_, _, _, _, response (f bytes s.enc).2, response (g s.dec).2, hf _, hg _, hg _, hf _, rfl, rfl, ?_, ?_⟩
  · simp
  · simp

end Sys2Proof.Machine
end

section
/-! PROOFS. The byte streams: what the units do at their ends and what passes between them (20_memory.md R54 to R66,
41_stream_encryptor.md R131 to R136, 42_stream_decryptor.md R161 to R167, 43_collaborator_primitives.md R212). -/

namespace Sys2Proof.Machine

/-! ## Events the host presents, from command words -/

/-- A command is read back from its own word (R88). -/
theorem decode_encode_of_wellFormed {i : Instr} (h : i.wellFormed = true) : decode (encode i) = .ok i := by
  cases i with
  | ewrite n =>
    obtain ⟨hop, hlen⟩ := Laws.EncodeFields.ewrite n h
    simp [decode, hop, hlen, Laws.EncodeFields.opcode, Laws.EncodeFields.len, opEwrite]
  | eclose => rfl
  | dread n =>
    obtain ⟨hop, hlen⟩ := Laws.EncodeFields.dread n h
    simp [decode, hop, hlen, Laws.EncodeFields.opcode, Laws.EncodeFields.len, opEwrite, opEclose, opDread]
  | dclose => rfl

/-- The step takes a presented command with its payload and executes it. -/
theorem step_presented {i : Instr} (hi : i.wellFormed = true) {s : State} {bytes : List Byte} {rest : List HostEvent}
    (h : s.pending = command i bytes :: rest) : step s = exec i { s with pending := rest, wdata := bytes } := by
  rw [step_command h, runCommand_of_decode (decode_encode_of_wellFormed hi)]

/-- Two steps are a run of two steps. -/
theorem run_two {s t u : State} (h : step s = .next t) (k : step t = .next u) : core.run 2 s = .next u :=
  (run_succ 1 s t h).trans (run_succ 0 t u k)

/-- `ENCRYPT p` in one chunk runs `EWRITE` and then `ECLOSE` on ENC (R97). -/
theorem run_encryptEvents_one {s : State} {p : List Byte} (hp : p.length < 2 ^ 24)
    (h : s.pending = encryptEvents [p]) :
    ∃ t, core.run 2 s = .next t ∧ t.enc = (encClose (encWrite p.length p s.enc).1).1 :=
  ⟨_, run_two (step_presented (i := .ewrite p.length) (lenOk_iff.2 hp) h) (step_presented (i := .eclose) rfl rfl), rfl⟩

/-- A bound reset of DEC and a `DREAD`: the read runs on the unit as the platform hands it over (R262). -/
theorem run_resetDec_dread {s : State} {b : DecBinding} {n : Nat} (hb : legalBlockSize b.blockSize = true)
    (hn : n < 2 ^ 24) (h : s.pending = [.resetDec (some b), command (.dread n) []]) :
    ∃ u, core.run 2 s = .next u ∧
      u.rspLog = s.rspLog ++ [response (decRead n (resetDec (bindDec b s.dec))).2] :=
  ⟨_, run_two ((step_cons h).trans (execResetDec_of_legal hb _))
    (step_presented (i := .dread n) (lenOk_iff.2 hn) rfl), rfl⟩

/-! ## A whole stream on ENC (R131 to R135, R212) -/

/-- The first `EWRITE` of a fresh unit when no collaborator fails: the IV step, then the payload. -/
theorem encWrite_fresh {e : EncUnit} {iv p : List Byte} {k : Nat} (hf : e.Fresh) (hr : randomAnswers iv e)
    (ha : sinkAccepts (1 + (p.length / e.blockSize + k)) e) :
    ∃ f, encWrite p.length p e = (f, okReply p.length) ∧ f.Inv ∧ f.Tracks iv p ∧ sinkAccepts k f ∧
      f.blockSize = e.blockSize ∧ f.cipher = e.cipher ∧
      CallTracks (e.calls ++ [.randomBytes e.blockSize (some iv), .sinkWrite iv e.blockSize, .cbcInit iv]) iv p f := by
  obtain ⟨g, hinit, ginv, gtracks, -, -, gbs, gcipher, -, gacc, gcalls⟩ := encInit_fresh hf hr ha
  have hblocks : (([] : List Byte).length % g.blockSize + p.length) / g.blockSize = p.length / e.blockSize := by
    simp [gbs]
  have hpayload : sinkAccepts (p.length / e.blockSize) g :=
    (sinkAccepts_split (f := { g with accept := g.accept.drop _ }) gacc rfl rfl).1
  obtain ⟨f, hloop, finv, ftracks, facc, -, fbs, fcipher, -⟩ :=
    writeLoop_ok p 0 g ginv gtracks (hblocks ▸ hpayload)
  have hstart : CallTracks (e.calls ++ [.randomBytes e.blockSize (some iv), .sinkWrite iv e.blockSize, .cbcInit iv])
      iv [] g := by
    rw [CallTracks, gcalls, fullBlocks_of_lt ginv.pos, blockCalls, List.append_nil]
  have hcalls := writeLoop_callTracks p 0 g ginv gtracks hstart (by rw [hloop]; rfl)
  rw [hloop, List.nil_append] at hcalls
  refine ⟨f, ?_, finv, ftracks, (sinkAccepts_split gacc (hblocks ▸ facc) fbs).2, fbs.trans gbs, fcipher.trans gcipher,
    hcalls⟩
  rw [encWrite_uninit hf.uninit, hinit, if_pos rfl, writePayload_of_length rfl, hloop, Nat.zero_add]

/-- The padded message is the full blocks of the payload and the padded residue (R118, R133). -/
theorem fullBlocks_padMessage {iv p : List Byte} {e : EncUnit} (h : e.Inv) (ht : e.Tracks iv p) :
    fullBlocks e.blockSize (padMessage e.blockSize p) =
      fullBlocks e.blockSize p ++ [(padAdd e.blockSize e.ebuf e.elen).1] := by
  obtain ⟨hpad, hlast⟩ := padAdd_tracks h ht
  have hfull : (p.take (e.blockSize * (p.length / e.blockSize))).length = e.blockSize * (p.length / e.blockSize) :=
    List.length_take_of_le (Nat.mul_div_le _ _)
  rw [hpad, fullBlocks_append h.pos ⟨_, hfull⟩, fullBlocks_take p h.pos, fullBlocks_of_eq h.pos hlast]

/-- The sink's next answer, when it accepts a block. -/
theorem nextAccept_of_sinkAccepts {e : EncUnit} (ha : sinkAccepts 1 e) : nextAccept e.blockSize e = e.blockSize := by
  obtain ⟨ok, rest, hacc, hlen, hall⟩ := ha
  obtain ⟨a, rfl⟩ := List.length_eq_one_iff.1 hlen
  rw [nextAccept_scheduled hacc, Nat.min_eq_right (hall a (List.mem_singleton_self a))]

/-- `ECLOSE` while streaming adds the calls of the padded final block and the close (R133, R212). -/
theorem encFinish_calls_of_callTracks {c0 : List Call} {iv p : List Byte} {e : EncUnit} (h : e.Inv)
    (ht : e.Tracks iv p) (hc : CallTracks c0 iv p e) (ha : sinkAccepts 1 e) :
    (encFinish e).1.calls =
      c0 ++ blockCalls e.cipher e.blockSize iv (fullBlocks e.blockSize (padMessage e.blockSize p)) ++ [.sinkClose] := by
  rw [CallTracks] at hc
  rw [encFinish_eq h ht.streaming, fullBlocks_padMessage h ht, blockCalls_append, ← ht.chain]
  simp [nextAccept_of_sinkAccepts ha, hc, blockCalls, finalBlock]

/-- A fresh unit given `p` in one `EWRITE` and then `ECLOSE`, no collaborator failing: what stands in the sink (R135)
and which calls were made (R212). -/
theorem encWrite_encClose_fresh {e : EncUnit} {iv p : List Byte} (hf : e.Fresh) (hr : randomAnswers iv e)
    (ha : sinkAccepts (p.length / e.blockSize + 2) e) :
    (encClose (encWrite p.length p e).1).1.snk = encStream e.cipher e.blockSize iv p ∧
      (encClose (encWrite p.length p e).1).1.calls = e.calls ++ encCallSequence e.cipher e.blockSize iv p := by
  obtain ⟨f, hwrite, finv, ftracks, facc, fbs, fcipher, fcalls⟩ :=
    encWrite_fresh (p := p) (k := 1) hf hr (by rwa [Nat.add_comm 1])
  obtain ⟨-, -, -, hsnk⟩ := encFinish_stream finv ftracks facc
  have hcalls := encFinish_calls_of_callTracks finv ftracks fcalls facc
  rw [fbs, fcipher] at hsnk hcalls
  rw [hwrite, encClose_streaming ftracks.streaming]
  exact ⟨hsnk, by rw [hcalls, encCallSequence]; simp⟩

/-- `ECLOSE` as the first command of a fresh unit, no collaborator failing (R133 corner case (c)). -/
theorem encClose_fresh {e : EncUnit} {iv : List Byte} (hf : e.Fresh) (hr : randomAnswers iv e)
    (ha : sinkAccepts 2 e) :
    (encClose e).2 = okReply 0 ∧ (encClose e).1.est = .closed ∧ (encClose e).1.snkClosed = true ∧
      (encClose e).1.elen = 0 ∧ (encClose e).1.snk = encStream e.cipher e.blockSize iv [] := by
  obtain ⟨g, hinit, ginv, gtracks, -, -, gbs, gcipher, -, gacc, -⟩ := encInit_fresh (k := 1) hf hr ha
  obtain ⟨hreply, hest, hclosed, hsnk⟩ := encFinish_stream ginv gtracks gacc
  rw [encClose_uninit hf.uninit, hinit, if_pos rfl]
  exact ⟨hreply, hest, hclosed, rfl, gbs ▸ gcipher ▸ hsnk⟩

/-! ## The pending tail of DEC (R32, R163) -/

theorem DecUnit.length_tailBytes {d : DecUnit} (h : d.Inv) : d.tailBytes.length = d.clen - d.cpos := by
  have hcur := h.curLength
  have hheld := h.held
  simp [DecUnit.tailBytes, slice]
  omega

/-- The read loop serves a request that the pending tail covers from it alone (R163, steps 1 and 5). -/
theorem readAll_covered {want : Nat} {d : DecUnit} (h : d.Inv) (hw : want ≤ d.clen - d.cpos) :
    readAll want [] d = (deliver want d, readReply (d.tailBytes.take want) (deliver want d)) := by
  by_cases h0 : want = 0
  · subst h0
    rw [readAll_zero, deliver_zero fun hd => (h.draining hd).1, List.take_zero]
  · have hcount : deliverCount want d = want := Nat.min_eq_left hw
    have hserved : slice d.cur d.cpos (d.cpos + want) = d.tailBytes.take want := slice_prefix _ _ _ _ (by omega)
    rw [readAll_pending h0 (by omega), hcount, Nat.sub_self, readAll_zero, hserved, List.nil_append]

/-- Delivering pending bytes answers `EOS` exactly when it drains the tail of the final block (R44, R163). -/
theorem readStatus_deliver {m : Nat} {d : DecUnit} (h : d.dst = .streaming ∨ d.dst = .draining) :
    readStatus (deliver m d).dst = if d.cpos + m = d.clen ∧ d.dst = .draining then .eos else .ok := by
  rw [deliver_dst]
  split
  · rfl
  · obtain h | h := h <;> rw [h] <;> rfl

/-! ## The IV step of DEC on a short source (R161) -/

/-- A source that cannot fill a read gives all that is left. -/
theorem srcNext_of_short {n : Nat} {d : DecUnit} (h : d.src.length - d.spos < n) : srcNext n d = d.src.drop d.spos :=
  List.take_of_length_le (by rw [List.length_drop]; omega)

theorem decRead_shortIv {len : Nat} {d : DecUnit} (h : d.Inv) (hu : d.dst = .uninit)
    (hs : d.src.length - d.spos < d.blockSize) :
    decRead len d = ({ d with
      dst := .failed
      spos := d.src.length
      calls := d.calls ++ [.srcRead d.blockSize (d.src.drop d.spos)] }, decErrReply []) := by
  have hend : d.spos + (d.src.length - d.spos) = d.src.length := Nat.add_sub_cancel' h.position
  rw [decRead_uninit hu, decInit_short hs]
  simp [raiseDecryptionError, srcRead, srcNext_of_short hs, hend]

/-! ## The round trip (R66, R118, R119, R167) -/

theorem length_padMessage {B : Nat} (p : List Byte) (hB : 1 ≤ B) :
    (padMessage B p).length = B * (p.length / B + 1) := by
  have hmod := Nat.mod_lt p.length hB
  have hdiv := Nat.div_add_mod p.length B
  simp only [padMessage, padCount, List.length_append, List.length_replicate, Nat.mul_add_one]
  omega

/-- `Unpad` undoes `Pad` (R119): the last block is the residue and its pad bytes. -/
theorem unpadMessage_padMessage {B : Nat} (p : List Byte) (hB : 1 ≤ B) (h255 : B ≤ 255) :
    unpadMessage B (padMessage B p) = some p := by
  have hmod := Nat.mod_lt p.length hB
  have hdiv := Nat.div_add_mod p.length B
  rw [padMessage_split p hB, unpad_append hB (by simp; omega), padRemove_pad (by omega) (by omega), Option.map_some,
    List.take_append_drop]

/-- Decrypting the blocks of `Enc(iv, p)` gives the padded message back (R204, R205). -/
theorem plainBlocks_encStream (c : Cipher) {B : Nat} {iv : List Byte} (p : List Byte) (hB : 1 ≤ B)
    (hiv : iv.length = B) : plainBlocks c B (encStream c B iv p) = fullBlocks B (padMessage B p) := by
  have hblocks : ∀ x ∈ fullBlocks B (padMessage B p), x.length = B := fun _ => mem_fullBlocks
  rw [plainBlocks, encStream, List.take_left' hiv, List.drop_left' hiv,
    fullBlocks_flatten hB (mem_cbcEncryptAll hiv hblocks), cbcDecryptAll_encryptAll _ _ _ _ hiv hblocks]

/-- `Dec` undoes `Enc`, for every cipher, IV and plaintext (R167). -/
theorem decStream_encStream (c : Cipher) {B : Nat} {iv : List Byte} (p : List Byte) (hB : 1 ≤ B) (h255 : B ≤ 255)
    (hiv : iv.length = B) : decStream c B (encStream c B iv p) = (p, .eos) := by
  have hlen : (encStream c B iv p).length - B = B * (p.length / B + 1) := by
    rw [length_encStream c B iv p hB hiv, Nat.add_sub_cancel_left]
  have hlong : B < (encStream c B iv p).length := by
    have : 0 < B * (p.length / B + 1) := Nat.mul_pos hB (Nat.succ_pos _)
    omega
  have hmessage : (fullBlocks B (padMessage B p)).flatten = padMessage B p := by
    rw [flatten_fullBlocks _ hB, length_padMessage p hB, Nat.mul_div_cancel_left _ hB, ← length_padMessage p hB,
      List.take_length]
  simp only [decStream]
  rw [if_neg (by omega), if_neg (by omega), if_neg (by simp [hlen]), plainBlocks_encStream c p hB hiv, hmessage,
    unpadMessage_padMessage p hB h255]

theorem length_encStream_le (c : Cipher) {B : Nat} {iv : List Byte} (p : List Byte) (hB : 1 ≤ B)
    (hiv : iv.length = B) : (encStream c B iv p).length ≤ p.length + 2 * B := by
  have := Nat.mul_div_le p.length B
  rw [length_encStream c B iv p hB hiv, Nat.mul_add_one]
  omega

/-- One `DREAD` longer than `Enc(iv, p)` of a fresh unit bound to it delivers `p` and ends the stream. -/
theorem response_decRead_encStream {d : DecUnit} {iv p : List Byte} {n : Nat} (hf : d.Fresh)
    (hiv : iv.length = d.blockSize) (hsrc : d.src = encStream d.cipher d.blockSize iv p)
    (hn : p.length + 2 * d.blockSize < n) :
    response (decRead n d).2 = { word := responseWord .eos p.length, data := p } := by
  obtain ⟨hB, h255⟩ := (legalBlockSize_iff _).mp hf.inv.legal
  have hlen := length_encStream_le d.cipher p hB hiv
  obtain ⟨hdata, hstatus, -⟩ := decRead_whole (len := n) hf (by rw [hsrc]; omega)
  rw [hsrc, decStream_encStream d.cipher p hB h255 hiv] at hdata hstatus
  rw [response_dec, hdata, hstatus]

/-- A DEC unit bound to `Enc(iv, p)` and read by one long `DREAD` answers `EOS` with `p`, whatever it did before its
reset (R66, R262). -/
theorem run_resetDec_dread_encStream {s : State} {b : DecBinding} {iv p : List Byte} {n : Nat}
    (hb : legalBlockSize b.blockSize = true) (hiv : iv.length = b.blockSize)
    (hsrc : b.src = encStream b.cipher b.blockSize iv p) (hlong : p.length + 2 * b.blockSize < n) (hn : n < 2 ^ 24)
    (h : s.pending = [.resetDec (some b), command (.dread n) []]) :
    ∃ u, core.run 2 s = .next u ∧ u.rspLog = s.rspLog ++ [{ word := responseWord .eos p.length, data := p }] := by
  obtain ⟨u, hrun, hlog⟩ := run_resetDec_dread hb hn h
  rw [response_decRead_encStream (resetDec_bindDec_fresh hb s.dec) hiv hsrc hlong] at hlog
  exact ⟨u, hrun, hlog⟩

/-! ## The obligations -/

/-- Settles O20: the payload loop on bytes that stay short of the block boundary. -/
theorem ewritePartialBlockOnlyBuffers : Obligations.EwritePartialBlockOnlyBuffers := by
  unfold Obligations.EwritePartialBlockOnlyBuffers
  rintro s len hinv hs rfl hfill
  obtain ⟨f, hloop, helen, hbuf, hrest⟩ := writeLoop_partial s.wdata 0 s.enc hinv.ebufLength hfill
  have hrun : encWrite s.wdata.length s.wdata s.enc = (f, okReply s.wdata.length) := by
    rw [encWrite_streaming hs, hloop, Nat.zero_add]
  refine ⟨_, exec_ewrite _ s, ?_⟩
  rw [hrun]
  exact ⟨rfl, helen, hbuf, hrest, rfl⟩

/-- Settles O28: the IV step, then the padded block of the empty residue. -/
theorem ecloseOfEmptyPlaintext : Obligations.EcloseOfEmptyPlaintext := by
  unfold Obligations.EcloseOfEmptyPlaintext
  intro s iv hf hr ha
  obtain ⟨hreply, hest, hclosed, helen, hsnk⟩ := encClose_fresh hf hr ha
  refine ⟨_, exec_eclose s, hest, hclosed, helen, hsnk, ?_, ?_, rfl⟩
  · rw [kpos, finishEnc_enc, hsnk, length_encStream _ _ _ _ hf.inv.pos hr.1]
    simp [Nat.two_mul]
  · rw [finishEnc_rspLog, hreply, response_ok_zero]

/-- Settles O35: the padded message has `⌊L / B⌋ + 1` blocks, and the IV stands before them. -/
theorem encStreamLength : Obligations.EncStreamLength := by
  unfold Obligations.EncStreamLength
  intro c B iv p hB _ hiv
  have hlaw : streamLength B p.length = B + B * (p.length / B + 1) := by
    rw [streamLength, Nat.add_div_right _ hB]
  exact ⟨(length_encStream c B iv p hB hiv).trans hlaw.symm, hlaw, List.take_left' hiv⟩

/-- Settles O38: the two commands of the stream run on ENC, where the record of calls is `encWrite_encClose_fresh`. -/
theorem encCallOrder : Obligations.EncCallOrder := by
  unfold Obligations.EncCallOrder
  intro s iv p hf hr hp ha hpending
  obtain ⟨t, hrun, henc⟩ := run_encryptEvents_one hp hpending
  exact ⟨t, hrun, henc ▸ (encWrite_encClose_fresh hf hr ha).2⟩

/-- Settles O40: one pass of the read loop delivers the request, and no pass is needed for an empty one. -/
theorem dreadServesPendingTail : Obligations.DreadServesPendingTail := by
  unfold Obligations.DreadServesPendingTail
  intro s len hinv hs hlen _
  have hopen : s.dec.dst ≠ .uninit ∧ s.dec.dst ≠ .failed ∧ s.dec.dst ≠ .closed := by
    obtain hs | hs := hs <;> simp [hs]
  have hcount : (s.dec.tailBytes.take len).length = len :=
    List.length_take_of_le (by rwa [DecUnit.length_tailBytes hinv])
  rw [exec_dread, decRead_of hopen.1 hopen.2.1 hopen.2.2, readAll_covered hinv hlen, finishDec, post, response, readReply,
    readStatus_deliver hs, hcount]
  rfl

/-- Settles O43: the IV step fails on what the source has left. -/
theorem dreadShortIv : Obligations.DreadShortIv := by
  unfold Obligations.DreadShortIv
  intro s len hinv hu hshort
  rw [exec_dread, decRead_shortIv hinv hu hshort, finishDec, post, response_decErr_nil]

/-- Settles O53: the sink holds `Enc(iv, p)`, and one long `DREAD` of a unit bound to it reads all of `Dec` of it. -/
theorem machineRoundTrip : Obligations.MachineRoundTrip := by
  unfold Obligations.MachineRoundTrip
  intro s iv p n hf hr ha hlong hn
  obtain ⟨t, hrun, henc⟩ := run_encryptEvents_one (s := { s with pending := encryptEvents [p] }) (by omega) rfl
  have hsnk : t.enc.snk = encStream s.enc.cipher s.enc.blockSize iv p := henc ▸ (encWrite_encClose_fresh hf hr ha).1
  exact ⟨t, hrun, run_resetDec_dread_encStream (s := { t with pending := _ }) hf.inv.legal hr.1 hsnk hlong hn rfl⟩

/-- Settles O44, one case for each terminal state. -/
theorem dreadTerminalStates : Obligations.DreadTerminalStates := by
  unfold Obligations.DreadTerminalStates
  intro s len
  refine ⟨fun hd hpos => ?_, fun hd => ?_, fun hd => ?_⟩
  · have hreply : response (readReply [] s.dec) = { word := 0x10000000#32, data := [] } := by
      rw [readReply, hd]
      decide
    rw [exec_dread, decRead_of (by simp [hd]) (by simp [hd]) (by simp [hd]), readAll_drained (by omega) hd, finishDec,
      post, hreply]
  · rw [exec_dread, decRead_failed hd, finishDec, post, response_decErr_nil]
  · rw [exec_dread, decRead_closed hd, finishDec, post, response_invalid]

end Sys2Proof.Machine
end

section
/-! PROOFS. The encoding: command words, response words, and what the host's sequences of commands do (00_scope.md R8,
30_encoding.md R80 to R97, 41_stream_encryptor.md R134, R135). -/

namespace Sys2Proof.Machine

open Laws

/-! ## The decoder reads the two fields (R80, R81, R88) -/

/-- A command whose `len` fits its field has a command word (R80). -/
theorem wellFormed_of_len_lt {i : Instr} (h : EncodeFields.len i < 2 ^ 24) : i.wellFormed = true := by
  cases i with
  | ewrite n => exact lenOk_iff.2 h
  | eclose => rfl
  | dread n => exact lenOk_iff.2 h
  | dclose => rfl

theorem encode_eq_commandWord (i : Instr) : encode i = commandWord (EncodeFields.opcode i) (EncodeFields.len i) := by
  cases i <;> rfl

/-- A word is the command word of the command whose opcode and `len` it carries. -/
theorem encode_of_fields {w : Word} {i : Instr} (hop : opcodeField w = EncodeFields.opcode i)
    (hlen : lenField w = EncodeFields.len i) : i.wellFormed = true ∧ encode i = w := by
  refine ⟨wellFormed_of_len_lt (hlen ▸ lenField_lt w), ?_⟩
  rw [encode_eq_commandWord, ← hop, ← hlen, commandWord_fields]

/-- A word that decodes carries the opcode and the `len` of its command. -/
theorem fields_of_decode {w : Word} {i : Instr} (h : decode w = .ok i) :
    opcodeField w = EncodeFields.opcode i ∧ lenField w = EncodeFields.len i := by
  unfold decode at h
  split at h
  case isTrue hop => cases h; exact ⟨hop, rfl⟩
  split at h
  case isTrue hop =>
    split at h
    case isTrue hlen => cases h; exact ⟨hop, hlen⟩
    case isFalse => cases h
  split at h
  case isTrue hop => cases h; exact ⟨hop, rfl⟩
  split at h
  case isTrue hop =>
    split at h
    case isTrue hlen => cases h; exact ⟨hop, hlen⟩
    case isFalse => cases h
  cases h

/-- Which words decode to a command: those that carry its fields. -/
theorem decode_ok_iff {w : Word} {i : Instr} :
    decode w = .ok i ↔ opcodeField w = EncodeFields.opcode i ∧ lenField w = EncodeFields.len i := by
  refine ⟨fields_of_decode, fun ⟨hop, hlen⟩ => ?_⟩
  obtain ⟨hwf, rfl⟩ := encode_of_fields hop hlen
  exact decode_encode_of_wellFormed hwf

/-- The words that decode: every `EWRITE` and `DREAD`, and a close with `len` 0. -/
theorem decode_ok_iff_fields (w : Word) :
    (∃ i, decode w = .ok i) ↔ opcodeField w = 0x10#8 ∨ (opcodeField w = 0x11#8 ∧ lenField w = 0) ∨
      opcodeField w = 0x20#8 ∨ (opcodeField w = 0x21#8 ∧ lenField w = 0) := by
  simp only [decode_ok_iff]
  constructor
  · rintro ⟨i, hop, hlen⟩
    cases i with
    | ewrite n => exact .inl hop
    | eclose => exact .inr (.inl ⟨hop, hlen⟩)
    | dread n => exact .inr (.inr (.inl hop))
    | dclose => exact .inr (.inr (.inr ⟨hop, hlen⟩))
  · rintro (hop | h | hop | h)
    · exact ⟨.ewrite (lenField w), hop, rfl⟩
    · exact ⟨.eclose, h⟩
    · exact ⟨.dread (lenField w), hop, rfl⟩
    · exact ⟨.dclose, h⟩

/-- A word is reserved exactly when it decodes to no command (R88). -/
theorem decode_error_iff (w : Word) : (∃ r, decode w = .error r) ↔ ¬ ∃ i, decode w = .ok i := by
  cases decode w <;> simp

/-- A word that decodes to a `DREAD` has its opcode and a 24-bit `len` (R80, R81). -/
theorem opcodeField_of_dread {w : Word} {n : Nat} (h : decode w = .ok (.dread n)) :
    opcodeField w = 0x20#8 ∧ n < 2 ^ 24 := by
  obtain ⟨hop, hlen⟩ := fields_of_decode h
  exact ⟨hop, hlen.symm.trans_lt (lenField_lt w)⟩

theorem opcodeField_ne_dread {w : Word} {i : Instr} (h : decode w = .ok i) (hi : EncodeFields.opcode i ≠ 0x20#8) :
    opcodeField w ≠ 0x20#8 := (fields_of_decode h).1 ▸ hi

/-! ## Every command word gets one reply (R84, R87) -/

/-- A command word adds the response of one reply, which carries data for a `DREAD` only, counted in 24 bits. -/
theorem runCommand_reply (w : Word) (bytes : List Byte) (s : State) :
    ∃ t r, runCommand w bytes s = .next t ∧ t.rspLog = s.rspLog ++ [response r] ∧ t.pending = s.pending ∧
      t.wdata = [] ∧ r.data.length < 2 ^ 24 ∧ (opcodeField w = 0x20#8 → r.count = r.data.length) ∧
      (opcodeField w ≠ 0x20#8 → r.data = []) := by
  cases hw : decode w with
  | error e =>
    exact ⟨_, invalidReply, runCommand_of_reserved hw bytes s, rfl, rfl, rfl, by decide, fun _ => rfl, fun _ => rfl⟩
  | ok i =>
    rw [runCommand_of_decode hw]
    cases i with
    | ewrite n =>
      have hdata := encReply_data n bytes s.enc
      exact ⟨_, _, exec_ewrite n _, rfl, rfl, rfl, by simp [hdata],
        fun hop => absurd hop (opcodeField_ne_dread hw (by simp [EncodeFields.opcode])), fun _ => hdata⟩
    | eclose =>
      have hdata := encClose_data s.enc
      exact ⟨_, _, exec_eclose _, rfl, rfl, rfl, by simp [hdata],
        fun hop => absurd hop (opcodeField_ne_dread hw (by simp [EncodeFields.opcode])), fun _ => hdata⟩
    | dread n =>
      obtain ⟨hop, hn⟩ := opcodeField_of_dread hw
      exact ⟨_, _, exec_dread n _, rfl, rfl, rfl, (decRead_length n s.dec).trans_lt hn, fun _ => decRead_reply n s.dec,
        fun hne => absurd hop hne⟩
    | dclose =>
      have hdata : (decClose s.dec).2.data = [] := by rw [decClose_reply]; rfl
      exact ⟨_, _, exec_dclose _, rfl, rfl, rfl, by simp [hdata],
        fun hop => absurd hop (opcodeField_ne_dread hw (by simp [EncodeFields.opcode])), fun _ => hdata⟩

/-! ## A sequence of `EWRITE`s (R96, R97, R134) -/

/-- A presented `EWRITE` runs on ENC with its payload. -/
theorem step_ewriteOf {s : State} {a : List Byte} {rest : List HostEvent} (ha : a.length < 2 ^ 24)
    (h : s.pending = ewriteOf a :: rest) :
    step s = .next (finishEnc (encWrite a.length a s.enc) { s with pending := rest, wdata := a }) :=
  step_presented (i := .ewrite a.length) (lenOk_iff.2 ha) h

/-- The host's `EWRITE`s run one after the other on ENC alone. -/
theorem run_ewrites (chunks : List (List Byte)) {s : State} {rest : List HostEvent}
    (hlen : ∀ a ∈ chunks, a.length < 2 ^ 24) (hp : s.pending = chunks.map ewriteOf ++ rest) :
    ∃ t, (∀ k, core.run (chunks.length + k) s = core.run k t) ∧ t.enc = (encWrites chunks s.enc).1 ∧ t.dec = s.dec ∧
      t.pending = rest ∧ t.rspLog = s.rspLog ++ (encWrites chunks s.enc).2.map response := by
  induction chunks generalizing s with
  | nil => exact ⟨s, fun k => by simp, rfl, rfl, hp, by simp [encWrites]⟩
  | cons a as ih =>
    obtain ⟨ha, has⟩ := List.forall_mem_cons.1 hlen
    have hstep := step_ewriteOf ha (rest := as.map ewriteOf ++ rest) hp
    obtain ⟨t, hrun, henc, hdec, hpending, hlog⟩ := ih has (s := finishEnc (encWrite a.length a s.enc)
      { s with pending := as.map ewriteOf ++ rest, wdata := a }) rfl
    refine ⟨t, fun k => ?_, henc, hdec, hpending, by simp [hlog, encWrites]⟩
    rw [List.length_cons, Nat.add_right_comm, run_succ _ _ _ hstep, hrun]

/-- A non-empty sequence of `EWRITE`s leaves ENC as the one `EWRITE` of the joined payload does (R134). -/
theorem encWrites_flatten {chunks : List (List Byte)} (h : chunks ≠ []) (e : EncUnit) :
    (encWrites chunks e).1 = (encWrite chunks.flatten.length chunks.flatten e).1 := by
  induction chunks generalizing e with
  | nil => exact absurd rfl h
  | cons a as ih =>
    by_cases has : as = []
    · simp [has, encWrites]
    · exact (ih has _).trans (encWrite_append e a as.flatten).1.symm

/-- Once the IV step succeeds, a fresh unit does what the unit after the IV step does, with the same replies, whether
the first command is an `EWRITE` or `ECLOSE`. -/
theorem encWrites_encClose_of_encInit {e f : EncUnit} (chunks : List (List Byte)) (hu : e.est = .uninit)
    (hi : encInit e = (true, f)) (hf : f.est = .streaming) :
    (encWrites chunks e).2 = (encWrites chunks f).2 ∧
      encClose (encWrites chunks e).1 = encClose (encWrites chunks f).1 := by
  cases chunks with
  | nil => exact ⟨rfl, by simp [encWrites, encClose_uninit hu, encClose_streaming hf, hi]⟩
  | cons a as =>
    have hfirst : encWrite a.length a e = encWrite a.length a f := by
      rw [encWrite_uninit hu, hi, if_pos rfl, writePayload_of_length rfl, encWrite_streaming hf]
    simp [encWrites, hfirst]

/-- Any chunks and then `ECLOSE` on a fresh unit, no collaborator failing (R135). -/
theorem encWrites_encClose_fresh {e : EncUnit} {iv : List Byte} (chunks : List (List Byte)) (hf : e.Fresh)
    (hr : randomAnswers iv e) (ha : sinkAccepts (chunks.flatten.length / e.blockSize + 2) e) :
    (encWrites chunks e).2 = chunks.map (fun a => okReply a.length) ∧
      (encClose (encWrites chunks e).1).2 = okReply 0 ∧ (encClose (encWrites chunks e).1).1.est = .closed ∧
      (encClose (encWrites chunks e).1).1.snkClosed = true ∧
      (encClose (encWrites chunks e).1).1.snk = encStream e.cipher e.blockSize iv chunks.flatten := by
  obtain ⟨f, hinit, finv, ftracks, -, -, fbs, fcipher, -, facc, -⟩ :=
    encInit_fresh (k := chunks.flatten.length / e.blockSize + 1) hf hr (by rwa [Nat.add_comm 1])
  obtain ⟨g, hwrites, ginv, gtracks, gacc, gbs, gcipher⟩ :=
    encWrites_stream chunks f 1 finv ftracks (by simpa [fbs] using facc)
  obtain ⟨hreplies, hclose⟩ := encWrites_encClose_of_encInit chunks hf.uninit hinit ftracks.streaming
  rw [hreplies, hclose, hwrites, encClose_streaming gtracks.streaming, ← fcipher, ← fbs, ← gcipher, ← gbs]
  exact ⟨rfl, encFinish_stream ginv gtracks gacc⟩

/-! ## The obligations -/

/-- Settles O1, from the fields of a command word. -/
theorem decodeOfEncode : Obligations.DecodeOfEncode := by
  unfold Obligations.DecodeOfEncode
  exact fun _ => decode_encode_of_wellFormed

/-- Settles O2: a word that decodes carries the fields of its command, and its two fields are the whole word. -/
theorem encodeOfDecode : Obligations.EncodeOfDecode := by
  unfold Obligations.EncodeOfDecode
  intro w i h
  obtain ⟨hop, hlen⟩ := fields_of_decode h
  exact encode_of_fields hop hlen

/-- Settles O3: the complement of the words that decode; the four opcodes are different. -/
theorem reservedWords : Obligations.ReservedWords := by
  unfold Obligations.ReservedWords
  intro w
  rw [decode_error_iff, decode_ok_iff_fields]
  constructor
  · tauto
  · rintro (hop | ⟨hop | hop, hlen⟩)
    · tauto
    · simp [hop, hlen]
    · simp [hop, hlen]

/-- Settles O8: the step hands the word to `runCommand`, whose one reply fills the fields of the response word. -/
theorem oneResponsePerCommand : Obligations.OneResponsePerCommand := by
  unfold Obligations.OneResponsePerCommand
  intro s w bytes rest hp
  obtain ⟨t, r, hrun, hlog, hpending, hwdata, hlt, hcount, hdata⟩ :=
    runCommand_reply w bytes { s with pending := rest }
  refine ⟨t, response r, (step_command hp).trans hrun, hlog, hpending, hwdata, ⟨r.status, statusField_responseWord _ _⟩,
    zeroField_responseWord _ _, fun hop => ?_, hdata⟩
  have hc := hcount hop
  exact (countField_responseWord _ _ (hc ▸ hlt)).trans hc

/-- Settles O26: the pushes are the chunks of one byte, which ENC joins. -/
theorem epushSequenceIsEwrite : Obligations.EpushSequenceIsEwrite := by
  unfold Obligations.EpushSequenceIsEwrite
  intro s p rest hne hp
  obtain ⟨t, trun, tenc, tdec, tpending, -⟩ := run_ewrites (p.map fun b => [b])
    (s := { s with pending := p.map epush ++ rest }) (rest := rest) (by simp) (by simp [Function.comp_def, epush])
  obtain ⟨u, urun, uenc, udec, upending, -⟩ := run_ewrites [p]
    (s := { s with pending := ewriteOf p :: rest }) (rest := rest) (by simpa using hp) rfl
  have hjoin : (p.map fun b => [b]).flatten = p := List.flatMap_singleton' p
  refine ⟨t, u, by simpa [Host.Core.run] using trun 0, urun 0, ?_, tdec.trans udec.symm, tpending.trans upending.symm⟩
  rw [tenc, uenc, encWrites_flatten (by simpa using hne), hjoin]
  rfl

/-- Settles O36: the writes and the close run on ENC alone, where `encWrites_encClose_fresh` says what they leave. -/
theorem sinkContentLaw : Obligations.SinkContentLaw := by
  unfold Obligations.SinkContentLaw
  intro s chunks iv rest hf hr hlen ha hp
  obtain ⟨t, hrun, henc, hdec, hpending, hlog⟩ :=
    run_ewrites chunks hlen (rest := command .eclose [] :: rest) (by rw [hp]; simp [encryptEvents])
  obtain ⟨hreplies, hreply, hest, hclosed, hsnk⟩ := encWrites_encClose_fresh chunks hf hr ha
  rw [← henc] at hreply hest hclosed hsnk
  have hstep := (step_presented (i := .eclose) rfl hpending).trans (exec_eclose _)
  refine ⟨_, (hrun 1).trans (run_succ 0 _ _ hstep), hest, hclosed, hsnk, hdec, rfl, ?_⟩
  rw [finishEnc_rspLog, hreply, response_ok_zero, hlog, hreplies, List.map_map]
  rfl

/-- Settles O4, by evaluation of the decoder. -/
theorem decodeVectors : Obligations.DecodeVectors := by
  unfold Obligations.DecodeVectors
  decide

/-- Settles O5, one field law each. -/
theorem responseWordFields : Obligations.ResponseWordFields := by
  unfold Obligations.ResponseWordFields
  exact fun st count h =>
    ⟨statusField_responseWord st count, zeroField_responseWord st count, countField_responseWord st count h⟩

/-- Settles O7: by `reservedWords` the word does not decode, and the step then only posts `INVALID`. -/
theorem reservedWordAnswersInvalid : Obligations.ReservedWordAnswersInvalid := by
  unfold Obligations.ReservedWordAnswersInvalid
  intro w h
  obtain ⟨r, hr⟩ := (reservedWords w).2 h
  refine ⟨⟨r, hr⟩, fun s bytes rest hp => ?_⟩
  rw [step_command hp, runCommand_of_reserved hr, post, response_invalid]

end Sys2Proof.Machine
end

section
/-! PROOFS. PaddingCodec, and the two ends of a stream that run it: the padded final block of ENC and the stripped final
block of DEC (40_padding_codec.md R111 to R119, 41_stream_encryptor.md R133, 42_stream_decryptor.md R162). -/

namespace Sys2Proof.Machine

/-! ## `PadAdd` (R111, R112) -/

theorem padAdd_fst (B : Nat) (block : List Byte) (u : Nat) :
    (padAdd B block u).1 = block.take u ++ List.replicate (B - u) (BitVec.ofNat 8 (B - u)) := rfl

theorem padAdd_snd (B : Nat) (block : List Byte) (u : Nat) : (padAdd B block u).2 = B - u := rfl

theorem length_padAdd {B u : Nat} {block : List Byte} (hl : block.length = B) (hu : u ≤ B) :
    (padAdd B block u).1.length = B := by
  rw [padAdd_fst, List.length_append, List.length_take_of_le (hl ▸ hu), List.length_replicate, Nat.add_sub_cancel' hu]

/-- The bytes before the used length stay. -/
theorem padAdd_getElem?_used {B u i : Nat} {block : List Byte} (hl : block.length = B) (hu : u ≤ B) (hi : i < u) :
    (padAdd B block u).1[i]? = block[i]? := by
  rw [padAdd_fst, List.getElem?_append_left (by rwa [List.length_take_of_le (hl ▸ hu)]), List.getElem?_take_of_lt hi]

/-- The bytes from the used length on are the pad count. -/
theorem padAdd_getElem?_pad {B u i : Nat} {block : List Byte} (hl : block.length = B) (hu : u ≤ i) (hi : i < B) :
    (padAdd B block u).1[i]? = some (BitVec.ofNat 8 (B - u)) := by
  have hkept : (block.take u).length = u := List.length_take_of_le (by omega)
  rw [padAdd_fst, List.getElem?_append_right (by omega), hkept, List.getElem?_replicate_of_lt (by omega)]

/-! ## `PadRemove` (R113 to R116) -/

theorem padRemove_padAdd {B u : Nat} {block : List Byte} (h255 : B ≤ 255) (hu : u < B) :
    padRemove (padAdd B block u).1 = some (block.take u) := by
  rw [padAdd_fst, padRemove_pad (by omega) (by omega)]

/-- A last byte above the length is a `PaddingError` (R113). -/
theorem padRemove_append_of_gt {front : List Byte} {k : Byte} (h : front.length + 1 < k.toNat) :
    padRemove (front ++ [k]) = none := by
  rw [padRemove_append, if_pos h]

theorem padRemove_append_of_le {front : List Byte} {k : Byte} (h : k.toNat ≤ front.length + 1) :
    padRemove (front ++ [k]) = some ((front ++ [k]).take (front.length + 1 - k.toNat)) := by
  rw [padRemove_append, if_neg (Nat.not_lt.2 h)]

/-- A last byte 0 strips nothing (R114). -/
theorem padRemove_append_zero (front : List Byte) : padRemove (front ++ [0]) = some (front ++ [0]) := by
  rw [padRemove_append_of_le (Nat.zero_le _), List.take_of_length_le (by simp)]

/-- Padding puts at least one byte that stripping takes off, so no block that stripping leaves whole is padded. -/
theorem padAdd_ne_of_padRemove_self {B u : Nat} {block other : List Byte} (h255 : B ≤ 255) (hu : u < B)
    (hl : other.length = B) (h : padRemove other = some other) : (padAdd B block u).1 ≠ other := by
  intro heq
  have hstrip : some other = some (block.take u) := h ▸ heq ▸ padRemove_padAdd h255 hu
  have hlen := congrArg List.length (Option.some.inj hstrip)
  have hle := List.length_take_le u block
  omega

/-! ## The end of a stream on ENC (R133) -/

/-- `ECLOSE` while streaming, the sink accepting the padded block: everything of ENC that changes, and the reply. -/
theorem encFinish_accepted {e : EncUnit} (h : e.Inv) (hs : e.est = .streaming) (ha : sinkAccepts 1 e) :
    encFinish e = ({ e with
      est := .closed
      ebuf := finalBlock e
      elen := 0
      echain := finalBlock e
      accept := e.accept.drop 1
      snk := e.snk ++ finalBlock e
      snkClosed := true
      calls := e.calls ++
        [.cbcEncrypt (padAdd e.blockSize e.ebuf e.elen).1 (finalBlock e), .sinkWrite (finalBlock e) e.blockSize,
          .sinkClose] }, okReply 0) := by
  have hwhole : (finalBlock e).take e.blockSize = finalBlock e :=
    List.take_of_length_le (length_finalBlock h hs).le
  have hscheduled : e.accept.isEmpty = false := by
    obtain ⟨ok, rest, hacc, hlen, -⟩ := ha
    obtain ⟨a, rfl⟩ := List.length_eq_one_iff.1 hlen
    rw [hacc]
    rfl
  rw [encFinish_eq h hs, nextAccept_of_sinkAccepts ha, hwhole, hscheduled, List.drop_one, if_pos rfl]
  rfl

/-! ## The final block on DEC (R162) -/

theorem srcNext_of_end {n : Nat} {d : DecUnit} (h : d.spos = d.src.length) : srcNext n d = [] := by
  rw [srcNext, h, List.drop_length, List.take_nil]

/-- A full block with the source at its end is the final one: it is decrypted and stripped. -/
theorem nextBlock_final {d : DecUnit} (h : d.Inv) (hs : d.dst = .streaming)
    (hl : (takeBlock d).1.length = d.blockSize) (hend : (takeBlock d).2.spos = d.src.length) :
    nextBlock d = stripFinal (decryptAndLookAhead (takeBlock d).1 (takeBlock d).2) := by
  obtain ⟨-, hsrc, -⟩ := takeBlock_facts h hs
  rw [nextBlock_full h hl, if_pos (srcNext_of_end (hsrc ▸ hend))]

/-- What `stripFinal` strips after a full block is the whole decrypted block. -/
theorem decryptAndLookAhead_take_cur {d : DecUnit} (h : d.Inv) (hl : (takeBlock d).1.length = d.blockSize) :
    (decryptAndLookAhead (takeBlock d).1 (takeBlock d).2).cur.take
        (decryptAndLookAhead (takeBlock d).1 (takeBlock d).2).clen =
      comb (cipherD d.cipher d.blockSize (takeBlock d).1) d.dchain := by
  have hlen : (comb (cipherD d.cipher d.blockSize (takeBlock d).1) d.dchain).length = d.blockSize :=
    length_cbcDecryptBlock h hl
  rw [decryptAndLookAhead_cur, decryptAndLookAhead_clen, cbcDecryptBlock_take, takeBlock_chain.2.2,
    List.take_of_length_le hlen.le]

theorem stripFinal_of_gt {d : DecUnit} {front : List Byte} {k : Byte} (hcur : d.cur.take d.clen = front ++ [k])
    (hk : front.length + 1 < k.toNat) : stripFinal d = (false, { d with laValid := false }) := by
  rw [stripFinal, hcur, padRemove_append_of_gt hk]

theorem stripFinal_of_le {d : DecUnit} {front : List Byte} {k : Byte} (hcur : d.cur.take d.clen = front ++ [k])
    (hk : k.toNat ≤ front.length + 1) :
    stripFinal d = (true, { d with
      laValid := false
      clen := front.length + 1 - k.toNat
      dst := if front.length + 1 - k.toNat = 0 then .drained else .draining }) := by
  have hlen : ((front ++ [k]).take (front.length + 1 - k.toNat)).length = front.length + 1 - k.toNat :=
    List.length_take_of_le (by simp)
  rw [stripFinal, hcur, padRemove_append_of_le hk]
  simp only [hlen, gt_iff_lt, Nat.pos_iff_ne_zero, ite_not]

/-! ## The obligations -/

/-- Settles O27: while streaming `ECLOSE` is `encFinish`, and the sink with its block is `Enc(iv, p)`. -/
theorem ecloseCompletesStream : Obligations.EcloseCompletesStream := by
  unfold Obligations.EcloseCompletesStream
  intro s iv p hinv ht ha
  have hrun := (encClose_streaming ht.streaming).trans (encFinish_accepted hinv ht.streaming ha)
  refine ⟨_, finalBlock s.enc, exec_eclose s, rfl, ?_⟩
  rw [hrun]
  exact ⟨rfl, (encStream_tracks hinv ht).symm, by rw [finishEnc_rspLog, response_ok_zero], rfl, rfl, rfl⟩

/-- Settles O42: the final block is stripped by its last byte, which `padRemove_append` reads. -/
theorem nextBlockFinal : Obligations.NextBlockFinal := by
  unfold Obligations.NextBlockFinal
  rintro d _ front k hinv hs - rfl hl hend hplain
  have hstripped := (decryptAndLookAhead_take_cur hinv hl).trans hplain
  have hlen : front.length + 1 = d.blockSize := by
    rw [← length_cbcDecryptBlock hinv hl, cbcDecryptBlock, hplain, List.length_append, List.length_singleton]
  obtain ⟨-, hsrc, -⟩ := takeBlock_facts hinv hs
  rw [nextBlock_final hinv hs hl hend, ← hlen]
  refine ⟨fun hk => ?_, fun hk => ?_⟩
  · rw [stripFinal_of_gt hstripped hk]
  · refine ⟨_, stripFinal_of_le hstripped hk, (cbcDecryptBlock_take d).trans hplain, rfl, rfl, rfl, rfl, ?_, rfl⟩
    rw [decryptAndLookAhead_spos, srcNext_of_end (hend.trans (congrArg _ hsrc.symm)), hend, List.length_nil,
      Nat.add_zero]

/-- Settles O13, byte by byte. -/
theorem padAddFillsWithCount : Obligations.PadAddFillsWithCount := by
  unfold Obligations.PadAddFillsWithCount
  intro B u block h255 hl hu
  rw [padAdd_snd]
  refine ⟨rfl, by omega, by omega, length_padAdd hl hu.le, fun i => padAdd_getElem?_used hl hu.le, fun i hui hiB => ?_⟩
  rw [padAdd_getElem?_pad hl hui hiB, Option.map_some, BitVec.toNat_ofNat, Nat.mod_eq_of_lt (by omega)]

/-- Settles O15. The block of the converse is `B` zeros: stripping leaves it whole (R114). -/
theorem padRemoveInvertsPadAdd : Obligations.PadRemoveInvertsPadAdd := by
  unfold Obligations.PadRemoveInvertsPadAdd
  intro B hB h255
  have hzeros := padRemove_append_zero (List.replicate (B - 1) 0)
  have hlen : (List.replicate (B - 1) 0 ++ [0] : List Byte).length = B := by
    simp only [List.length_append, List.length_replicate, List.length_singleton]
    omega
  exact ⟨fun u block _ hu => padRemove_padAdd h255 hu, _, hlen, Option.ne_none_iff_exists'.mpr ⟨_, hzeros⟩,
    fun u block _ hu => padAdd_ne_of_padRemove_self h255 hu hlen hzeros⟩

/-- Settles O16: the padded length is the next multiple of `B`, and `Unpad` strips the last block. -/
theorem unpadInvertsPad : Obligations.UnpadInvertsPad := by
  unfold Obligations.UnpadInvertsPad
  intro B p hB h255
  have hmod := Nat.mod_lt p.length hB
  have hdiv := Nat.div_add_mod p.length B
  have hlen := (length_padMessage p hB).trans (Nat.mul_add_one _ _)
  exact ⟨length_padMessage p hB, by omega, by omega, unpadMessage_padMessage p hB h255⟩

/-- Settles O14, one case for each outcome of the comparison of the last byte with the length. -/
theorem padRemoveByLastByte : Obligations.PadRemoveByLastByte := by
  unfold Obligations.PadRemoveByLastByte
  exact ⟨rfl, fun front k => ⟨padRemove_append_of_gt, padRemove_append_of_le⟩⟩

end Sys2Proof.Machine
end

section
/-! PROOFS. ENC as the host sees it: `EWRITE` and `ECLOSE` in every state and with every answer of the random source and
the sink (41_stream_encryptor.md R130 to R134, 60_exceptions.md R231 to R240, 70_reset_and_hazards.md R263). -/

namespace Sys2Proof.Machine

/-! ## Both commands, state by state (R130) -/

theorem encWrite_closed {len : Nat} {w : List Byte} {e : EncUnit} (h : e.est = .closed) :
    encWrite len w e = (e, invalidReply) := by rw [encWrite, h]

theorem encWrite_failed {len : Nat} {w : List Byte} {e : EncUnit} (h : e.est = .failed) :
    encWrite len w e = (e, encErrReply 0) := by rw [encWrite, h]

/-- While streaming `EWRITE` is its payload loop, also with a payload of another length than `len`. -/
theorem encWrite_eq_writePayload {len : Nat} {w : List Byte} {e : EncUnit} (h : e.est = .streaming) :
    encWrite len w e = writePayload len w e := by rw [encWrite, h]

theorem encClose_closed {e : EncUnit} (h : e.est = .closed) : encClose e = (e, invalidReply) := by rw [encClose, h]

theorem encClose_failed {e : EncUnit} (h : e.est = .failed) : encClose e = encAbandon e := by rw [encClose, h]

/-- The IV step fails: `EWRITE` raises and takes no payload (R132). -/
theorem encWrite_of_encInit_failed {len : Nat} {w : List Byte} {e f : EncUnit} (h : e.est = .uninit)
    (hi : encInit e = (false, f)) : encWrite len w e = raiseEncryptionError 0 f := by
  rw [encWrite_uninit h, hi]
  rfl

/-- The IV step fails: `ECLOSE` only closes the sink (R133). -/
theorem encClose_of_encInit_failed {e f : EncUnit} (h : e.est = .uninit) (hi : encInit e = (false, f)) :
    encClose e = encAbandon f := by
  rw [encClose_uninit h, hi]
  rfl

/-- The IV step succeeds: `ECLOSE` goes on as while streaming (R133). -/
theorem encClose_of_encInit_ok {e f : EncUnit} (h : e.est = .uninit) (hi : encInit e = (true, f)) :
    encClose e = encFinish f := by
  rw [encClose_uninit h, hi, if_pos rfl]

/-! ## Replies -/

theorem encClose_reply (e : EncUnit) :
    (encClose e).2 = okReply 0 ∨ (encClose e).2 = encErrReply 0 ∨ (encClose e).2 = invalidReply := by
  cases hs : e.est with
  | closed => exact .inr (.inr (by rw [encClose_closed hs]))
  | failed => exact .inr (.inl (by rw [encClose_failed hs, encAbandon]))
  | streaming =>
    rw [encClose_streaming hs]
    exact (encFinish_status e).2.imp_right .inl
  | uninit =>
    cases hi : encInit e with
    | mk ok f =>
      cases ok with
      | true =>
        rw [encClose_of_encInit_ok hs hi]
        exact (encFinish_status f).2.imp_right .inl
      | false => exact .inr (.inl (by rw [encClose_of_encInit_failed hs hi, encAbandon]))

theorem encClose_not_eos (e : EncUnit) : (encClose e).2.status ≠ .eos := by
  obtain h | h | h := encClose_reply e <;> rw [h] <;> decide

/-- The response of `ECLOSE` is the word of `OK, 0` exactly when its reply is. -/
theorem encClose_response_ok_iff (e : EncUnit) :
    response (encClose e).2 = { word := 0x00000000#32, data := [] } ↔ (encClose e).2 = okReply 0 := by
  obtain h | h | h := encClose_reply e <;> rw [h] <;> decide

theorem response_of_no_data {r : Reply} (h : r.data = []) :
    response r = { word := responseWord r.status r.count, data := [] } := by rw [response, h]

theorem statusField_response (r : Reply) : statusField (response r).word = statusCode r.status :=
  statusField_responseWord _ _

theorem countField_response {r : Reply} (h : r.count < 2 ^ 24) : countField (response r).word = r.count :=
  countField_responseWord _ _ h

/-- The responses of two `EWRITE`s in a row and of the one of the joined payload (R134). -/
theorem response_encWrite_append (e : EncUnit) (a b : List Byte) (hlen : (a ++ b).length < 2 ^ 24) :
    let ra := response (encWrite a.length a e).2
    let rb := response (encWrite b.length b (encWrite a.length a e).1).2
    let rv := response (encWrite (a ++ b).length (a ++ b) e).2
    (statusField ra.word = statusCode .ok → statusField rv.word = statusField rb.word ∧
      countField rv.word = countField ra.word + countField rb.word) ∧
    (statusField ra.word ≠ statusCode .ok → rv = ra) := by
  obtain ⟨-, hok, herr⟩ := encWrite_append e a b
  have hfirst := encWrite_count a e
  have hsecond := encWrite_count b (encWrite a.length a e).1
  rw [List.length_append] at hlen
  simp only [statusField_response]
  refine ⟨fun hs => ?_, fun hs => by rw [herr fun h => hs (congrArg statusCode h)]⟩
  obtain ⟨hreply, hcount⟩ := hok (statusCode_inj hs)
  rw [hreply, countField_response (by dsimp only; omega), countField_response (by omega),
    countField_response (by omega), hcount]
  exact ⟨rfl, rfl⟩

theorem encWrites_not_eos (chunks : List (List Byte)) (e : EncUnit) :
    ∀ r ∈ (encWrites chunks e).2, r.status ≠ .eos := by
  induction chunks generalizing e with
  | nil => exact nofun
  | cons a as ih => exact List.forall_mem_cons.2 ⟨encWrite_not_eos _ _ _, ih _⟩

/-- A clean run is one whose replies are `OK` or `EOS` (R263). -/
theorem cleanRun_map_response (rs : List Reply) :
    cleanRun (rs.map response) = true ↔ ∀ r ∈ rs, r.status = .ok ∨ r.status = .eos := by
  simp [cleanRun, cleanResponse_iff]

/-! ## The status of a command and its calls (R130) -/

theorem writePayload_status_calls (len : Nat) (w : List Byte) {e : EncUnit} (h : e.Inv) (hs : e.est = .streaming) :
    ∃ new, (writePayload len w e).1.calls = e.calls ++ new ∧
      if new.any callFailed then (writePayload len w e).1.est = .failed ∧ (writePayload len w e).2.status = .encErr
      else (writePayload len w e).1.est = .streaming ∧ (writePayload len w e).2.status = .ok :=
  writeLoop_status_calls (payload len w e) 0 (afterPayload len w e) (afterPayload_inv h) hs

/-- `EWRITE` in `UNINIT` or `STREAMING` fails exactly when one of the calls it adds failed. -/
theorem encWrite_status_calls (len : Nat) (w : List Byte) {e : EncUnit} (h : e.Inv)
    (ho : e.est = .uninit ∨ e.est = .streaming) :
    ∃ new, (encWrite len w e).1.calls = e.calls ++ new ∧
      if new.any callFailed then (encWrite len w e).1.est = .failed ∧ (encWrite len w e).2.status = .encErr
      else (encWrite len w e).1.est = .streaming ∧ (encWrite len w e).2.status = .ok := by
  obtain hs | hs := ho
  · obtain ⟨init, hcalls, hfail⟩ := encInit_calls e
    obtain ⟨-, -, -, -, hinv, -⟩ := encInit_ext e h
    rw [encWrite_uninit hs]
    cases hi : (encInit e).1 with
    | false => exact ⟨init, hcalls, by simp [hfail, hi, encErrReply]⟩
    | true =>
      obtain ⟨new, hcalls', hend⟩ := writePayload_status_calls len w (hinv hi) (encInit_est.1 hi)
      refine ⟨init ++ new, by rw [if_pos rfl, hcalls', hcalls, List.append_assoc], ?_⟩
      rwa [List.any_append, hfail, hi, if_pos rfl]
  · rw [encWrite_eq_writePayload hs]
    exact writePayload_status_calls len w h hs

/-- `ECLOSE` in `UNINIT` or `STREAMING` answers `OK` exactly when none of the calls it adds failed. -/
theorem encClose_status_calls {e : EncUnit} (h : e.Inv) (ho : e.est = .uninit ∨ e.est = .streaming) :
    ∃ new, (encClose e).1.calls = e.calls ++ new ∧
      (encClose e).2.status = if new.any callFailed then .encErr else .ok := by
  obtain hs | hs := ho
  · obtain ⟨init, hcalls, hfail⟩ := encInit_calls e
    obtain ⟨-, -, -, -, hinv, -⟩ := encInit_ext e h
    rw [encClose_uninit hs]
    cases hi : (encInit e).1 with
    | false =>
      exact ⟨init ++ [.sinkClose], by simp [encAbandon, hcalls], by simp [encAbandon, hfail, hi, encErrReply]⟩
    | true =>
      obtain ⟨new, hcalls', hstatus⟩ := encFinish_calls _ (hinv hi) (encInit_est.1 hi)
      refine ⟨init ++ new, by rw [if_pos rfl, hcalls', hcalls, List.append_assoc], ?_⟩
      rwa [List.any_append, hfail, hi, if_pos rfl]
  · rw [encClose_streaming hs]
    exact encFinish_calls e h hs

/-! ## A sink that refuses (R202) -/

/-- Before the refused write come the accepted ones, and after them the sink still refuses. -/
theorem sinkRefusesAfter_split {m n w : Nat} {e f : EncUnit} (h : sinkRefusesAfter (m + n) w e)
    (ha : f.accept = e.accept.drop m) (hb : f.blockSize = e.blockSize) :
    sinkAccepts m e ∧ sinkRefusesAfter n w f := by
  obtain ⟨ok, rest, hacc, hlen, hall, hlt⟩ := h
  refine ⟨⟨ok.take m, ok.drop m ++ w :: rest, ?_, ?_, fun x hx => hall x (List.mem_of_mem_take hx)⟩,
    ok.drop m, rest, ?_, ?_, fun x hx => hb ▸ hall x (List.mem_of_mem_drop hx), hb ▸ hlt⟩
  · rw [← List.append_assoc, List.take_append_drop, hacc]
  · exact List.length_take_of_le (by omega)
  · rw [ha, hacc, List.drop_append_of_le_length (by omega)]
  · rw [List.length_drop]
    omega

/-- The answer of a sink that refuses now stands first in its schedule. -/
theorem accept_of_sinkRefuses {w : Nat} {e : EncUnit} (h : sinkRefusesAfter 0 w e) :
    e.accept = w :: e.accept.drop 1 ∧ w < e.blockSize := by
  obtain ⟨ok, rest, hacc, hlen, -, hlt⟩ := h
  obtain rfl := List.length_eq_zero_iff.1 hlen
  rw [hacc]
  exact ⟨rfl, hlt⟩

/-- Of a whole block the sink then takes just these bytes. -/
theorem nextAccept_of_sinkRefuses {w : Nat} {e : EncUnit} (h : sinkRefusesAfter 0 w e) :
    nextAccept e.blockSize e = w := by
  obtain ⟨hacc, hlt⟩ := accept_of_sinkRefuses h
  rw [nextAccept_scheduled hacc, Nat.min_eq_left hlt.le]

/-- `ECLOSE` while streaming, the sink refusing the padded block: everything of ENC that changes, and the reply. -/
theorem encFinish_refused {e : EncUnit} {w : Nat} (h : e.Inv) (hs : e.est = .streaming)
    (hw : sinkRefusesAfter 0 w e) :
    encFinish e = ({ e with
      est := .closed
      ebuf := finalBlock e
      elen := 0
      echain := finalBlock e
      accept := e.accept.drop 1
      snk := e.snk ++ (finalBlock e).take w
      snkClosed := true
      calls := e.calls ++
        [.cbcEncrypt (padAdd e.blockSize e.ebuf e.elen).1 (finalBlock e), .sinkWrite (finalBlock e) w,
          .sinkClose] }, encErrReply 0) := by
  obtain ⟨hacc, hlt⟩ := accept_of_sinkRefuses hw
  have hscheduled : e.accept.isEmpty = false := by rw [hacc]; rfl
  rw [encFinish_eq h hs, nextAccept_of_sinkRefuses hw, hscheduled, List.drop_one, if_neg hlt.ne]
  rfl

/-- The IV is accepted by a sink that refuses the write after it (R131). -/
theorem encInit_before_refusal {e : EncUnit} {iv : List Byte} {w : Nat} (h : e.Inv) (hr : randomAnswers iv e)
    (hw : sinkRefusesAfter 1 w e) :
    ∃ f, encInit e = (true, f) ∧ f.Inv ∧ sinkRefusesAfter 0 w f ∧ f = { e with
      est := .streaming
      elen := 0
      echain := iv
      rng := e.rng.drop 1
      accept := e.accept.drop 1
      snk := e.snk ++ iv
      calls := e.calls ++ [.randomBytes e.blockSize (some iv), .sinkWrite iv e.blockSize, .cbcInit iv] } := by
  obtain ⟨⟨ok, rest, hacc, hlen, hall⟩, hrefuses⟩ :=
    sinkRefusesAfter_split (m := 1) (n := 0) (f := { e with accept := e.accept.drop 1 }) hw rfl rfl
  obtain ⟨a, rfl⟩ := List.length_eq_one_iff.1 hlen
  have hinit := encInit_accepted hr hacc (hall a (List.mem_singleton_self a))
  obtain ⟨-, -, -, -, hinv, -⟩ := encInit_ext e h
  rw [hinit] at hinv
  have hrest : rest = e.accept.drop 1 := by rw [hacc]; rfl
  subst hrest
  exact ⟨_, hinit, hinv rfl, hrefuses, rfl⟩

/-! ## A block write that is refused (R132, R237) -/

/-- The byte that fills the block buffer leaves the last block of the payload in it. -/
theorem ebuf_set_of_full {iv p : List Byte} {e : EncUnit} (b : Byte) (h : e.Inv) (ht : e.Tracks iv p)
    (hfull : p.length % e.blockSize + 1 = e.blockSize) :
    e.ebuf.set e.elen b = p.drop (e.blockSize * (p.length / e.blockSize)) ++ [b] := by
  have hroom := h.streamingRoom ht.streaming
  have hlen : (e.ebuf.set e.elen b).length = e.elen + 1 := by
    rw [List.length_set, h.ebufLength, ht.fill, hfull]
  rw [← ht.residue, ← set_take_succ (h.ebufLength ▸ hroom), List.take_of_length_le hlen.le]

/-- The ciphertext of a payload that ends on a block boundary ends in the block the buffer then gives. -/
theorem cbcEncryptAll_of_full {iv p : List Byte} {e : EncUnit} (b : Byte) (h : e.Inv) (ht : e.Tracks iv p)
    (hfull : p.length % e.blockSize + 1 = e.blockSize) :
    cbcEncryptAll e.cipher e.blockSize iv (fullBlocks e.blockSize (p ++ [b])) =
      cbcEncryptAll e.cipher e.blockSize iv (fullBlocks e.blockSize p) ++
        [cbcEncryptBlock (e.ebuf.set e.elen b) (pushByte b e)] := by
  rw [(fullBlocks_snoc h.pos).1 hfull, cbcEncryptAll_append, ← ht.chain, ebuf_set_of_full b h ht hfull]
  rfl

/-- A byte that completes a block at a sink that refuses it: the block is encrypted, and `w` bytes of it are written. -/
theorem byteFails_of_refused {iv p : List Byte} {e : EncUnit} {w : Nat} (b : Byte) (h : e.Inv) (ht : e.Tracks iv p)
    (hfull : p.length % e.blockSize + 1 = e.blockSize) (hw : sinkRefusesAfter 0 w e) :
    byteFails b e ∧ (flushBlock (pushByte b e)).2.snk =
      e.snk ++ (cbcEncryptBlock (e.ebuf.set e.elen b) (pushByte b e)).take w := by
  have hlen : (cbcEncryptBlock (e.ebuf.set e.elen b) (pushByte b e)).length = e.blockSize :=
    length_cipherE _ _ _ (by simp [length_comb, h.echainLength, h.ebufLength])
  have hnext : nextAccept e.blockSize (pushByte b e) = w := nextAccept_of_sinkRefuses hw
  have hlt := (accept_of_sinkRefuses hw).2
  refine ⟨⟨?_, ?_⟩, ?_⟩
  · rw [pushByte_elen, pushByte_blockSize, ht.fill, hfull]
  · simp only [flushBlock_fst, pushByte_ebuf, pushByte_blockSize, hlen, hnext, decide_eq_false_iff_not]
    exact hlt.ne
  · simp only [flushBlock_snk, pushByte_ebuf, pushByte_snk, hlen, hnext]

/-- A payload that reaches the end of block `k + 1`, cut there: before its last byte, that byte, the rest. -/
theorem exists_cut_at_block {B r k : Nat} {bs : List Byte} (hr : r < B) (h : B * (k + 1) ≤ r + bs.length) :
    ∃ front b rest, bs = front ++ b :: rest ∧ r + front.length + 1 = B * (k + 1) := by
  rw [Nat.mul_add_one] at *
  have hlt : B * k + B - r - 1 < bs.length := by omega
  refine ⟨bs.take (B * k + B - r - 1), bs[B * k + B - r - 1], bs.drop (B * k + B - r - 1 + 1), ?_, ?_⟩
  · rw [List.getElem_cons_drop, List.take_append_drop]
  · rw [List.length_take_of_le hlt.le]
    omega

/-- Of the whole plaintext the command then takes what ends with that byte. -/
theorem take_to_cut {B k : Nat} {p front rest : List Byte} {b : Byte}
    (h : p.length % B + front.length + 1 = B * (k + 1)) :
    (p ++ (front ++ b :: rest)).take (B * (p.length / B + k + 1)) = p ++ front ++ [b] := by
  have hdiv := Nat.div_add_mod p.length B
  have hmul : B * (p.length / B + k + 1) = B * (p.length / B) + B * (k + 1) := by rw [Nat.add_assoc, Nat.mul_add]
  rw [show p ++ (front ++ b :: rest) = (p ++ front ++ [b]) ++ rest by simp]
  refine List.take_left' ?_
  simp only [List.length_append, List.length_singleton]
  omega

/-- The loop when the sink takes `k` blocks and refuses the next: the bytes up to the last one of that block go in, and
that byte ends the command. -/
theorem writeLoop_refused {iv p front rest : List Byte} {b : Byte} {e : EncUnit} {k w : Nat} (h : e.Inv)
    (ht : e.Tracks iv p) (hcut : p.length % e.blockSize + front.length + 1 = e.blockSize * (k + 1))
    (hw : sinkRefusesAfter k w e) :
    ∃ f, f.Inv ∧ f.Tracks iv (p ++ front) ∧ (p ++ front).length / f.blockSize = p.length / e.blockSize + k ∧
      (p ++ front).length % f.blockSize + 1 = f.blockSize ∧ sinkRefusesAfter 0 w f ∧
      f.accept = e.accept.drop k ∧ f.rng = e.rng ∧ f.blockSize = e.blockSize ∧ f.cipher = e.cipher ∧
      writeLoop (front ++ b :: rest) 0 e =
        raiseEncryptionError (front.length + 1) (flushBlock (pushByte b f)).2 := by
  have hp := h.pos
  rw [Nat.mul_add_one] at hcut
  have hcount : (p.length % e.blockSize + front.length) / e.blockSize = k := by
    rw [show p.length % e.blockSize + front.length = e.blockSize * k + (e.blockSize - 1) by omega,
      Nat.mul_add_div hp, Nat.div_eq_of_lt (by omega), Nat.add_zero]
  obtain ⟨f, hloop, finv, ftracks, facc, frng, fbs, fcipher, -⟩ := writeLoop_ok front 0 e h ht
    (hcount ▸ (sinkRefusesAfter_split (n := 0) (f := { e with accept := e.accept.drop k }) hw rfl rfl).1)
  rw [hcount] at facc
  have hrefuses := (sinkRefusesAfter_split (n := 0) hw facc fbs).2
  have hlen : (p ++ front).length = e.blockSize * (p.length / e.blockSize + k) + (e.blockSize - 1) := by
    have hdiv := Nat.div_add_mod p.length e.blockSize
    rw [List.length_append, Nat.mul_add]
    omega
  have hfull : (p ++ front).length % f.blockSize + 1 = f.blockSize := by
    rw [hlen, fbs, Nat.mul_add_mod, Nat.mod_eq_of_lt (by omega), Nat.sub_add_cancel hp]
  refine ⟨f, finv, ftracks, ?_, hfull, hrefuses, facc, frng, fbs, fcipher, ?_⟩
  · rw [hlen, fbs, Nat.mul_add_div hp, Nat.div_eq_of_lt (Nat.sub_lt hp Nat.one_pos), Nat.add_zero]
  · rw [writeLoop_append, hloop, Nat.zero_add, if_pos (by rfl),
      writeLoop_cons_fail (byteFails_of_refused b finv ftracks hfull hrefuses).1]

/-! ## `ECLOSE` and the complete stream (R133, R135) -/

/-- The end of a stream answers `OK` exactly when the sink then has the length of the whole stream. -/
theorem encFinish_ok_iff_length {iv p : List Byte} {e : EncUnit} (h : e.Inv) (ht : e.Tracks iv p) :
    (encFinish e).2 = okReply 0 ↔
      (encFinish e).1.snk.length = (encStream e.cipher e.blockSize iv p).length := by
  have hlast := length_finalBlock h ht.streaming
  have hle := nextAccept_le e.blockSize e
  have hwritten : (encFinish e).1.snk.length = e.snk.length + nextAccept e.blockSize e := by
    rw [encFinish_eq h ht.streaming, List.length_append, List.length_take_of_le (hlast ▸ hle)]
  have hstream : (encStream e.cipher e.blockSize iv p).length = e.snk.length + e.blockSize := by
    rw [encStream_tracks h ht, List.length_append]
    exact congrArg _ hlast
  have hreply : (encFinish e).2 = okReply 0 ↔ nextAccept e.blockSize e = e.blockSize := by
    rw [encFinish_eq h ht.streaming]
    simp [okReply, encErrReply]
  rw [hreply, hwritten, hstream, Nat.add_left_cancel_iff]

/-- While streaming, `OK` and the whole stream in the sink are one thing. -/
theorem encFinish_ok_iff_stream {iv p : List Byte} {e : EncUnit} (h : e.Inv) (ht : e.Tracks iv p) :
    (encFinish e).2 = okReply 0 ↔ (encFinish e).1.snk = encStream e.cipher e.blockSize iv p :=
  ⟨fun hok => (encFinish_clean h ht (by rw [hok]; rfl)).2.2,
    fun hsnk => (encFinish_ok_iff_length h ht).2 (congrArg List.length hsnk)⟩

/-- As the first command: the IV is what the random source gave, and a failed IV step leaves less than a stream. -/
theorem encClose_ok_iff_stream_of_fresh {e : EncUnit} (hf : e.Fresh) :
    (encClose e).2 = okReply 0 ↔
      ∃ iv, iv.length = e.blockSize ∧ (encClose e).1.snk = encStream e.cipher e.blockSize iv [] := by
  cases hi : encInit e with
  | mk ok f =>
    cases ok with
    | true =>
      obtain ⟨iv, -, -, finv, ftracks, fbs, fcipher⟩ := encInit_success hf (by rw [hi])
      rw [hi] at finv ftracks fbs fcipher
      rw [encClose_of_encInit_ok hf.uninit hi, ← fbs, ← fcipher]
      refine ⟨fun hok => ⟨iv, ftracks.ivLength, (encFinish_ok_iff_stream finv ftracks).1 hok⟩, ?_⟩
      rintro ⟨iv', hiv', hsnk⟩
      rw [encFinish_ok_iff_length finv ftracks, hsnk, length_encStream _ _ _ _ finv.pos hiv',
        length_encStream _ _ _ _ finv.pos ftracks.ivLength]
    | false =>
      have hshort : (encAbandon f).1.snk.length < e.blockSize := by
        simpa [hi, hf.emptySink, encAbandon] using encInit_false hf.inv.pos (by rw [hi])
      rw [encClose_of_encInit_failed hf.uninit hi]
      refine iff_of_false (by simp [encAbandon, okReply, encErrReply]) ?_
      rintro ⟨iv, hiv, hsnk⟩
      rw [hsnk, length_encStream _ _ _ _ hf.inv.pos hiv] at hshort
      omega

/-! ## A clean run (R263) -/

/-- If all of a fresh unit's replies were `OK`, its IV step succeeded: a failed one answers the first command. -/
theorem encInit_of_clean {e : EncUnit} {chunks : List (List Byte)} (hu : e.est = .uninit)
    (hwrites : ∀ r ∈ (encWrites chunks e).2, r.status = .ok)
    (hclose : (encClose (encWrites chunks e).1).2.status = .ok) : (encInit e).1 = true := by
  by_contra hi
  have hfail : encInit e = (false, (encInit e).2) := Prod.ext (by simpa using hi) rfl
  cases chunks with
  | nil =>
    rw [encWrites, encClose_of_encInit_failed hu hfail] at hclose
    cases hclose
  | cons a as =>
    have hfirst := hwrites _ List.mem_cons_self
    rw [encWrite_of_encInit_failed hu hfail] at hfirst
    cases hfirst

/-- A fresh unit whose replies were all `OK` has written the whole stream and closed the sink, whatever the sink was
going to answer. -/
theorem encWrites_encClose_clean {e : EncUnit} {iv : List Byte} {chunks : List (List Byte)} (hf : e.Fresh)
    (hr : randomAnswers iv e) (hwrites : ∀ r ∈ (encWrites chunks e).2, r.status = .ok)
    (hclose : (encClose (encWrites chunks e).1).2.status = .ok) :
    (encClose (encWrites chunks e).1).1.est = .closed ∧ (encClose (encWrites chunks e).1).1.snkClosed = true ∧
      (encClose (encWrites chunks e).1).1.snk = encStream e.cipher e.blockSize iv chunks.flatten := by
  have hi := encInit_of_clean hf.uninit hwrites hclose
  obtain ⟨finv, ftracks, fbs, fcipher⟩ := encInit_true hf hr hi
  obtain ⟨hsame, hsameClose⟩ :=
    encWrites_encClose_of_encInit chunks hf.uninit (Prod.ext hi rfl) ftracks.streaming
  rw [hsame] at hwrites
  obtain ⟨ginv, gtracks, gbs, gcipher⟩ := encWrites_clean chunks _ finv ftracks hwrites
  rw [hsameClose, encClose_streaming gtracks.streaming] at hclose ⊢
  rw [← fbs, ← fcipher, ← gbs, ← gcipher]
  exact encFinish_clean ginv gtracks hclose

/-! ## The obligations -/

/-- Settles O19: the IV step of a fresh unit, then the payload loop on the empty stream. -/
theorem ewriteFirstRunsIvStep : Obligations.EwriteFirstRunsIvStep := by
  unfold Obligations.EwriteFirstRunsIvStep
  rintro s iv _ hf hr rfl - hacc
  obtain ⟨g, hinit, ginv, gtracks, grng, gaccept, gbs, gcipher, gclosed, gacc, -⟩ := encInit_fresh hf hr hacc
  have hblocks : (([] : List Byte).length % g.blockSize + s.wdata.length) / g.blockSize =
      s.wdata.length / s.enc.blockSize := by simp [gbs]
  obtain ⟨f, hloop, finv, ftracks, faccept, frng, fbs, fcipher, fclosed⟩ :=
    writeLoop_ok s.wdata 0 g ginv gtracks (hblocks ▸ gacc)
  have hrun : encWrite s.wdata.length s.wdata s.enc = (f, okReply s.wdata.length) := by
    rw [encWrite_uninit hf.uninit, hinit, if_pos rfl, writePayload_of_length rfl, hloop, Nat.zero_add]
  refine ⟨_, exec_ewrite _ s, ?_⟩
  rw [hrun]
  refine ⟨finv, ftracks, rfl, ?_, ?_, fbs.trans gbs, fcipher.trans gcipher, fclosed.trans gclosed, rfl, rfl, rfl⟩
  · rw [finishEnc_enc, frng, grng, List.drop_one]
  · rw [finishEnc_enc, faccept, hblocks, gaccept, ← List.drop_one, List.drop_drop]

/-- Settles O23: the payload is cut before the last byte of the refused block; up to there the loop streams, and that
byte raises the error. -/
theorem ewriteBlockWriteFailure : Obligations.EwriteBlockWriteFailure := by
  unfold Obligations.EwriteBlockWriteFailure
  rintro s iv p _ k w hinv ht rfl - hw hreach
  obtain ⟨front, b, rest, hcutAt, hcut⟩ := exists_cut_at_block (Nat.mod_lt p.length hinv.pos) hreach
  obtain ⟨f, finv, ftracks, hblocks, hfull, hrefuses, faccept, frng, fbs, fcipher, hloop⟩ :=
    writeLoop_refused (rest := rest) (b := b) hinv ht hcut hw
  obtain ⟨⟨hfill, -⟩, hsnk⟩ := byteFails_of_refused b finv ftracks hfull hrefuses
  have hcount : front.length + 1 = s.enc.blockSize * (k + 1) - p.length % s.enc.blockSize := by omega
  have hrun : encWrite s.wdata.length s.wdata s.enc =
      raiseEncryptionError (front.length + 1) (flushBlock (pushByte b f)).2 := by
    rw [encWrite_streaming ht.streaming, hcutAt, hloop]
  have hcipher := cbcEncryptAll_of_full b finv ftracks hfull
  refine ⟨_, exec_ewrite _ s, ?_⟩
  rw [hrun, hcutAt, take_to_cut hcut, ← fcipher, ← fbs]
  refine ⟨rfl, hfill, ?_, ⟨_, _, ?_, hcipher, ?_, rfl, rfl⟩, ?_, frng, rfl, rfl, rfl⟩
  · rw [fbs, ← hcount]
    rfl
  · rw [length_cbcEncryptAll, length_fullBlocks, hblocks, fbs]
  · rw [← ftracks.sink]
    exact hsnk
  · rw [finishEnc_enc, raiseEncryptionError_accept, flushBlock_accept, pushByte_accept, faccept, List.tail_drop]

/-- Settles O25: `encWrite_append`, read off the response words. -/
theorem ewriteChunkIndependence : Obligations.EwriteChunkIndependence := by
  unfold Obligations.EwriteChunkIndependence
  rintro s t u a b hlen ht hu
  cases ht
  cases hu
  exact ⟨_, response (encWrite a.length a s.enc).2, response (encWrite b.length b (encWrite a.length a s.enc).1).2, _,
    exec_ewrite _ _, (encWrite_append s.enc a b).1, rfl, rfl, by simp, rfl, response_encWrite_append s.enc a b hlen⟩

/-- Settles O29: while streaming, and after the IV step with an empty residue. -/
theorem ecloseFinalWriteFailure : Obligations.EcloseFinalWriteFailure := by
  unfold Obligations.EcloseFinalWriteFailure
  intro s w hinv
  refine ⟨fun hs hw => ?_, fun iv hu hr hw => ?_⟩
  · refine ⟨_, finalBlock s.enc, exec_eclose s, rfl, ?_⟩
    rw [encClose_streaming hs, encFinish_refused hinv hs hw]
    exact ⟨rfl, rfl, rfl, rfl, rfl, by simp, rfl⟩
  · obtain ⟨f, hinit, finv, hrefuses, rfl⟩ := encInit_before_refusal hinv hr hw
    refine ⟨_, _, _, exec_eclose s, rfl, rfl, ?_⟩
    rw [encClose_of_encInit_ok hu hinit, encFinish_refused finv rfl hrefuses]
    simp [finalBlock, padAdd_zero]

/-- Settles O30: `encAbandon` after the calls of the failed IV step. -/
theorem ecloseIvStepFailure : Obligations.EcloseIvStepFailure := by
  unfold Obligations.EcloseIvStepFailure
  intro s _ hu
  refine ⟨fun hr => ?_, fun iv w hr hw => ?_⟩
  · refine ⟨_, exec_eclose s, ?_⟩
    rw [encClose_of_encInit_failed hu (encInit_randomFail hr)]
    simp [encAbandon]
  · refine ⟨_, exec_eclose s, ?_⟩
    rw [encClose_of_encInit_failed hu (encInit_writeFail hr hw)]
    simp [encAbandon]

/-- Settles O32: the response is `OK, 0` exactly when the reply is, and the reply is when the stream is complete. -/
theorem ecloseOkIffStreamComplete : Obligations.EcloseOkIffStreamComplete := by
  unfold Obligations.EcloseOkIffStreamComplete
  intro s t h
  cases h
  have hlog : (finishEnc (encClose s.enc) s).rspLog = s.rspLog ++ [{ word := 0x00000000#32, data := [] }] ↔
      (encClose s.enc).2 = okReply 0 := by
    rw [finishEnc_rspLog, List.append_cancel_left_eq, List.singleton_inj, encClose_response_ok_iff]
  rw [hlog]
  refine ⟨fun iv p hinv ht => ?_, encClose_ok_iff_stream_of_fresh, fun hterm => ?_⟩
  · rw [finishEnc_enc, encClose_streaming ht.streaming]
    exact encFinish_ok_iff_stream hinv ht
  · rw [ne_eq, hlog, finishEnc_enc]
    obtain hs | hs := hterm
    · rw [encClose_failed hs]
      exact ⟨by simp [encAbandon, okReply, encErrReply], rfl⟩
    · rw [encClose_closed hs]
      exact ⟨by simp [invalidReply, okReply], rfl⟩

/-- Settles O33, one case for each command and state. -/
theorem encTransitions : Obligations.EncTransitions := by
  unfold Obligations.EncTransitions
  intro s t i hinv hi ht
  obtain ⟨len, rfl⟩ | rfl := hi
  · cases ht
    refine ⟨(encWrite len s.wdata s.enc).2.status, (encWrite len s.wdata s.enc).2.count, ?_⟩
    rw [finishEnc_rspLog, response_of_no_data (encReply_data len s.wdata s.enc), finishEnc_enc]
    cases hs : s.enc.est with
    | uninit =>
      obtain ⟨new, hcalls, hend⟩ := encWrite_status_calls len s.wdata hinv (.inl hs)
      exact ⟨new, rfl, hcalls, hend⟩
    | streaming =>
      obtain ⟨new, hcalls, hend⟩ := encWrite_status_calls len s.wdata hinv (.inr hs)
      exact ⟨new, rfl, hcalls, hend⟩
    | failed =>
      rw [encWrite_failed hs]
      exact ⟨[], rfl, (List.append_nil _).symm, hs, rfl, rfl⟩
    | closed =>
      rw [encWrite_closed hs]
      exact ⟨[], rfl, (List.append_nil _).symm, hs, rfl, rfl⟩
  · cases ht
    refine ⟨(encClose s.enc).2.status, (encClose s.enc).2.count, ?_⟩
    rw [finishEnc_rspLog, response_of_no_data (encClose_data s.enc), finishEnc_enc]
    cases hs : s.enc.est with
    | uninit =>
      obtain ⟨new, hcalls, hstatus⟩ := encClose_status_calls hinv (.inl hs)
      exact ⟨new, rfl, hcalls, encClose_est s.enc, hstatus⟩
    | streaming =>
      obtain ⟨new, hcalls, hstatus⟩ := encClose_status_calls hinv (.inr hs)
      exact ⟨new, rfl, hcalls, encClose_est s.enc, hstatus⟩
    | failed =>
      rw [encClose_failed hs]
      exact ⟨[.sinkClose], rfl, rfl, rfl, rfl, rfl⟩
    | closed =>
      rw [encClose_closed hs]
      exact ⟨[], rfl, (List.append_nil _).symm, hs, rfl, rfl⟩

/-- Settles O37: every clean response of ENC is `OK`, and then `encWrites_encClose_clean` says what the unit holds. -/
theorem cleanEncryptionIsComplete : Obligations.CleanEncryptionIsComplete := by
  unfold Obligations.CleanEncryptionIsComplete
  intro s t chunks iv rest hf hr hlen hp hrun hclean
  obtain ⟨u, hwrites, henc, -, hpending, hlog⟩ :=
    run_ewrites chunks hlen (rest := command .eclose [] :: rest) (by rw [hp]; simp [encryptEvents])
  have hstep := (step_presented (i := .eclose) rfl hpending).trans (exec_eclose _)
  rw [hwrites 1, run_succ 0 _ _ hstep] at hrun
  cases hrun
  have hreplies : (finishEnc (encClose u.enc) { u with pending := rest, wdata := [] }).rspLog =
      s.rspLog ++ ((encWrites chunks s.enc).2 ++ [(encClose (encWrites chunks s.enc).1).2]).map response := by
    rw [finishEnc_rspLog, hlog, henc, List.map_append, List.append_assoc]
    rfl
  rw [hreplies, List.drop_left, cleanRun_map_response, List.forall_mem_append] at hclean
  obtain ⟨hwritten, hclosed⟩ := hclean
  rw [finishEnc_enc, henc]
  exact encWrites_encClose_clean hf hr
    (fun r hr => (hwritten r hr).resolve_right (encWrites_not_eos chunks s.enc r hr))
    ((hclosed _ (List.mem_singleton_self _)).resolve_right (encClose_not_eos _))

/-- Settles O59, from what each command makes of its own state register. -/
theorem terminalStates : Obligations.TerminalStates := by
  unfold Obligations.TerminalStates
  intro s t i ht
  cases i with
  | ewrite len =>
    cases ht
    obtain ⟨hclosed, hfailed, huninit⟩ := encWrite_est len s.wdata s.enc
    exact ⟨hclosed, fun h => .inl (hfailed h), fun h => absurd h huninit, id, .inl, id⟩
  | eclose =>
    cases ht
    have hclosed := encClose_est s.enc
    have hinit : (encClose s.enc).1.est ≠ .uninit := by simp [hclosed]
    exact ⟨fun _ => hclosed, fun _ => .inr ⟨rfl, hclosed⟩, fun h => absurd h hinit, id, .inl, id⟩
  | dread len =>
    cases ht
    obtain ⟨hclosed, hfailed, huninit, -⟩ := decRead_dst len s.dec
    exact ⟨id, .inl, id, hclosed, fun h => .inl (hfailed h), fun h => absurd h huninit⟩
  | dclose =>
    cases ht
    have hclosed := decClose_dst s.dec
    have hinit : (decClose s.dec).1.dst ≠ .uninit := by simp [hclosed]
    exact ⟨id, .inl, id, fun _ => hclosed, fun _ => .inr ⟨rfl, hclosed⟩, fun h => absurd h hinit⟩

/-- Settles O21: the IV step stops at the random source. -/
theorem ewriteRandomFailure : Obligations.EwriteRandomFailure := by
  unfold Obligations.EwriteRandomFailure
  intro s len hu hr
  refine ⟨_, exec_ewrite len s, ?_⟩
  rw [encWrite_of_encInit_failed hu (encInit_randomFail hr)]
  exact ⟨by simp, rfl, rfl, rfl, rfl⟩

/-- Settles O22: the IV step stops at the sink. -/
theorem ewriteIvWriteFailure : Obligations.EwriteIvWriteFailure := by
  unfold Obligations.EwriteIvWriteFailure
  intro s iv w len _ hu hr hw
  refine ⟨_, exec_ewrite len s, ?_⟩
  rw [encWrite_of_encInit_failed hu (encInit_writeFail hr hw)]
  exact ⟨by simp, rfl, rfl, rfl, rfl⟩

/-- Settles O24, one case for each terminal state. -/
theorem ewriteTerminalStates : Obligations.EwriteTerminalStates := by
  unfold Obligations.EwriteTerminalStates
  intro s len
  refine ⟨fun hs => ?_, fun hs => ?_⟩
  · rw [exec_ewrite, encWrite_closed hs, finishEnc, post, response_invalid]
  · rw [exec_ewrite, encWrite_failed hs, finishEnc, post, response_encErr_zero]

/-- Settles O31, one case for each terminal state. -/
theorem ecloseTerminalStates : Obligations.EcloseTerminalStates := by
  unfold Obligations.EcloseTerminalStates
  intro s
  refine ⟨fun hs => ?_, fun hs => ?_⟩
  · rw [exec_eclose, encClose_failed hs, encAbandon, finishEnc, post, response_encErr_zero]
    rfl
  · rw [exec_eclose, encClose_closed hs, finishEnc, post, response_invalid]

end Sys2Proof.Machine
end

section
/-! PROOFS. DEC as the host sees it: one block inside a stream, `DREAD` by its states, split and in a row, and `DCLOSE`
(10_state.md R30, R44, 42_stream_decryptor.md R160 to R169). -/

namespace Sys2Proof.Machine

/-! ## A block inside a stream (R162) -/

/-- A source that is not at its end gives at least one byte to a read of a block. -/
theorem srcNext_ne_nil {n : Nat} {d : DecUnit} (hn : 1 ≤ n) (h : d.spos < d.src.length) : srcNext n d ≠ [] := by
  rw [← List.length_pos_iff, length_srcNext]
  omega

/-- A full block with source bytes after it is decrypted and not stripped. -/
theorem nextBlock_interior {d : DecUnit} (h : d.Inv) (hs : d.dst = .streaming)
    (hl : (takeBlock d).1.length = d.blockSize) (hmore : (takeBlock d).2.spos < d.src.length) :
    nextBlock d = (true, decryptAndLookAhead (takeBlock d).1 (takeBlock d).2) := by
  obtain ⟨-, hsrc, -⟩ := takeBlock_facts h hs
  rw [nextBlock_full h hl, if_neg (srcNext_ne_nil h.pos (hsrc ▸ hmore))]

/-- What the look-ahead leaves valid in `la` is what the source gave. -/
theorem decryptAndLookAhead_take_la (blk : List Byte) (d : DecUnit) :
    (decryptAndLookAhead blk d).la.take (decryptAndLookAhead blk d).laLen = srcNext d.blockSize d := by
  rw [decryptAndLookAhead_la, decryptAndLookAhead_laLen, take_overlay]

/-! ## The ways a `DREAD` ends, state by state (R160, R163) -/

/-- The status a `DREAD` answers when it leaves an open unit in a state. -/
def endStatus : DecState → Status
  | .drained => .eos
  | .failed => .decErr
  | .uninit | .streaming | .draining | .closed => .ok

/-- The status of a `DREAD` is the one of the state it leaves. -/
theorem decRead_status {d : DecUnit} (len : Nat) (h : d.Inv) (hc : d.dst ≠ .closed) :
    (decRead len d).2.status = endStatus (decRead len d).1.dst := by
  obtain ⟨hstatus, -, hdrained, hfailed⟩ | ⟨hstatus, hdst⟩ | ⟨hstatus, hdst⟩ := (decRead_outcome (len := len) h hc).2
  · rw [hstatus]
    cases hd : (decRead len d).1.dst with
    | drained => exact absurd hd hdrained
    | failed => exact absurd hd hfailed
    | uninit | streaming | draining | closed => rfl
  · rw [hstatus, hdst, endStatus]
  · rw [hstatus, hdst, endStatus]

/-- A `DREAD` leaves an open unit in one of four states. -/
theorem decRead_dst_of_open {d : DecUnit} (len : Nat) (hc : d.dst ≠ .closed) :
    (decRead len d).1.dst = .streaming ∨ (decRead len d).1.dst = .draining ∨ (decRead len d).1.dst = .drained ∨
      (decRead len d).1.dst = .failed := by
  obtain ⟨-, -, huninit, hclosed⟩ := decRead_dst len d
  cases hd : (decRead len d).1.dst with
  | uninit => exact absurd hd huninit
  | closed => exact absurd hd (hclosed hc)
  | streaming | draining | drained | failed => simp

/-- A unit whose final block is identified raises no error any more: its `DREAD`s only use up the tail. -/
theorem decRead_dst_of_draining {d : DecUnit} (len : Nat) (h : d.Inv) (hd : d.dst = .draining) :
    (decRead len d).1.dst = .draining ∨ (decRead len d).1.dst = .drained := by
  rw [decRead_of (by simp [hd]) (by simp [hd]) (by simp [hd])]
  exact (readAll_draining len [] d ⟨h, .inr (.inl hd)⟩ (.inl hd)).2

/-- `DREAD` in `DRAINED` repeats `EOS, 0` (R58). -/
theorem decRead_drained {len : Nat} {d : DecUnit} (h : d.Inv) (hd : d.dst = .drained) :
    decRead len d = (d, { status := .eos, count := 0, data := [] }) := by
  obtain ⟨htail, -⟩ := h.drained hd
  rw [decRead_of (by simp [hd]) (by simp [hd]) (by simp [hd]), readAll_drained (by omega) hd, readReply, hd]
  rfl

/-! ## `DCLOSE` (R164) -/

theorem decClose_of_ne_closed {d : DecUnit} (h : d.dst ≠ .closed) :
    decClose d = ({ srcClose d with dst := .closed }, okReply 0) := by
  cases hd : d.dst with
  | closed => exact absurd hd h
  | uninit | streaming | draining | drained | failed => rw [decClose, hd]

theorem decClose_of_closed {d : DecUnit} (h : d.dst = .closed) : decClose d = (d, okReply 0) := by rw [decClose, h]

/-- `DCLOSE` in `CLOSED` answers `OK, 0` and does nothing more. -/
theorem exec_dclose_of_closed {s : State} (h : s.dec.dst = .closed) :
    exec .dclose s = .next { s with wdata := [], rspLog := s.rspLog ++ [{ word := 0x00000000#32, data := [] }] } := by
  rw [exec_dclose, decClose_of_closed h, finishDec, post, response_ok_zero]

/-! ## `DREAD`s in a row (R98, R166) -/

/-- The `DREAD`s of the lengths `sizes`, one after the other, and their replies. -/
def decReads : List Nat → DecUnit → DecUnit × List Reply
  | [], d => (d, [])
  | n :: ns, d =>
    let r := decRead n d
    let x := decReads ns r.1
    (x.1, r.2 :: x.2)

theorem length_decReads (sizes : List Nat) (d : DecUnit) : (decReads sizes d).2.length = sizes.length := by
  induction sizes generalizing d with
  | nil => rfl
  | cons n ns ih => rw [decReads, List.length_cons, List.length_cons, ih]

/-- The host's `DREAD`s run one after the other on DEC alone. -/
theorem run_dreads (sizes : List Nat) {s : State} {rest : List HostEvent} (hlen : ∀ n ∈ sizes, n < 2 ^ 24)
    (hp : s.pending = sizes.map (fun n => command (.dread n) []) ++ rest) :
    ∃ t, core.run sizes.length s = .next t ∧ t.dec = (decReads sizes s.dec).1 ∧ t.enc = s.enc ∧ t.pending = rest ∧
      t.rspLog = s.rspLog ++ (decReads sizes s.dec).2.map response := by
  induction sizes generalizing s with
  | nil => exact ⟨s, rfl, rfl, rfl, hp, by simp [decReads]⟩
  | cons n ns ih =>
    obtain ⟨hn, hns⟩ := List.forall_mem_cons.1 hlen
    have hstep := step_presented (i := .dread n) (lenOk_iff.2 hn) hp
    obtain ⟨t, hrun, hdec, henc, hpending, hlog⟩ := ih hns (s := finishDec (decRead n s.dec)
      { s with pending := ns.map (fun n => command (.dread n) []) ++ rest, wdata := [] }) rfl
    exact ⟨t, (run_succ _ _ _ hstep).trans hrun, hdec, henc, hpending, by simp [hlog, decReads]⟩

/-- What a row of `DREAD`s on an open unit keeps, what it has delivered, and the status of the last. -/
theorem decReads_tracks (sizes : List Nat) {d : DecUnit} {out : List Byte} (h : d.Inv) (ht : d.Tracks out)
    (hc : d.dst ≠ .closed) :
    (decReads sizes d).1.Inv ∧ (decReads sizes d).1.Tracks (out ++ (decReads sizes d).2.flatMap Reply.data) ∧
      (∃ new, DecExt new d (decReads sizes d).1) ∧
      ∀ r, (decReads sizes d).2.getLast? = some r → r.status = endStatus (decReads sizes d).1.dst := by
  induction sizes generalizing d out with
  | nil => exact ⟨h, by simpa [decReads] using ht, ⟨[], DecExt.refl d⟩, nofun⟩
  | cons n ns ih =>
    obtain ⟨hinv, first, hfirst⟩ := decRead_inv n d h
    obtain ⟨-, -, -, hopen⟩ := decRead_dst n d
    obtain ⟨hinv', htracks, ⟨new, hnew⟩, hlast⟩ := ih hinv (decRead_tracks h ht hc) (hopen hc)
    refine ⟨hinv', by simpa [decReads] using htracks, ⟨_, hfirst.trans hnew⟩, fun r hr => ?_⟩
    cases ns with
    | nil =>
      obtain rfl : (decRead n d).2 = r := Option.some.inj hr
      exact decRead_status n h hc
    | cons m ms => exact hlast r (by simpa [decReads] using hr)

/-- A unit that has ended the stream has delivered the table's data, and its status is the table's (R166). -/
theorem decStream_of_tracks {d : DecUnit} {out : List Byte} (ht : d.Tracks out) (he : endStatus d.dst ≠ .ok) :
    decStream d.cipher d.blockSize d.src = (out, endStatus d.dst) := by
  rw [DecUnit.Tracks] at ht
  cases hd : d.dst with
  | drained => rwa [hd] at ht
  | failed => rwa [hd] at ht
  | uninit | streaming | draining | closed => rw [hd] at he; exact absurd rfl he

/-! ## The obligations -/

/-- Settles O41: the next pull is not empty, so the block is not the final one. -/
theorem nextBlockInterior : Obligations.NextBlockInterior := by
  unfold Obligations.NextBlockInterior
  rintro d _ hinv hs - rfl hl hmore
  obtain ⟨-, hsrc, -, hbs, -, -, -, hdst, -⟩ := takeBlock_facts hinv hs
  refine ⟨_, nextBlock_interior hinv hs hl hmore, hdst.trans hs, cbcDecryptBlock_take d, rfl, rfl, hbs, rfl, ?_, ?_, rfl⟩
  · rw [decryptAndLookAhead_laLen, length_srcNext, hbs, hsrc]
  · rw [decryptAndLookAhead_take_la, srcNext, hbs, hsrc]

/-- Settles O45: on the unit it is `decRead_split`, and ENC is not touched. -/
theorem dreadSplitIndependence : Obligations.DreadSplitIndependence := by
  unfold Obligations.DreadSplitIndependence
  intro s t u a b _ ht hu
  cases ht
  cases hu
  obtain ⟨hunit, hdata, hstatus⟩ := decRead_split a b s.dec
  refine ⟨_, response (decRead a s.dec).2, response (decRead b (decRead a s.dec).1).2,
    response (decRead (a + b) s.dec).2, exec_dread _ s, hunit, rfl, rfl, by simp, rfl, hdata, ?_⟩
  rw [statusField_response, statusField_response, hstatus]

/-- Settles O46: the passes still needed only go down, so any fuel above them gives the same (`readLoop_fuel`). -/
theorem dreadPassBound : Obligations.DreadPassBound := by
  unfold Obligations.DreadPassBound
  exact fun len fuel d hfuel => readLoop_eq_readAll ((passes_le len d).trans hfuel)

/-- Settles O48, state by state: `DREAD` answers the status of the state it leaves. -/
theorem decTransitions : Obligations.DecTransitions := by
  unfold Obligations.DecTransitions
  intro s t i hinv hi ht
  obtain ⟨len, rfl⟩ | rfl := hi
  · cases ht
    refine ⟨(decRead len s.dec).2.status, (decRead len s.dec).2.data, by rw [finishDec_rspLog, response_dec], ?_⟩
    rw [finishDec_dec]
    cases hd : s.dec.dst with
    | uninit | streaming =>
      have hc : s.dec.dst ≠ .closed := by simp [hd]
      rw [decRead_status len hinv hc]
      obtain h | h | h | h := decRead_dst_of_open len hc <;> simp [h, endStatus]
    | draining =>
      rw [decRead_status len hinv (by simp [hd])]
      obtain h | h := decRead_dst_of_draining len hinv hd <;> simp [h, endStatus]
    | drained => rw [decRead_drained hinv hd]; exact ⟨hd, rfl, rfl⟩
    | failed => rw [decRead_failed hd]; exact ⟨hd, rfl, rfl⟩
    | closed => rw [decRead_closed hd]; exact ⟨hd, rfl, rfl⟩
  · cases ht
    refine ⟨.ok, [], by rw [finishDec_rspLog, decClose_reply]; rfl, ?_⟩
    exact ⟨decClose_dst s.dec, rfl, rfl⟩

/-- Settles O50: the `DREAD`s run on DEC alone, where `decReads_tracks` says what they have delivered. -/
theorem sourceContentLaw : Obligations.SourceContentLaw := by
  unfold Obligations.SourceContentLaw
  intro s sizes rest hf hlen hp
  obtain ⟨t, hrun, -, henc, hpending, hlog⟩ := run_dreads sizes hlen hp
  obtain ⟨hinv, htracks, ⟨new, hx⟩, hlast⟩ := decReads_tracks sizes hf.inv (fresh_tracks hf) (by simp [hf.uninit])
  have hdata : ((decReads sizes s.dec).2.map response).flatMap Response.data =
    (decReads sizes s.dec).2.flatMap Reply.data := List.flatMap_map ..
  rw [List.nil_append, ← hdata] at htracks
  rw [← hx.ci, ← hx.bs, ← hx.src]
  refine ⟨t, _, hrun, hlog, by rw [List.length_map, length_decReads], henc, hpending, tracks_prefix hinv htracks,
    fun r hr hne => ?_⟩
  rw [List.getLast?_map] at hr
  obtain ⟨reply, hreply, rfl⟩ := Option.map_eq_some_iff.1 hr
  rw [statusField_response, hlast reply hreply] at hne ⊢
  rw [decStream_of_tracks htracks fun h => hne (congrArg statusCode h)]
  exact ⟨rfl, rfl⟩

/-- Settles O52: `Dec` undoes `Enc`. -/
theorem roundTrip : Obligations.RoundTrip := by
  unfold Obligations.RoundTrip
  exact fun c _ _ p hB h255 hiv => decStream_encStream c p hB h255 hiv

/-- Settles O47: the first `DCLOSE` closes the source and ends in `CLOSED`, the state that answers what follows. -/
theorem dcloseEffect : Obligations.DcloseEffect := by
  unfold Obligations.DcloseEffect
  intro s
  refine ⟨fun hopen => ?_, exec_dclose_of_closed, fun t ht => ?_⟩
  · rw [exec_dclose, decClose_of_ne_closed hopen, finishDec, post, response_ok_zero]
    rfl
  · cases ht
    have hclosed := decClose_dst s.dec
    refine ⟨fun len => ?_, exec_dclose_of_closed hclosed⟩
    obtain ⟨-, -, hread⟩ := dreadTerminalStates (finishDec (decClose s.dec) s) len
    exact hread hclosed

end Sys2Proof.Machine
end

section
/-! PROOFS. The collaborators: the laws of the block cipher and of `Comb`, and the order of DEC's calls over a whole
stream (43_collaborator_primitives.md R204, R205, R212). -/

namespace Sys2Proof.Machine

/-! ## DEC's calls over a whole stream (R161 to R164, R212) -/

/-- `DECRYPT` in one read runs `DREAD` and then `DCLOSE` on DEC (R98). -/
theorem run_decryptEvents_one {s : State} {len : Nat} (hlen : len < 2 ^ 24) (h : s.pending = decryptEvents [len]) :
    ∃ t, core.run 2 s = .next t ∧ t.dec = (decClose (decRead len s.dec).1).1 :=
  ⟨_, run_two (step_presented (i := .dread len) (lenOk_iff.2 hlen) h) (step_presented (i := .dclose) rfl rfl), rfl⟩

/-- The calls up to the end of the stream are a matter of the source and the parameters, which no command changes. -/
theorem DecExt.allCalls_eq {new : List Call} {d f : DecUnit} (h : DecExt new d f) : allCalls f = allCalls d := by
  rw [allCalls, allCalls, blocksOf, blocksOf, h.src, h.bs, h.ci]

/-- The IV step of a source that has an IV makes the first two calls of the stream; block 1 is still to be pulled. -/
theorem decInit_calls {d : DecUnit} (hf : d.Fresh) (hiv : d.blockSize ≤ d.src.length) :
    (decInit d).1 = true ∧ DecCalls d.calls (decInit d).2 := by
  have hok := decInit_ok (d := d) (by rw [hf.start]; omega)
  have htracks := (decInit_tracks hf.inv hf.uninit hf.start).1 (by rw [hok])
  rw [hok] at htracks ⊢
  obtain ⟨m, hmid⟩ := htracks
  obtain rfl : m = 0 := Nat.eq_zero_of_not_pos fun hm => Bool.false_ne_true (hmid.ahead.2 hm)
  have hsrc : srcNext d.blockSize d = d.src.take d.blockSize := by rw [srcNext, hf.start, List.drop_zero]
  refine ⟨rfl, fun _ => ⟨0, [], hmid, ?_⟩, nofun⟩
  simp [allCalls, blocksOf, hsrc]

/-- A `DREAD` that drains a stream of whole blocks has made all its calls, in their order. -/
theorem decRead_calls_of_drained {d : DecUnit} {len : Nat} (hf : d.Fresh) (hlong : d.blockSize < d.src.length)
    (hwhole : d.src.length % d.blockSize = 0) (hdrained : (decRead len d).1.dst = .drained) :
    (decRead len d).1.calls = d.calls ++ allCalls d := by
  obtain ⟨hok, hcalls⟩ := decInit_calls hf hlong.le
  obtain ⟨hlive, _, hinit⟩ := (decInit_facts hf.inv hf.uninit).1 hok
  obtain ⟨-, _, hread⟩ := decRead_inv len d hf.inv
  have hstatus := decRead_status len hf.inv (by simp [hf.uninit])
  rw [hdrained, endStatus] at hstatus
  rw [← hread.allCalls_eq]
  rw [decRead_uninit hf.uninit, if_pos hok] at hstatus hdrained ⊢
  have hend := readAll_calls len [] _ hlive (by rwa [hinit.src, hinit.bs]) (by rwa [hinit.src, hinit.bs]) hcalls
    (by simp [hstatus])
  exact hend.2 (.inr hdrained)

/-! ## The obligations -/

/-- Settles O51: the two commands of the stream run on DEC, where the long `DREAD` makes every call but the last
(`decRead_calls_of_drained`) and `DCLOSE` makes that one. -/
theorem decCallOrder : Obligations.DecCallOrder := by
  unfold Obligations.DecCallOrder
  intro s len hf hlong hwhole heos hl hlen hp
  obtain ⟨t, hrun, hdec⟩ := run_decryptEvents_one hlen hp
  obtain ⟨-, hstatus, hdrained⟩ := decRead_whole hf hl
  have hend := hdrained (hstatus.trans heos)
  refine ⟨t, hrun, ?_⟩
  rw [hdec, decClose_of_ne_closed (by simp [hend]), srcClose_calls,
    decRead_calls_of_drained hf hlong hwhole hend, List.append_assoc]
  rfl

/-- Settles O17 by the laws of the cipher and of `Comb`. -/
theorem cipherAndCombInvert : Obligations.CipherAndCombInvert := by
  unfold Obligations.CipherAndCombInvert
  exact fun c x _ h => ⟨cipherD_cipherE c _ x rfl, length_cipherE c _ x rfl, comb_comb h⟩

end Sys2Proof.Machine
end

section
/-! PROOFS. The error kinds as the host sees them: what raised a `DecryptionError` cannot be told afterwards, and an
`INVALID` response means that nothing was done (60_exceptions.md R233, R234, R240). -/

namespace Sys2Proof.Machine

/-! ## `INVALID` (R234) -/

/-- A command that leaves ENC alone when it replies `INVALID` has done nothing when `INVALID` is what it added to the
responses. -/
theorem finishEnc_of_invalid {r : EncUnit × Reply} {s : State} (hsame : r.2.status = .invalid → r.1 = s.enc)
    (hlog : (finishEnc r s).rspLog = s.rspLog ++ [{ word := 0xF0000000#32, data := [] }]) :
    finishEnc r s = { s with wdata := [], rspLog := s.rspLog ++ [{ word := 0xF0000000#32, data := [] }] } := by
  rw [finishEnc_rspLog, List.append_cancel_left_eq, List.singleton_inj] at hlog
  rw [finishEnc, post, hlog, hsame (response_invalid_iff hlog)]

/-- The same of DEC. -/
theorem finishDec_of_invalid {r : DecUnit × Reply} {s : State} (hsame : r.2.status = .invalid → r.1 = s.dec)
    (hlog : (finishDec r s).rspLog = s.rspLog ++ [{ word := 0xF0000000#32, data := [] }]) :
    finishDec r s = { s with wdata := [], rspLog := s.rspLog ++ [{ word := 0xF0000000#32, data := [] }] } := by
  rw [finishDec_rspLog, List.append_cancel_left_eq, List.singleton_inj] at hlog
  rw [finishDec, post, hlog, hsame (response_invalid_iff hlog)]

/-- `DCLOSE` never replies `INVALID` (R164). -/
theorem decClose_ne_invalid (d : DecUnit) : (decClose d).2.status ≠ .invalid := by simp [decClose_reply, okReply]

/-- A command whose response is `INVALID` has used up its payload and done nothing else. -/
theorem exec_of_invalid {i : Instr} {s t : State} (ht : exec i s = .next t)
    (hlog : t.rspLog = s.rspLog ++ [{ word := 0xF0000000#32, data := [] }]) :
    t = { s with wdata := [], rspLog := s.rspLog ++ [{ word := 0xF0000000#32, data := [] }] } := by
  cases i with
  | ewrite len => cases ht; exact finishEnc_of_invalid encWrite_invalid hlog
  | eclose => cases ht; exact finishEnc_of_invalid encClose_invalid hlog
  | dread len => cases ht; exact finishDec_of_invalid decRead_invalid hlog
  | dclose => cases ht; exact finishDec_of_invalid (fun h => absurd h (decClose_ne_invalid s.dec)) hlog

/-! ## Units that have come to an end alike (R233, R240) -/

/-- Two DEC units in the same one of the states `FAILED` and `CLOSED`, whatever else they hold. -/
structure DecUnit.EndedAlike (d d' : DecUnit) : Prop where
  same : d'.dst = d.dst
  ended : d.dst = .failed ∨ d.dst = .closed

/-- `DREAD` of an ended unit replies by its state alone, and does nothing. -/
theorem DecUnit.EndedAlike.decRead {d d' : DecUnit} (h : d.EndedAlike d') (len : Nat) :
    ∃ r, decRead len d = (d, r) ∧ decRead len d' = (d', r) := by
  obtain hd | hd := h.ended
  · exact ⟨_, decRead_failed hd, decRead_failed (h.same.trans hd)⟩
  · exact ⟨_, decRead_closed hd, decRead_closed (h.same.trans hd)⟩

/-- `DCLOSE` leaves any two units in `CLOSED`. -/
theorem decClose_endedAlike (d d' : DecUnit) : (decClose d).1.EndedAlike (decClose d').1 :=
  ⟨(decClose_dst d').trans (decClose_dst d).symm, .inr (decClose_dst d)⟩

/-- A command word does the same to everything but DEC when DEC is replaced by a unit that has ended alike; and the two
units have ended alike again. -/
theorem runCommand_endedAlike (w : Word) (bytes : List Byte) {s : State} {d : DecUnit} (h : s.dec.EndedAlike d) :
    ∃ t d', runCommand w bytes s = .next t ∧ runCommand w bytes { s with dec := d } = .next { t with dec := d' } ∧
      t.dec.EndedAlike d' ∧ t.pending = s.pending := by
  cases hw : decode w with
  | error r => exact ⟨_, d, runCommand_of_reserved hw _ _, runCommand_of_reserved hw _ _, h, rfl⟩
  | ok i =>
    rw [runCommand_of_decode hw, runCommand_of_decode hw]
    cases i with
    | ewrite len => exact ⟨_, d, exec_ewrite len _, exec_ewrite len _, h, rfl⟩
    | eclose => exact ⟨_, d, exec_eclose _, exec_eclose _, h, rfl⟩
    | dread len =>
      obtain ⟨r, hr, hr'⟩ := h.decRead len
      rw [exec_dread, exec_dread, hr, hr']
      exact ⟨_, d, rfl, rfl, h, rfl⟩
    | dclose =>
      refine ⟨_, (decClose d).1, exec_dclose _, ?_, decClose_endedAlike s.dec d, rfl⟩
      rw [exec_dclose, finishDec, finishDec, decClose_reply, decClose_reply]
      rfl

/-- A sequence of command words does the same to everything but DEC when DEC is replaced by a unit that has ended
alike. -/
theorem run_commands_endedAlike (cmds : List (Word × List Byte)) {s : State} {d : DecUnit} (h : s.dec.EndedAlike d)
    (hp : s.pending = cmds.map (fun c => .command c.1 c.2)) :
    ∃ t d', core.run cmds.length s = .next t ∧
      core.run cmds.length { s with dec := d } = .next { t with dec := d' } := by
  induction cmds generalizing s d with
  | nil => exact ⟨s, d, rfl, rfl⟩
  | cons c cs ih =>
    obtain ⟨t, d', ht, ht', hended, hpending⟩ :=
      runCommand_endedAlike c.1 c.2 (s := { s with pending := cs.map fun c => .command c.1 c.2 }) h
    obtain ⟨u, d'', hu, hu'⟩ := ih hended hpending
    exact ⟨u, d'', (run_succ _ _ _ ((step_command hp).trans ht)).trans hu,
      (run_succ _ _ _ ((step_command (s := { s with dec := d }) hp).trans ht')).trans hu'⟩

/-! ## The obligations -/

/-- Settles O60: a reserved word does nothing, and a command that replies `INVALID` has left its unit as it was. -/
theorem invalidMeansNoEffect : Obligations.InvalidMeansNoEffect := by
  unfold Obligations.InvalidMeansNoEffect
  intro s t w bytes rest hp ht hlog
  rw [step_command hp] at ht
  cases hw : decode w with
  | error r =>
    rw [runCommand_of_reserved hw, post, response_invalid] at ht
    cases ht
    rfl
  | ok i =>
    rw [runCommand_of_decode hw] at ht
    exact exec_of_invalid ht hlog

/-- Settles O58: the second machine is the first with another DEC unit, and two `FAILED` units have ended alike. -/
theorem failureCauseIsInvisible : Obligations.FailureCauseIsInvisible := by
  unfold Obligations.FailureCauseIsInvisible
  intro cmds s s' t hd hd' henc hlog hwdata hp hp' ht
  have hs' : s' = { s with dec := s'.dec } := by rw [henc, hlog, hwdata, ← hp']
  obtain ⟨u, d', hu, hu'⟩ := run_commands_endedAlike cmds (d := s'.dec) ⟨hd'.trans hd.symm, .inl hd⟩ hp
  rw [← hs'] at hu'
  obtain rfl : u = t := Host.Outcome.next.inj (hu.symm.trans ht)
  exact ⟨_, hu', rfl, rfl⟩

end Sys2Proof.Machine
end

section
/-! PROOFS. A reset event without a new binding (70_reset_and_hazards.md R260; log 12 for the bindings that stay). -/

namespace Sys2Proof.Machine

/-- Without a binding `RESET ENC` resets ENC as it is bound, and touches nothing else (R260). -/
theorem execResetEnc_none (s : State) : execResetEnc none s = .next { s with enc := resetEnc s.enc } := rfl

/-- Without a binding `RESET DEC` resets DEC as it is bound, and touches nothing else (R260). -/
theorem execResetDec_none (s : State) : execResetDec none s = .next { s with dec := resetDec s.dec } := rfl

/-- Settles O11: the step resets one unit of the state, whose registers after it are the laws of `resetEnc` and
`resetDec`. -/
theorem resetEffects : Obligations.ResetEffects := by
  unfold Obligations.ResetEffects
  constructor
  · intro s rest hp
    refine ⟨_, (step_cons hp).trans (execResetEnc_none _), ?_⟩
    simp
  · intro s rest hp
    refine ⟨_, (step_cons hp).trans (execResetDec_none _), ?_⟩
    simp

end Sys2Proof.Machine
end
